-- ==== Sys2Proof/Word.lean ====
section
/-! DEFINITION. The word types of the block (00_scope.md rules R6, R7, R8). -/

namespace Sys2Proof

/-- A command word, an operand word, a register or a pixel word. -/
abbrev Word := BitVec 32

/-- A table entry, a channel, a level, an amount. -/
abbrev Byte := BitVec 8

/-- The index fields BASE, COUNT, DST, A and B (R82, R83). -/
abbrev Index := BitVec 12

/-- The TID field (R81): a table or channel number. -/
abbrev Tid := BitVec 2

/-- A host byte address (R50). -/
abbrev Addr := BitVec 16

end Sys2Proof
end

