-- ==== Sys2Proof/Machine/Gamma.lean ====
section
/-! DEFINITION. Gamma values and the forward entry function (40_table_generation.md R100, R101, R104), computed exactly. -/

namespace Sys2Proof.Machine

/-! ### Binary32 (00_scope.md R12) -/

/-- The exponent field e = b[30:23]. -/
def f32Exp (b : Word) : Nat := (b.extractLsb' 23 8).toNat

/-- The integer that multiplies the power of two: m for e = 0, 2^23 + m otherwise. -/
def f32Mant (b : Word) : Nat :=
  let m := (b.extractLsb' 0 23).toNat
  if f32Exp b = 0 then m else 2 ^ 23 + m

/-- `f32val(b)` (R12). For e = 0xFF the spec gives no value, and no rule uses the one this formula has. -/
def f32val (b : Word) : ℚ :=
  (if b.getLsbD 31 then -1 else 1) * f32Mant b * (2 : ℚ) ^ ((max (f32Exp b) 1 : ℤ) - 150)

/-- `gammaValid(b)` (R100): positive and finite. -/
def gammaValid (b : Word) : Bool :=
  !b.getLsbD 31 && f32Exp b != 0xFF && b.extractLsb' 0 31 != 0#31

/-- The exponent `num / 2 ^ shift`. -/
structure Exponent where
  num : Nat
  shift : Nat
deriving DecidableEq, Repr

/-- Divide out factors of two, at most `fuel` of them: the rest, and how many were divided out. -/
def stripTwos : Nat → Nat → Nat × Nat
  | 0, m => (m, 0)
  | fuel + 1, m =>
    if m % 2 = 0 then
      let r := stripTwos fuel (m / 2)
      (r.1, r.2 + 1)
    else (m, 0)

/-- A positive finite gamma as the dyadic number that R104 writes it as: M / 2^S with M odd, or an integer. -/
def gammaExponent (b : Word) : Exponent :=
  let r := stripTwos 24 (f32Mant b)
  let e := max (f32Exp b) 1 + r.2
  if 150 ≤ e then ⟨r.1 * 2 ^ (e - 150), 0⟩ else ⟨r.1, 150 - e⟩

/-! ### The exact comparison of R104 -/

/-- (p / q) ^ (num / 2^shift) ≥ (2k - 1) / (2 * maxOut), over the integers. -/
def powGe (p q : Nat) (g : Exponent) (maxOut k : Nat) : Bool :=
  decide ((2 * k - 1) ^ 2 ^ g.shift * q ^ g.num ≤ p ^ g.num * (2 * maxOut) ^ 2 ^ g.shift)

/-- Bisection: `k` plus the greatest sum of the powers of two below `2 ^ n` that keeps `holds` true. -/
def greatest (holds : Nat → Bool) : Nat → Nat → Nat
  | 0, k => k
  | n + 1, k => if holds (k + 2 ^ n) then greatest holds n (k + 2 ^ n) else greatest holds n k

/-- `round_half_up((p / q)^g * maxOut)` for maxOut < 256, by R104: the number of k in 1..maxOut with
(p / q)^g ≥ (2k - 1) / (2 * maxOut). -/
def roundedPowExact (p q : Nat) (g : Exponent) (maxOut : Nat) : Nat :=
  greatest (fun k => decide (k ≤ maxOut) && powGe p q g maxOut k) 8 0

/-! ### Bounds that decide the same comparison on short numbers -/

/-- The unit of the bounds: a bound `n` stands for the real number `n / spanUnit`. -/
def spanUnit : Nat := 2 ^ 128

/-- A lower and an upper bound of a real number in [0, 1]. -/
structure Span where
  lo : Nat
  hi : Nat
deriving DecidableEq, Repr

/-- The bounds of 1. -/
def Span.one : Span := ⟨spanUnit, spanUnit⟩

/-- The bounds of p / q, for p ≤ q and q > 0. -/
def Span.ratio (p q : Nat) : Span := ⟨p * spanUnit / q, p * spanUnit / q + 1⟩

/-- The bounds of a product. -/
def Span.mul (x y : Span) : Span := ⟨x.lo * y.lo / spanUnit, x.hi * y.hi / spanUnit + 1⟩

/-- Newton's iteration for the square root of `n`, from the guess `a`. -/
def sqrtGuess : Nat → Nat → Nat → Nat
  | 0, _, a => a
  | fuel + 1, n, a => if (a + n / a) / 2 < a then sqrtGuess fuel n ((a + n / a) / 2) else a

/-- A number whose square is at most `n`. The guess is checked, so nothing rests on how it was found. -/
def sqrtLow (n a : Nat) : Nat :=
  let r := sqrtGuess 200 n a
  if r * r ≤ n then r else 0

/-- A number whose square is at least `n`. -/
def sqrtHigh (n a : Nat) : Nat :=
  let r := sqrtGuess 200 n a
  if n ≤ r * r then r else if n ≤ (r + 1) * (r + 1) then r + 1 else n

/-- The bounds of the square root of a product. -/
def Span.sqrtMul (x y : Span) : Span :=
  ⟨sqrtLow (x.lo * y.lo) ((x.lo + y.lo) / 2 + 1), sqrtHigh (x.hi * y.hi) ((x.hi + y.hi) / 2 + 1)⟩

/-- The bounds of x ^ ((num mod 2^n) / 2^n): one square root for each of the low `n` bits of `num`. -/
def Span.fracPow (x : Span) (num : Nat) : Nat → Span
  | 0 => Span.one
  | n + 1 => Span.sqrtMul (Span.fracPow x num n) (if num.testBit n then x else Span.one)

/-- The bounds of x ^ k by repeated squaring; with the fuel used up, the bounds of anything in [0, 1]. -/
def Span.natPow : Nat → Span → Nat → Span
  | 0, _, k => if k = 0 then Span.one else ⟨0, spanUnit⟩
  | fuel + 1, x, k =>
    if k = 0 then Span.one
    else
      let h := Span.natPow fuel (x.mul x) (k / 2)
      if k % 2 = 1 then x.mul h else h

/-- The bounds of (p / q) ^ g. -/
def Span.pow (p q : Nat) (g : Exponent) : Span :=
  (Span.natPow 160 (Span.ratio p q) (g.num / 2 ^ g.shift)).mul (Span.fracPow (Span.ratio p q) g.num g.shift)

/-- floor((n / spanUnit) * maxOut + 1/2). -/
def roundBound (n maxOut : Nat) : Nat := (2 * n * maxOut + spanUnit) / (2 * spanUnit)

/-- `round_half_up((p / q)^g * maxOut)` for 0 < p < q and 1 ≤ maxOut ≤ 255. Exact in every case (R104): small exponents,
among them every one under which a tie can occur, are compared exactly; otherwise the bounds give the value where both round to
the same integer; and where they do not, the exact comparison decides (log entry 16). -/
def roundedPow (p q : Nat) (g : Exponent) (maxOut : Nat) : Nat :=
  if g.num ≤ 64 ∧ g.shift ≤ 3 then roundedPowExact p q g maxOut
  else
    let s := Span.pow p q g
    if roundBound s.lo maxOut = roundBound s.hi maxOut then roundBound s.lo maxOut
    else roundedPowExact p q g maxOut

/-! ### The forward entry function -/

/-- `gammaEntry(i, maxIn, maxOut, f32val(b))` (R101), for a valid gamma pattern `b`, with pow(0, g) = 0 (00_scope.md R9)
and the force-to-1 step. -/
def gammaEntry (i maxIn maxOut : Nat) (b : Word) : Nat :=
  if maxIn ≤ i then maxOut
  else if i = 0 then 0
  else
    let k := roundedPow i maxIn (gammaExponent b) maxOut
    if k = 0 then 1 else k

/-- The 256 entries BUILD computes (R102). -/
def gammaTable (maxIn maxOut : Byte) (b : Word) : List Byte :=
  (List.range 256).map (fun i => BitVec.ofNat 8 (gammaEntry i maxIn.toNat maxOut.toNat b))

/-- `closedForm(v, b)` (41_pixel_correction.md R131): the entry with maxIn = maxOut = 255. -/
def closedForm (v : Byte) (b : Word) : Byte := BitVec.ofNat 8 (gammaEntry v.toNat 255 255 b)

end Sys2Proof.Machine
end

