-- ==== Sys2Proof/Syntax.lean ====
section
/-! DEFINITION. The eight commands as decoded (30_encoding.md R85, R89), one constructor per row of opcode_table.json. -/

namespace Sys2Proof

/-- A decoded command. BLEND carries the two indices that its operand word ARG gives (R83, R89). The in-place form
BLENDI (43_blend.md R182) is `blend` with `dst = a`. -/
inductive Instr where
  | build (tid : Tid) (maxIn maxOut : Byte)
  | invert (tid : Tid) (maxOut : Byte)
  | applyf (base count : Index)
  | applyi (base count : Index)
  | scale (base count : Index)
  | scalef (base count : Index)
  | floorg (base count : Index)
  | blend (dst a b : Index) (amt : Byte)
deriving DecidableEq, Repr

end Sys2Proof
end

