-- ==== Sys2Proof/WellFormed.lean ====
section
/-! DEFINITION. Which terms of `Instr` an encoding exists for. -/

namespace Sys2Proof

/-- Every field has the width its format gives it; the one check left is that INVERT has no TID 3, "since the document
defines inverses only for the pixel channels" (30_encoding.md R86). -/
def Instr.wf : Instr → Bool
  | .build _ _ _ => true
  | .invert tid _ => tid != 3#2
  | .applyf _ _ => true
  | .applyi _ _ => true
  | .scale _ _ => true
  | .scalef _ _ => true
  | .floorg _ _ => true
  | .blend _ _ _ _ => true

end Sys2Proof
end

