-- ==== Sys2Proof/Decode.lean ====
section
/-! DEFINITION. The decoder and the encoder of command words (30_encoding.md R80 to R89). -/

namespace Sys2Proof

/-- Why a word is no command (R86). Every one of these is the cause ILLEGAL_CMD of 60_exceptions.md R201. -/
inductive Illegal where
  | opcode          -- OPC is not one of the eight values of R85
  | buildReserved   -- BUILD with w[23:18] ≠ 0
  | invertReserved  -- INVERT with w[23:18] ≠ 0
  | invertMaxIn     -- INVERT with w[15:8] ≠ 0
  | invertTid       -- INVERT with TID = 3
  | blendReserved   -- BLEND with w[15:12] ≠ 0
  | blendArg        -- BLEND with ARG[31:24] ≠ 0
deriving DecidableEq, Repr

/-- Bits 31:24, the opcode field of every format (R80). -/
def opcField (w : Word) : Byte := w.extractLsb' 24 8

/-- Bits 23:18, the reserved field of format T (R81). -/
def resField (w : Word) : BitVec 6 := w.extractLsb' 18 6

/-- Bits 17:16, TID of format T (R81). -/
def tidField (w : Word) : Tid := w.extractLsb' 16 2

/-- Bits 15:8, MAXIN of format T (R81). -/
def maxInField (w : Word) : Byte := w.extractLsb' 8 8

/-- Bits 7:0, MAXOUT of format T (R81). -/
def maxOutField (w : Word) : Byte := w.extractLsb' 0 8

/-- Bits 23:12: BASE of format P (R82), A of the operand word of format B (R83). -/
def highIndex (w : Word) : Index := w.extractLsb' 12 12

/-- Bits 11:0: COUNT of format P (R82), DST and B of format B (R83). -/
def lowIndex (w : Word) : Index := w.extractLsb' 0 12

/-- Bits 23:16, AMT of format B (R83). -/
def amtField (w : Word) : Byte := w.extractLsb' 16 8

/-- Bits 15:12, the reserved field of format B (R83). -/
def blendResField (w : Word) : BitVec 4 := w.extractLsb' 12 4

/-- Bits 31:24 of the operand word, its reserved field RESA (R83). -/
def argResField (a : Word) : Byte := a.extractLsb' 24 8

/-- BUILD (R81, R86). -/
def decodeBuild (w : Word) : Except Illegal Instr :=
  if resField w ≠ 0#6 then .error .buildReserved
  else .ok (.build (tidField w) (maxInField w) (maxOutField w))

/-- INVERT (R81, R86). -/
def decodeInvert (w : Word) : Except Illegal Instr :=
  if resField w ≠ 0#6 then .error .invertReserved
  else if maxInField w ≠ 0#8 then .error .invertMaxIn
  else if tidField w = 3#2 then .error .invertTid
  else .ok (.invert (tidField w) (maxOutField w))

/-- BLEND, whose indices A and B come from the ARG value `a` (R83, R86). -/
def decodeBlend (w a : Word) : Except Illegal Instr :=
  if blendResField w ≠ 0#4 then .error .blendReserved
  else if argResField a ≠ 0#8 then .error .blendArg
  else .ok (.blend (lowIndex w) (highIndex a) (lowIndex a) (amtField w))

/-- `decode(w, a)` of R89, total: a command, or why the word is illegal. -/
def decode (w a : Word) : Except Illegal Instr :=
  if opcField w = 0x01#8 then decodeBuild w
  else if opcField w = 0x02#8 then decodeInvert w
  else if opcField w = 0x10#8 then .ok (.applyf (highIndex w) (lowIndex w))
  else if opcField w = 0x11#8 then .ok (.applyi (highIndex w) (lowIndex w))
  else if opcField w = 0x20#8 then .ok (.scale (highIndex w) (lowIndex w))
  else if opcField w = 0x21#8 then .ok (.scalef (highIndex w) (lowIndex w))
  else if opcField w = 0x22#8 then .ok (.floorg (highIndex w) (lowIndex w))
  else if opcField w = 0x30#8 then decodeBlend w a
  else .error .opcode

/-- Format T (R81): OPC, RES = 0, TID, MAXIN, MAXOUT. -/
def formatT (opc : Byte) (tid : Tid) (maxIn maxOut : Byte) : Word :=
  opc ++ 0#6 ++ tid ++ maxIn ++ maxOut

/-- Format P (R82): OPC, BASE, COUNT. -/
def formatP (opc : Byte) (base count : Index) : Word :=
  opc ++ base ++ count

/-- Format B, the command word (R83): OPC, AMT, RES = 0, DST. -/
def formatB (opc amt : Byte) (dst : Index) : Word :=
  opc ++ amt ++ 0#4 ++ dst

/-- The command word of an instruction (R81 to R83, R85). -/
def encode : Instr → Word
  | .build tid maxIn maxOut => formatT 0x01#8 tid maxIn maxOut
  | .invert tid maxOut => formatT 0x02#8 tid 0#8 maxOut
  | .applyf base count => formatP 0x10#8 base count
  | .applyi base count => formatP 0x11#8 base count
  | .scale base count => formatP 0x20#8 base count
  | .scalef base count => formatP 0x21#8 base count
  | .floorg base count => formatP 0x22#8 base count
  | .blend dst _ _ amt => formatB 0x30#8 amt dst

/-- The operand word the host writes to ARG before the command word (R80, R83): BLEND has one, no other command does. -/
def operandWord : Instr → Option Word
  | .build _ _ _ => none
  | .invert _ _ => none
  | .applyf _ _ => none
  | .applyi _ _ => none
  | .scale _ _ => none
  | .scalef _ _ => none
  | .floorg _ _ => none
  | .blend _ a b _ => some (0#8 ++ a ++ b)

/-- The command word among the low `nbits` bits of `w`, every bit above them 0. -/
def tableCommand (nbits w : Nat) : Word := BitVec.ofNat 32 (w % 2 ^ nbits)

/-- The operand word among them: bits 63:32, where BLEND's ARG word follows its command word. -/
def tableOperand (nbits w : Nat) : Word := BitVec.ofNat 32 ((w % 2 ^ nbits) / 2 ^ 32)

/-- What the decoder reads from an instruction whose bits are numbered as opcode_table.json numbers them. -/
def decodeTableWord (nbits w : Nat) : Option Instr :=
  (decode (tableCommand nbits w) (tableOperand nbits w)).toOption

end Sys2Proof
end

