-- ==== Sys2Proof/Config.lean ====
section
/-! DEFINITION. What an implementation fixes, and the free values the spec leaves open. -/

namespace Sys2Proof

/-- The parameter NPIX (00_scope.md R7, decision D20) of the machine that `State.reset` describes.
DESIGN CHOICE (log entry 1): 16, the value the vectors of 95_test_vectors.md use. The meanings read NPIX from the
state, where it is constant, so a statement over all states holds for every NPIX. -/
def Config.npix : Nat := 16

/-- The `n`-th free value that a host read of an entry holding no value returns (10_state.md R39: "a draw, any
value"). It has no body: nothing can be proved of what it is (log entry 5). -/
opaque Config.freeWord : Nat → Word

end Sys2Proof
end

