-- ==== Sys2Proof/Machine/State.lean ====
section
/-! DEFINITION. The state of the block, why a step can stop, and the state after reset. -/

namespace Sys2Proof.Machine

/-- The values STATUS.CAUSE takes (60_exceptions.md R201); codes 6 to 15 are never written. -/
inductive Cause where
  | none
  | illegalCmd
  | pixRange
  | badRange
  | badGamma
  | tableInvalid
deriving DecidableEq, Repr

/-- CTRL.MODE, the correction strategy of APPLYF (10_state.md R30). -/
inductive Mode where
  | lookupTable
  | closedForm
deriving DecidableEq, Repr

/-- Three 8-bit fields, one per color channel: CC and FLOOR (R32, R34). -/
structure Rgb where
  r : Byte
  g : Byte
  b : Byte
deriving DecidableEq, Repr

/-- GAMMA_R, GAMMA_G, GAMMA_B and GAMMA_DIM, binary32 patterns (R37). -/
structure Gammas where
  r : Word
  g : Word
  b : Word
  dim : Word
deriving DecidableEq, Repr

/-- The lookup tables and the pixel buffer, by host byte address (20_memory.md R51, R53, R60, R61). An address that is
not listed holds no value (10_state.md R39). -/
abbrev Memory := List Host.Cell

/-- The width of a host access (R56). -/
inductive Size where
  | byte
  | half
  | word
deriving DecidableEq, Repr

/-- What reaches the block from outside: a host transaction (R54, R55), or a reset by the platform (R230). -/
inductive HostEvent where
  | read (size : Size) (addr : Addr)
  | write (size : Size) (addr : Addr) (value : Word)
  | rst
deriving DecidableEq, Repr

/-- What a host transaction returns (70_reset_and_hazards.md R241). -/
inductive Response where
  | value (v : Word)
  | ok
  | busError
deriving DecidableEq, Repr

/-- The complete state of the block (10_state.md R41), and after it the model's own record of the run. -/
structure State where
  /-- The parameter NPIX (R35): constant, no step changes it. -/
  npix : Nat
  /-- ARG (R26). -/
  arg : Word
  /-- STATUS.ERR (R27). -/
  err : Bool
  /-- STATUS.DROP (R27). -/
  drop : Bool
  /-- STATUS.CAUSE (R27). -/
  cause : Cause
  /-- ERRINFO (R28). -/
  errInfo : Word
  /-- ERRARG (R29). -/
  errArg : Word
  /-- CTRL.MODE (R30). -/
  mode : Mode
  /-- BRIGHT.LEVEL (R31). -/
  level : Byte
  /-- CC (R32). -/
  cc : Rgb
  /-- FLOOR (R34), always a function of CC. -/
  floor : Rgb
  /-- TVALID: bit w is V[w] (R33). -/
  tvalid : BitVec 8
  /-- The GAMMA registers (R37). -/
  gamma : Gammas
  /-- Tbl[0..7][0..255] and Pix[0..NPIX-1] (R36, R38). -/
  mem : Memory
  /-- MODEL: the run-wide mark of 60_exceptions.md R219, "a command faulted or was dropped". -/
  commandLost : Bool
  /-- MODEL: the events still to come, the next one first (R241). -/
  host : List HostEvent
  /-- MODEL: what the transactions so far returned, the oldest first (R241). -/
  log : List Response
  /-- MODEL: how many free values host reads have drawn (R39). -/
  draws : Nat
deriving DecidableEq, Repr

/-- Why the machine stops: only the model-only fault of 60_exceptions.md R218, in two forms. An architected fault of
the block (R204) is a next state, not one of these. -/
inductive Fault where
  /-- A command read entry `i` of table `w`, which holds no value. Raised by INVERT, APPLYF, APPLYI, SCALE, SCALEF and
  BLEND. Safe: the run is covered by no claim (R218). -/
  | tableNoValue (w i : Nat)
  /-- A command read pixel word `k`, which holds no value. Raised by APPLYF, APPLYI, SCALE, SCALEF, FLOORG and BLEND.
  Safe (R218). -/
  | pixelNoValue (k : Nat)
deriving DecidableEq, Repr

/-- No word is refused (R219); the one constructor is for an instruction without a meaning in this model. -/
inductive Refusal where
  /-- Raised by an arm of `exec` that has no meaning yet: none has. Safe. -/
  | notModelled (mnemonic : String)
deriving DecidableEq, Repr

/-- The state right after reset of a block with `n` pixels (70_reset_and_hazards.md R231). The four fields of the
model's own record are empty (log entries 2, 5, 14). -/
def State.resetWith (n : Nat) : State where
  npix := n
  arg := 0#32
  err := false
  drop := false
  cause := .none
  errInfo := 0#32
  errArg := 0#32
  mode := .lookupTable
  level := 0xFF#8
  cc := ⟨0xFF#8, 0xFF#8, 0xFF#8⟩
  floor := ⟨1#8, 1#8, 1#8⟩
  tvalid := 0#8
  gamma := ⟨0#32, 0#32, 0#32, 0#32⟩
  mem := []
  commandLost := false
  host := []
  log := []
  draws := 0

/-- The state right after reset, with the NPIX of `Config` (log entry 1). -/
def State.reset : State := State.resetWith Config.npix

end Sys2Proof.Machine
end

