-- ==== Sys2Proof/Machine/Ops.lean ====
section
/-! DEFINITION. The named operations over memory and registers, the architected fault and the return from it. -/

namespace Sys2Proof.Machine

/-- The outcome of a step of this machine. -/
abbrev Out := Host.Outcome State Fault Refusal

/-! ### Memory -/

/-- The byte at address `a`; an unlisted address holds no value (10_state.md R39, log entry 4). -/
def Memory.read : Memory → Nat → Option Byte
  | [], _ => none
  | c :: m, a => if c.1 = a then some c.2 else Memory.read m a

/-- The bytes `bs` at the addresses from `a` up. -/
def Memory.cells : Nat → List Byte → Memory
  | _, [] => []
  | a, b :: bs => (a, b) :: Memory.cells (a + 1) bs

/-- Store the bytes `bs` from address `a` up, in one step. Every other address keeps its value. -/
def Memory.store (m : Memory) (a : Nat) (bs : List Byte) : Memory :=
  match bs with
  | [] => m
  | _ :: _ =>
    m.filter (fun c => c.1 < a) ++ (Memory.cells a bs ++ m.filter (fun c => a + bs.length ≤ c.1))

/-- The canonical form: addresses strictly rising. No entry can equal what an unlisted address reads as, since that is
no value. -/
abbrev Memory.wf (m : Memory) : Prop := m.Pairwise (fun c d => c.1 < d.1)

/-- The four bytes of a word, the lowest address first (20_memory.md R61). -/
def wordBytes (v : Word) : List Byte :=
  [v.extractLsb' 0 8, v.extractLsb' 8 8, v.extractLsb' 16 8, v.extractLsb' 24 8]

/-- The word of four bytes, `b0` at the lowest address (R61). -/
def wordOfBytes (b0 b1 b2 b3 : Byte) : Word := b3 ++ b2 ++ b1 ++ b0

/-- The word at address `a`, if its four bytes hold values. -/
def Memory.readWord (m : Memory) (a : Nat) : Option Word :=
  match m.read a, m.read (a + 1), m.read (a + 2), m.read (a + 3) with
  | some b0, some b1, some b2, some b3 => some (wordOfBytes b0 b1 b2 b3)
  | _, _, _, _ => none

/-! ### Tables and pixels -/

/-- The host byte address of Tbl[w][i] (R53). -/
def tblAddr (w i : Nat) : Nat := 0x0400 + 0x100 * w + i

/-- The host byte address of Pix[k] (R60). -/
def pixAddr (k : Nat) : Nat := 0x4000 + 4 * k

/-- Tbl[w][i] as a command reads it; an entry that holds no value is the model-only fault (60_exceptions.md R218). -/
def State.entry (s : State) (w i : Nat) : Except Fault Byte :=
  match s.mem.read (tblAddr w i) with
  | some b => .ok b
  | none => .error (.tableNoValue w i)

/-- Pix[k] as a command reads it; a word that holds no value is the model-only fault (R218). -/
def State.pixel (s : State) (k : Nat) : Except Fault Word :=
  match s.mem.readWord (pixAddr k) with
  | some p => .ok p
  | none => .error (.pixelNoValue k)

/-- V[w], the valid bit of table `w` (10_state.md R33). -/
def State.valid (s : State) (w : Nat) : Bool := s.tvalid.getLsbD w

/-- Bit `w` of a TVALID value set or cleared, no other bit changed. -/
def putBit (x : BitVec 8) (w : Nat) (v : Bool) : BitVec 8 :=
  if v then x ||| (1#8 <<< w) else x &&& ~~~(1#8 <<< w)

/-- V[w] ← v. -/
def State.setValid (s : State) (w : Nat) (v : Bool) : State :=
  { s with tvalid := putBit s.tvalid w v }

/-- If table `w` is a forward color table, its channel's inverse is no longer valid (20_memory.md R59,
40_table_generation.md R102). -/
def State.dropInverse (s : State) (w : Nat) : State :=
  { s with tvalid := if w < 3 then putBit s.tvalid (w + 4) false else s.tvalid }

/-- All 256 entries of table `w` at once (R64). -/
def State.storeTable (s : State) (w : Nat) (t : List Byte) : State :=
  { s with mem := s.mem.store (tblAddr w 0) t }

/-- Pix[k], Pix[k+1], … ← ps, at once (R64). -/
def State.storePixels (s : State) (k : Nat) (ps : List Word) : State :=
  { s with mem := s.mem.store (pixAddr k) (ps.flatMap wordBytes) }

/-- The new words of the `n` pixels from `k` up, each computed from the old word at its own index (41_pixel_correction.md
R135). With `n = 0` nothing is read (30_encoding.md R87, log entry 7). DESIGN CHOICE, safe (log entry 9): a pixel's word is
read before the table entries `f` reads for it, so where both hold no value the model-only fault (60_exceptions.md R218) names
the pixel; for SCALE and SCALEF this is so although R155 and R156 read DIM[LEVEL] and AUX[LEVEL] before any pixel. -/
def State.newPixels (s : State) (f : Word → Except Fault Word) : Nat → Nat → Except Fault (List Word)
  | _, 0 => .ok []
  | k, n + 1 => do
    let p ← s.pixel k
    let q ← f p
    let qs ← s.newPixels f (k + 1) n
    .ok (q :: qs)

/-- A range command over Pix[base .. base+count-1] (R82): every new word is computed first, then all are committed. -/
def State.mapPixels (s : State) (base count : Index) (f : Word → Except Fault Word) : Except Fault State := do
  let qs ← s.newPixels f base.toNat count.toNat
  .ok (s.storePixels base.toNat qs)

/-- GAMMA[t] (10_state.md R37). -/
def Gammas.get (g : Gammas) (t : Nat) : Word :=
  match t with
  | 0 => g.r
  | 1 => g.g
  | 2 => g.b
  | _ => g.dim

/-- GAMMA[t] ← v. -/
def Gammas.set (g : Gammas) (t : Nat) (v : Word) : Gammas :=
  match t with
  | 0 => { g with r := v }
  | 1 => { g with g := v }
  | 2 => { g with b := v }
  | _ => { g with dim := v }

/-- The field of channel `c` (00_scope.md R11). -/
def Rgb.get (x : Rgb) (c : Nat) : Byte :=
  match c with
  | 0 => x.r
  | 1 => x.g
  | _ => x.b

/-! ### Faults of the block -/

/-- Fault entry, `fault(w, cause)` of 60_exceptions.md R204. The model's run-wide mark is set with it (R219). -/
def State.raise (s : State) (w : Word) (c : Cause) : State :=
  { s with err := true, cause := c, drop := false, errInfo := w, errArg := s.arg, commandLost := true }

/-- The return from a fault: a STATUS write with bit 0 = 1 (R207). -/
def State.clearFault (s : State) : State :=
  { s with err := false, drop := false, cause := .none }

/-- A CMD write while ERR = 1 (R206). The model's run-wide mark is set with it (R219). -/
def State.dropCommand (s : State) : State :=
  { s with drop := true, commandLost := true }

/-- A command with word `w`: its checks in the order of R202, each a failing condition with its cause; the first that
fails is the fault. If none fails, `commit` computes the new state, or meets the model-only fault (R218). -/
def State.command (s : State) (w : Word) (checks : List (Bool × Cause)) (commit : State → Except Fault State) : Out :=
  match checks.find? (fun c => c.1) with
  | some c => .next (s.raise w c.2)
  | none =>
    match commit s with
    | .ok t => .next t
    | .error f => .fault f

/-! ### The host's record -/

/-- A transaction returns `r` (70_reset_and_hazards.md R241). -/
def State.respond (s : State) (r : Response) : State := { s with log := s.log ++ [r] }

/-- A write transaction completes with "ok" once its outcome is a next state. -/
def writeDone (o : Out) : Out :=
  match o with
  | .next s => .next (s.respond .ok)
  | .fault f => .fault f
  | .refused r => .refused r

/-- Reset (R230): every piece of the block's state takes the value of R231. What belongs to the run and not to the block
(the events still to come, the responses, the mark, the draws) stays (log entry 13). -/
def State.resetBlock (s : State) : State :=
  { State.resetWith s.npix with commandLost := s.commandLost, host := s.host, log := s.log, draws := s.draws }

/-- Place the write of command word `w` to CMD as the next host transaction, with ARG holding the operand word `a` and no
fault recorded, so that the next step runs the command (log entry 15). -/
def State.placeCommand (s : State) (w a : Word) : State :=
  { s.clearFault with arg := a, host := .write .word 0x0000#16 w :: s.host }

end Sys2Proof.Machine
end

