-- ==== Sys2Proof/Machine/Operands.lean ====
section
/-! DEFINITION. The fields of pixel words and of CC, and the per-channel functions (42_brightness_floor.md, 43_blend.md). -/

namespace Sys2Proof.Machine

/-- `chan(p, c)`, channel c of a pixel word (00_scope.md R10): p[23-8c : 16-8c]. -/
def chan (p : Word) (c : Nat) : Byte := p.extractLsb' (16 - 8 * c) 8

/-- `auxb(p)`, the auxiliary brightness byte (R10): p[31:24]. -/
def auxb (p : Word) : Byte := p.extractLsb' 24 8

/-- `pixel(a, r, g, b)` (R10): {a, r, g, b}. -/
def pixelWord (a r g b : Byte) : Word := a ++ r ++ g ++ b

/-- The pixel word with auxiliary byte `a` whose channel c is `f c`; the channels are computed in the order R, G, B. -/
def pixelOf (a : Byte) (f : Nat → Except Fault Byte) : Except Fault Word := do
  let r ← f 0
  let g ← f 1
  let b ← f 2
  .ok (pixelWord a r g b)

/-- The three factors of a CC value (10_state.md R32, 00_scope.md R11). -/
def rgbOfWord (v : Word) : Rgb := ⟨v.extractLsb' 16 8, v.extractLsb' 8 8, v.extractLsb' 0 8⟩

/-- CC or FLOOR as a register reads: bits 31:24 are 0 (R32, R34). -/
def wordOfRgb (x : Rgb) : Word := 0#8 ++ x.r ++ x.g ++ x.b

/-- `floorOf(f)` (42_brightness_floor.md R150): ceil(255 / f), and 1 for f = 0. -/
def floorOf (f : Byte) : Byte :=
  if f = 0#8 then 1#8 else BitVec.ofNat 8 ((255 + f.toNat - 1) / f.toNat)

/-- FLOOR as a function of CC (R151). -/
def floorsOf (cc : Rgb) : Rgb := ⟨floorOf cc.r, floorOf cc.g, floorOf cc.b⟩

/-- `scale8(v, f)` (R152): v * f / 255, rounded. -/
def scale8 (v f : Byte) : Byte := BitVec.ofNat 8 ((2 * v.toNat * f.toNat + 255) / 510)

/-- `guard(v, m)` (R154): a value that is nonzero and below the floor becomes the floor. -/
def floorGuard (v m : Byte) : Byte := if 0#8 < v ∧ v < m then m else v

/-- `lerp(la, lb, t)` (43_blend.md R180). -/
def lerp (la lb t : Byte) : Byte :=
  BitVec.ofNat 8 ((2 * (la.toNat * (255 - t.toNat) + lb.toNat * t.toNat) + 255) / 510)

/-- `auxOf(l)` (42_brightness_floor.md R153). At level 0 table AUX is not read. -/
def State.auxOf (s : State) (l : Byte) : Except Fault Byte :=
  if l = 0#8 then .ok 0#8
  else do
    let x ← s.entry 7 l.toNat
    .ok (if x = 0#8 then 1#8 else x)

end Sys2Proof.Machine
end

