-- ==== Sys2Proof/Machine/Flags.lean ====
section
/-! DEFINITION. STATUS as a register, and the conditions the checks of 60_exceptions.md R202 test. -/

namespace Sys2Proof.Machine

/-- The code of a cause (R201). -/
def Cause.code : Cause → BitVec 4
  | .none => 0#4
  | .illegalCmd => 1#4
  | .pixRange => 2#4
  | .badRange => 3#4
  | .badGamma => 4#4
  | .tableInvalid => 5#4

/-- STATUS as it reads (10_state.md R27): CAUSE in 11:8, DROP in bit 1, ERR in bit 0, the rest 0. -/
def State.statusWord (s : State) : Word :=
  0#20 ++ s.cause.code ++ 0#6 ++ BitVec.ofBool s.drop ++ BitVec.ofBool s.err

/-- CTRL.MODE as a bit (R30). -/
def Mode.bit : Mode → BitVec 1
  | .lookupTable => 0#1
  | .closedForm => 1#1

/-- The mode a bit stands for (R30). -/
def Mode.ofBit (b : Bool) : Mode := if b then .closedForm else .lookupTable

/-- Check 2 for format P (R202): BASE + COUNT > NPIX. -/
def State.rangePast (s : State) (base count : Index) : Bool := decide (s.npix < base.toNat + count.toNat)

/-- Check 2 for one index of BLEND (R202): it is NPIX or more. -/
def State.indexPast (s : State) (k : Index) : Bool := decide (s.npix ≤ k.toNat)

/-- Check 4 for gamma number `t` (R202). -/
def State.gammaBad (s : State) (t : Nat) : Bool := !gammaValid (s.gamma.get t)

/-- Check 5 (R202): the mask of the tables a command needs has a bit whose V is 0. -/
def State.tablesMissing (s : State) (mask : BitVec 8) : Bool := decide (s.tvalid &&& mask ≠ mask)

end Sys2Proof.Machine
end

