-- ==== Sys2Proof/Machine/Blend.lean ====
section
/-! DEFINITION. The blend command BLEND, with its in-place form BLENDI (43_blend.md). -/

namespace Sys2Proof.Machine

/-- One channel of BLEND (R181): to linear space by the inverse table, interpolate, back by the forward table. -/
def State.blendChannel (s : State) (amt : Byte) (pa pb : Word) (c : Nat) : Except Fault Byte := do
  let la ← s.entry (c + 4) (chan pa c).toNat
  let lb ← s.entry (c + 4) (chan pb c).toNat
  s.entry c (lerp la lb amt).toNat

/-- The word BLEND stores (R181); AUXB is pixel a's. -/
def State.blendPixels (s : State) (amt : Byte) (pa pb : Word) : Except Fault Word :=
  pixelOf (auxb pa) (s.blendChannel amt pa pb)

/-- BLEND (R181). Its indices A and B are those that decoding took from ARG (30_encoding.md R89, log entry 10). Both
inputs are read before the one write, so DST may equal A, B or both (R182). -/
def execBlend (dst a b : Index) (amt : Byte) (s : State) : Out :=
  s.command (encode (.blend dst a b amt))
    [(s.indexPast dst || s.indexPast a || s.indexPast b, .pixRange), (s.tablesMissing 0x77#8, .tableInvalid)]
    (fun s => do
      let pa ← s.pixel a.toNat
      let pb ← s.pixel b.toNat
      let q ← s.blendPixels amt pa pb
      .ok (s.storePixels dst.toNat [q]))

end Sys2Proof.Machine
end

