-- ==== Sys2Proof/Machine/Brightness.lean ====
section
/-! DEFINITION. The brightness commands SCALE, SCALEF and FLOORG (42_brightness_floor.md). -/

namespace Sys2Proof.Machine

/-- The new pixel word of SCALE (R155): channels scaled by DIM[LEVEL], AUXB from the level. The two entries
are read here, after the word `p` of the pixel. DESIGN CHOICE, safe (log entry 9): of entries that hold no value the model-only
fault (60_exceptions.md R218) names Pix[BASE] first, then DIM[LEVEL], then AUX[LEVEL]. -/
def State.scalePixel (s : State) (p : Word) : Except Fault Word := do
  let f ← s.entry 3 s.level.toNat
  let x ← s.auxOf s.level
  pixelOf x (fun c => .ok (scale8 (chan p c) f))

/-- The new pixel word of SCALEF (R156): as SCALE, each channel then guarded by its floor. The two entries are
read after the pixel's word, as in `State.scalePixel`. DESIGN CHOICE, safe (log entry 9). -/
def State.scaleGuardPixel (s : State) (p : Word) : Except Fault Word := do
  let f ← s.entry 3 s.level.toNat
  let x ← s.auxOf s.level
  pixelOf x (fun c => .ok (floorGuard (scale8 (chan p c) f) (s.floor.get c)))

/-- The new pixel word of FLOORG (R157): each channel guarded by its floor, AUXB copied. -/
def State.guardPixel (s : State) (p : Word) : Except Fault Word :=
  pixelOf (auxb p) (fun c => .ok (floorGuard (chan p c) (s.floor.get c)))

/-- SCALE (R155). -/
def execScale (base count : Index) (s : State) : Out :=
  s.command (encode (.scale base count))
    [(s.rangePast base count, .pixRange), (s.tablesMissing 0x88#8, .tableInvalid)]
    (fun s => s.mapPixels base count s.scalePixel)

/-- SCALEF (R156). -/
def execScalef (base count : Index) (s : State) : Out :=
  s.command (encode (.scalef base count))
    [(s.rangePast base count, .pixRange), (s.tablesMissing 0x88#8, .tableInvalid)]
    (fun s => s.mapPixels base count s.scaleGuardPixel)

/-- FLOORG (R157). -/
def execFloorg (base count : Index) (s : State) : Out :=
  s.command (encode (.floorg base count))
    [(s.rangePast base count, .pixRange)]
    (fun s => s.mapPixels base count s.guardPixel)

end Sys2Proof.Machine
end

