-- ==== Sys2Proof/Machine/Correction.lean ====
section
/-! DEFINITION. The pixel correction commands APPLYF and APPLYI (41_pixel_correction.md). -/

namespace Sys2Proof.Machine

/-- The forward correction of channel value `v` of channel `c` in the current mode (R130, R131). -/
def State.forwardChannel (s : State) (c : Nat) (v : Byte) : Except Fault Byte :=
  match s.mode with
  | .lookupTable => s.entry c v.toNat
  | .closedForm => .ok (closedForm v (s.gamma.get c))

/-- The new pixel word of APPLYF (R132); AUXB is copied. -/
def State.applyForward (s : State) (p : Word) : Except Fault Word :=
  pixelOf (auxb p) (fun c => s.forwardChannel c (chan p c))

/-- The new pixel word of APPLYI (R133); AUXB is copied. -/
def State.applyInverse (s : State) (p : Word) : Except Fault Word :=
  pixelOf (auxb p) (fun c => s.entry (c + 4) (chan p c).toNat)

/-- What APPLYF checks after its range, by mode (R132, R202). -/
def State.applyfCheck (s : State) : Bool × Cause :=
  match s.mode with
  | .lookupTable => (s.tablesMissing 0x07#8, .tableInvalid)
  | .closedForm => (s.gammaBad 0 || s.gammaBad 1 || s.gammaBad 2, .badGamma)

/-- APPLYF (R132). -/
def execApplyf (base count : Index) (s : State) : Out :=
  s.command (encode (.applyf base count))
    [(s.rangePast base count, .pixRange), s.applyfCheck]
    (fun s => s.mapPixels base count s.applyForward)

/-- APPLYI (R133). -/
def execApplyi (base count : Index) (s : State) : Out :=
  s.command (encode (.applyi base count))
    [(s.rangePast base count, .pixRange), (s.tablesMissing 0x70#8, .tableInvalid)]
    (fun s => s.mapPixels base count s.applyInverse)

end Sys2Proof.Machine
end

