-- ==== Sys2Proof/Machine/Tables.lean ====
section
/-! DEFINITION. The table commands BUILD and INVERT (40_table_generation.md). -/

namespace Sys2Proof.Machine

/-- BUILD (R102): table `tid` from GAMMA[tid]. -/
def execBuild (tid : Tid) (maxIn maxOut : Byte) (s : State) : Out :=
  s.command (encode (.build tid maxIn maxOut))
    [(maxIn == 0#8 || maxOut == 0#8, .badRange), (s.gammaBad tid.toNat, .badGamma)]
    (fun s =>
      .ok (((s.storeTable tid.toNat (gammaTable maxIn maxOut (s.gamma.get tid.toNat))).setValid tid.toNat true).dropInverse
        tid.toNat))

/-- What the inverse algorithm carries from one entry to the next (R106): the forward cursor, the previous target (none
before the first entry), and the previous entry. -/
structure Cursor where
  f : Nat
  prev : Option Nat
  entry : Nat
deriving DecidableEq, Repr

/-- The target of entry `i` (R106). -/
def invTarget (maxOut i : Nat) : Nat :=
  if 0 < i ∧ i * maxOut / 255 = 0 then 1 else i * maxOut / 255

/-- The distance |a - b|. -/
def distance (a b : Nat) : Nat := (a - b) + (b - a)

/-- The plateau walk (R106): from `f`, on while F[f] = F[f+1], at most `fuel` steps. -/
def plateauEnd (table : Nat → Except Fault Byte) : Nat → Nat → Except Fault Nat
  | 0, f => .ok f
  | fuel + 1, f => do
    let x ← table f
    let y ← table (f + 1)
    if x = y then plateauEnd table fuel (f + 1) else .ok f

/-- One pass of the loop of R106: entry `i` and the cursor after it. The forward entries are read as the algorithm comes
to them (log entry 8). -/
def invStep (table : Nat → Except Fault Byte) (maxOut i : Nat) (c : Cursor) : Except Fault Cursor :=
  let target := invTarget maxOut i
  if c.prev = some target then .ok c
  else if 255 ≤ c.f then .ok ⟨c.f, some target, 255⟩
  else do
    let x ← table c.f
    let y ← table (c.f + 1)
    if x = y then do
      let e ← plateauEnd table (255 - c.f) c.f
      .ok ⟨e + 1, some target, (c.f + e) / 2⟩
    else if x.toNat = target then .ok ⟨c.f + 1, some target, c.f⟩
    else if c.f = 0 then .ok ⟨c.f, some target, 0⟩
    else do
      let z ← table (c.f - 1)
      .ok ⟨c.f, some target, if distance target z.toNat ≤ distance x.toNat target then c.f - 1 else c.f⟩

/-- The entries from `i` up, `n` of them. -/
def invLoop (table : Nat → Except Fault Byte) (maxOut : Nat) : Nat → Nat → Cursor → Except Fault (List Byte)
  | 0, _, _ => .ok []
  | n + 1, i, c => do
    let c' ← invStep table maxOut i c
    let rest ← invLoop table maxOut n (i + 1) c'
    .ok (BitVec.ofNat 8 c'.entry :: rest)

/-- `invertTable(F, maxOut)` (R106). -/
def invertTable (table : Nat → Except Fault Byte) (maxOut : Nat) : Except Fault (List Byte) :=
  invLoop table maxOut 256 0 ⟨0, none, 0⟩

/-- INVERT (R105): table `tid + 4` from table `tid`. A term with TID 3 is no command (30_encoding.md R86, log entry 11). -/
def execInvert (tid : Tid) (maxOut : Byte) (s : State) : Out :=
  s.command (encode (.invert tid maxOut))
    [(tid == 3#2, .illegalCmd), (maxOut == 0#8, .badRange), (!s.valid tid.toNat, .tableInvalid)]
    (fun s => do
      let t ← invertTable (fun i => s.entry tid.toNat i) maxOut.toNat
      .ok ((s.storeTable (tid.toNat + 4) t).setValid (tid.toNat + 4) true))

end Sys2Proof.Machine
end

