-- ==== Sys2Proof/Machine/Dispatch.lean ====
section
/-! DEFINITION. One arm per command: each is one call of its meaning. -/

namespace Sys2Proof.Machine

def exec (i : Instr) (s : State) : Host.Outcome State Fault Refusal :=
  match i with
  | .build tid maxIn maxOut => Sys2Proof.Machine.execBuild tid maxIn maxOut s
  | .invert tid maxOut => Sys2Proof.Machine.execInvert tid maxOut s
  | .applyf base count => Sys2Proof.Machine.execApplyf base count s
  | .applyi base count => Sys2Proof.Machine.execApplyi base count s
  | .scale base count => Sys2Proof.Machine.execScale base count s
  | .scalef base count => Sys2Proof.Machine.execScalef base count s
  | .floorg base count => Sys2Proof.Machine.execFloorg base count s
  | .blend dst a b amt => Sys2Proof.Machine.execBlend dst a b amt s

end Sys2Proof.Machine
end

