-- ==== Sys2Proof/Machine/Bus.lean ====
section
/-! DEFINITION. Host transactions: the address map, reads, writes, the delivery of a command word (20_memory.md). -/

namespace Sys2Proof.Machine

/-- What a host address decodes to (R51, R52). -/
inductive Region where
  | cmd
  | arg
  | status
  | errInfo
  | errArg
  | ctrl
  | bright
  | cc
  | floor
  | tvalid
  | npix
  | gamma (t : Nat)
  | table (w j : Nat)
  | pixel (k : Nat)
  | reserved
deriving DecidableEq, Repr

/-- The registers by offset (10_state.md, register summary); offset 0x02C decodes to nothing (R52). -/
def registerAt (a : Nat) : Region :=
  if a = 0x000 then .cmd
  else if a = 0x004 then .arg
  else if a = 0x008 then .status
  else if a = 0x00C then .errInfo
  else if a = 0x010 then .errArg
  else if a = 0x014 then .ctrl
  else if a = 0x018 then .bright
  else if a = 0x01C then .cc
  else if a = 0x020 then .floor
  else if a = 0x024 then .tvalid
  else if a = 0x028 then .npix
  else if a = 0x030 then .gamma 0
  else if a = 0x034 then .gamma 1
  else if a = 0x038 then .gamma 2
  else if a = 0x03C then .gamma 3
  else .reserved

/-- The address map (R51) for a block with `npix` pixels, on an aligned address. -/
def region (npix a : Nat) : Region :=
  if a < 0x0040 then registerAt a
  else if a < 0x0400 then .reserved
  else if a < 0x0C00 then .table ((a - 0x0400) / 0x100) ((a - 0x0400) % 0x100 / 4)
  else if a < 0x4000 then .reserved
  else if a < 0x4000 + 4 * npix then .pixel ((a - 0x4000) / 4)
  else .reserved

/-- What an access of `size` at `addr` reaches: nothing unless it is 32 bits wide and aligned (R56). -/
def State.target (s : State) (size : Size) (addr : Addr) : Region :=
  if size = .word ∧ addr.extractLsb' 0 2 = 0#2 then region s.npix addr.toNat else .reserved

/-! ### Reads (R54) -/

/-- The byte at `a`, or the byte `b` of the free value `v` where `a` holds no value (10_state.md R39). -/
def Memory.readOr (m : Memory) (a : Nat) (v : Word) (b : Nat) : Byte :=
  (m.read a).getD (v.extractLsb' (8 * b) 8)

/-- The word a host read of a window returns: the word stored at `a`, each byte that holds no value taken from the next
free value (R54, R61, R39). -/
def State.windowWord (s : State) (a : Nat) : Word :=
  let v := Config.freeWord s.draws
  wordOfBytes (s.mem.readOr a v 0) (s.mem.readOr (a + 1) v 1) (s.mem.readOr (a + 2) v 2) (s.mem.readOr (a + 3) v 3)

/-- A host read of the window word at `a`. Only a read that meets a byte without a value draws a free value. -/
def State.readWindow (s : State) (a : Nat) : State :=
  match s.mem.readWord a with
  | some v => s.respond (.value v)
  | none => { s.respond (.value (s.windowWord a)) with draws := s.draws + 1 }

/-- Host read (R54). -/
def State.hostRead (s : State) (size : Size) (addr : Addr) : State :=
  match s.target size addr with
  | .cmd => s.respond (.value 0#32)
  | .arg => s.respond (.value s.arg)
  | .status => s.respond (.value s.statusWord)
  | .errInfo => s.respond (.value s.errInfo)
  | .errArg => s.respond (.value s.errArg)
  | .ctrl => s.respond (.value (0#31 ++ s.mode.bit))
  | .bright => s.respond (.value (0#24 ++ s.level))
  | .cc => s.respond (.value (wordOfRgb s.cc))
  | .floor => s.respond (.value (wordOfRgb s.floor))
  | .tvalid => s.respond (.value (0#24 ++ s.tvalid))
  | .npix => s.respond (.value (0#19 ++ BitVec.ofNat 13 s.npix))
  | .gamma t => s.respond (.value (s.gamma.get t))
  | .table w j => s.readWindow (tblAddr w (4 * j))
  | .pixel k => s.readWindow (pixAddr k)
  | .reserved => s.respond .busError

/-! ### Writes (R55) -/

/-- A write to CC also recomputes FLOOR (42_brightness_floor.md R151). -/
def State.writeCc (s : State) (v : Word) : State :=
  { s with cc := rgbOfWord v, floor := floorsOf (rgbOfWord v) }

/-- A write to STATUS: with bit 0 = 1 it clears the fault, else it changes nothing (10_state.md R27). -/
def State.writeStatus (s : State) (v : Word) : State :=
  if v.getLsbD 0 then s.clearFault else s

/-- A write to word `j` of table window `w`: four entries, and the valid bits of R59. -/
def State.writeTable (s : State) (w j : Nat) (v : Word) : State :=
  (State.dropInverse ({ s with mem := s.mem.store (tblAddr w (4 * j)) (wordBytes v) }.setValid w false) w)

/-- Command word `w` reaches the engine (60_exceptions.md R200): dropped, illegal, or run. -/
def State.onCmdWrite (s : State) (w : Word) : Out :=
  if s.err then .next s.dropCommand
  else
    match decode w s.arg with
    | .error _ => .next (s.raise w .illegalCmd)
    | .ok i => exec i s

/-- Host write (R55). Writes to the read-only registers complete and change nothing (10_state.md R24). -/
def State.hostWrite (s : State) (size : Size) (addr : Addr) (v : Word) : Out :=
  match s.target size addr with
  | .cmd => writeDone (s.onCmdWrite v)
  | .arg => .next ({ s with arg := v }.respond .ok)
  | .status => .next ((s.writeStatus v).respond .ok)
  | .errInfo => .next (s.respond .ok)
  | .errArg => .next (s.respond .ok)
  | .ctrl => .next ({ s with mode := Mode.ofBit (v.getLsbD 0) }.respond .ok)
  | .bright => .next ({ s with level := v.extractLsb' 0 8 }.respond .ok)
  | .cc => .next ((s.writeCc v).respond .ok)
  | .floor => .next (s.respond .ok)
  | .tvalid => .next ({ s with tvalid := v.extractLsb' 0 8 }.respond .ok)
  | .npix => .next (s.respond .ok)
  | .gamma t => .next ({ s with gamma := s.gamma.set t v }.respond .ok)
  | .table w j => .next ((s.writeTable w j v).respond .ok)
  | .pixel k => .next ((s.storePixels k [v]).respond .ok)
  | .reserved => .next (s.respond .busError)

/-! ### One event -/

/-- The block meets one event from outside. -/
def State.onEvent (s : State) (e : HostEvent) : Out :=
  match e with
  | .read size addr => .next (s.hostRead size addr)
  | .write size addr v => s.hostWrite size addr v
  | .rst => .next s.resetBlock

/-- One step: the next event of the host's list, a CMD write with its whole command included (20_memory.md R72,
70_reset_and_hazards.md R241). With no event left the block is idle and keeps its state (R216, log entry 3). -/
def State.hostStep (s : State) : Out :=
  match s.host with
  | [] => .next s
  | e :: rest => { s with host := rest }.onEvent e

end Sys2Proof.Machine
end

