-- ==== Sys2Proof/Machine/Step.lean ====
section
/-! DEFINITION. One step of the machine, and how a command is placed so that the next step runs it. -/

namespace Sys2Proof.Machine

/-- One step: the next host transaction with everything it does. -/
def step (s : State) : Host.Outcome State Fault Refusal := s.hostStep

/-- `s` with the command of the table word `w` placed as its next host transaction (log entries 2, 15). -/
def State.withFetchWord (s : State) (nbits w : Nat) : State :=
  s.placeCommand (tableCommand nbits w) (tableOperand nbits w)

end Sys2Proof.Machine
end

