-- ==== Sys2Proof/Safety.lean ====
section
/-! DEFINITION. What counts as a good state, a safe run and a filled table, in the terms claims use. -/

namespace Sys2Proof.Machine

/-- A host address that belongs to a table window or to the pixel window (20_memory.md R51). -/
def mapped (npix a : Nat) : Prop :=
  (0x0400 ≤ a ∧ a < 0x0C00) ∨ (0x4000 ≤ a ∧ a < 0x4000 + 4 * npix)

/-- What every step keeps: memory in canonical form and inside the windows, a pixel word written whole or not at all, NPIX
in its range (R7), FLOOR the function of CC (R34, R151), STATUS clear when ERR = 0 (R27, R201), and a fault recorded with
a cause (R204) and the run-wide mark (R219). -/
structure State.Inv (s : State) : Prop where
  wf : s.mem.wf
  inWindows : ∀ c ∈ s.mem, mapped s.npix c.1
  whole : ∀ k j, j < 4 → s.mem.readWord (pixAddr k) = none → s.mem.read (pixAddr k + j) = none
  npixRange : 1 ≤ s.npix ∧ s.npix ≤ 4096
  floorOfCc : s.floor = floorsOf s.cc
  clear : s.err = false → s.drop = false ∧ s.cause = .none
  faulted : s.err = true → s.cause ≠ .none ∧ s.commandLost = true

/-- Every entry of table `w` holds a value (10_state.md R39). -/
def State.Filled (s : State) (w : Nat) : Prop := ∀ i, i < 256 → (s.mem.read (tblAddr w i)).isSome

/-- Every pixel of the range holds a value (R39). -/
def State.PixelsFilled (s : State) (base count : Nat) : Prop :=
  ∀ k, base ≤ k → k < base + count → (s.mem.readWord (pixAddr k)).isSome

/-- The premise of 70_reset_and_hazards.md R242: no fault recorded, nothing dropped, the run-wide mark clear. -/
def State.CleanEntry (s : State) : Prop :=
  s.err = false ∧ s.drop = false ∧ s.cause = .none ∧ s.commandLost = false

/-- A safe run: every command so far completed (60_exceptions.md R219, "mark clear"). -/
def State.EveryCommandRan (s : State) : Prop := s.commandLost = false

end Sys2Proof.Machine
end

