-- ==== Sys2Proof/Certificates/Slice0/Obligations.lean ====
section
/-! DEFINITION. The statements for the provers, from the numbered rules of spec/, and the words they are said in. -/

namespace Sys2Proof.Claim

open Sys2Proof.Machine

/-! ### The spec's mathematics -/

/-- `round_half_up(v)` of 00_scope.md R9, over the reals. -/
noncomputable def roundHalfUp (v : ℝ) : Nat := ⌊v + 1 / 2⌋₊

/-- `gammaEntry(i, maxIn, maxOut, g)` of 40_table_generation.md R101, over the reals. -/
noncomputable def realEntry (i maxIn maxOut : Nat) (g : ℝ) : Nat :=
  if maxIn ≤ i then maxOut
  else if 0 < i ∧ roundHalfUp (((i : ℝ) / maxIn) ^ g * maxOut) = 0 then 1
  else roundHalfUp (((i : ℝ) / maxIn) ^ g * maxOut)

/-- The real value of gamma register `t`. -/
noncomputable def gammaReal (s : State) (t : Nat) : ℝ := ((f32val (s.gamma.get t) : ℚ) : ℝ)

/-- "finite and positive", as the three conditions on the pattern of R100. -/
def positiveFinite (b : Word) : Bool :=
  b.extractLsb' 31 1 == 0#1 && b.extractLsb' 23 8 != 0xFF#8 && b.extractLsb' 0 31 != 0#31

/-! ### Faults: the check list of 60_exceptions.md R202, in its own order -/

/-- Check 2. -/
def pixRangeFails (i : Instr) (s : State) : Bool :=
  match i with
  | .applyf base count => decide (s.npix < base.toNat + count.toNat)
  | .applyi base count => decide (s.npix < base.toNat + count.toNat)
  | .scale base count => decide (s.npix < base.toNat + count.toNat)
  | .scalef base count => decide (s.npix < base.toNat + count.toNat)
  | .floorg base count => decide (s.npix < base.toNat + count.toNat)
  | .blend dst a b _ => decide (s.npix ≤ dst.toNat ∨ s.npix ≤ a.toNat ∨ s.npix ≤ b.toNat)
  | _ => false

/-- Check 3. -/
def badRangeFails (i : Instr) : Bool :=
  match i with
  | .build _ maxIn maxOut => decide (maxIn = 0#8 ∨ maxOut = 0#8)
  | .invert _ maxOut => decide (maxOut = 0#8)
  | _ => false

/-- The gamma registers a command needs. -/
def gammasNeeded (i : Instr) (s : State) : List Nat :=
  match i with
  | .build tid _ _ => [tid.toNat]
  | .applyf _ _ => if s.mode = .closedForm then [0, 1, 2] else []
  | _ => []

/-- The tables a command needs published. -/
def tablesNeeded (i : Instr) (s : State) : List Nat :=
  match i with
  | .build _ _ _ => []
  | .invert tid _ => [tid.toNat]
  | .applyf _ _ => if s.mode = .lookupTable then [0, 1, 2] else []
  | .applyi _ _ => [4, 5, 6]
  | .scale _ _ => [3, 7]
  | .scalef _ _ => [3, 7]
  | .floorg _ _ => []
  | .blend _ _ _ _ => [0, 1, 2, 4, 5, 6]

/-- The cause of the first check that fails, in the order ILLEGAL_CMD, PIX_RANGE, BAD_RANGE, BAD_GAMMA, TABLE_INVALID. -/
def firstFailure (i : Instr) (s : State) : Option Cause :=
  if i.wf = false then some .illegalCmd
  else if pixRangeFails i s then some .pixRange
  else if badRangeFails i then some .badRange
  else if (gammasNeeded i s).any (fun t => !positiveFinite (s.gamma.get t)) then some .badGamma
  else if (tablesNeeded i s).any (fun w => !s.valid w) then some .tableInvalid
  else none

/-- The row of a well-formed command in the table of 60_exceptions.md R203. -/
def causesOf (i : Instr) (m : Mode) : List Cause :=
  match i with
  | .build _ _ _ => [.badRange, .badGamma]
  | .invert _ _ => [.badRange, .tableInvalid]
  | .applyf _ _ => if m = .closedForm then [.pixRange, .badGamma] else [.pixRange, .tableInvalid]
  | .applyi _ _ => [.pixRange, .tableInvalid]
  | .scale _ _ => [.pixRange, .tableInvalid]
  | .scalef _ _ => [.pixRange, .tableInvalid]
  | .floorg _ _ => [.pixRange]
  | .blend _ _ _ _ => [.pixRange, .tableInvalid]

/-- Fault entry of R204 for the command word `w`, with the run-wide mark of R219; nothing else changes. -/
def recordFault (s : State) (w : Word) (c : Cause) : State :=
  { s with err := true, cause := c, drop := false, errInfo := w, errArg := s.arg, commandLost := true }

/-- Fault entry for the command `i`. -/
def faultState (s : State) (i : Instr) (c : Cause) : State := recordFault s (encode i) c

/-! ### Range commands -/

/-- From `s` to `t` a range command over `count` pixels from `base` is done: each of these pixels that held `p` holds a word
that `new` relates to `p`, and no other byte of memory and no field of the state but memory changed. -/
def RangeDone (s t : State) (base count : Index) (new : Word → Word → Prop) : Prop :=
  t = { s with mem := t.mem } ∧
    (∀ a, a < pixAddr base.toNat ∨ pixAddr (base.toNat + count.toNat) ≤ a → t.mem.read a = s.mem.read a) ∧
    ∀ k p, base.toNat ≤ k → k < base.toNat + count.toNat → s.mem.readWord (pixAddr k) = some p →
      ∃ q, t.mem.readWord (pixAddr k) = some q ∧ new p q

/-- Every entry that the pixels of the range index holds a value: channel c indexes table `w c`. -/
def EntriesFilled (s : State) (base count : Index) (w : Nat → Nat) : Prop :=
  ∀ k p, base.toNat ≤ k → k < base.toNat + count.toNat → s.mem.readWord (pixAddr k) = some p →
    ∀ c, c < 3 → (s.mem.read (tblAddr (w c) (chan p c).toNat)).isSome

/-- The state after a host write has completed with "ok" and left `s` (whose list still held the write). -/
def afterWrite (s : State) (rest : List HostEvent) : State :=
  { s with host := rest, log := s.log ++ [.ok] }

/-- An access that is a bus error (20_memory.md R51, R52, R56, R57), on a block with `npix` pixels. -/
def busErrorAccess (npix : Nat) (size : Size) (a : Nat) : Prop :=
  size ≠ .word ∨ a % 4 ≠ 0 ∨ a = 0x002C ∨ (0x0040 ≤ a ∧ a < 0x0400) ∨ (0x0C00 ≤ a ∧ a < 0x4000) ∨ 0x4000 + 4 * npix ≤ a

/-- One pass of the algorithm of 40_table_generation.md R106 for entry `i` of the inverse of `F`: the cursor goes from `f i`
to `f (i + 1)`, and the entry is `e i`. -/
def InverseEntry (F : Nat → Nat) (maxOut : Nat) (f e : Nat → Nat) (i : Nat) : Prop :=
  let target := fun j => if 0 < j ∧ j * maxOut / 255 = 0 then 1 else j * maxOut / 255
  if 0 < i ∧ target i = target (i - 1) then e i = e (i - 1) ∧ f (i + 1) = f i
  else if 255 ≤ f i then e i = 255 ∧ f (i + 1) = f i
  else if F (f i) = F (f i + 1) then
    ∃ last, f i < last ∧ last ≤ 255 ∧ (∀ j, f i ≤ j → j < last → F j = F (j + 1)) ∧ (last = 255 ∨ F last ≠ F (last + 1)) ∧
      e i = (f i + last) / 2 ∧ f (i + 1) = last + 1
  else if F (f i) = target i then e i = f i ∧ f (i + 1) = f i + 1
  else f (i + 1) = f i ∧
    e i = if f i = 0 then 0
      else if |(target i : ℤ) - F (f i - 1)| ≤ |(F (f i) : ℤ) - target i| then f i - 1 else f i

/-! ### What a command reads -/

/-- Entry `i` of table `w` holds a value (10_state.md R39). -/
def EntryHeld (s : State) (w i : Nat) : Prop := (s.mem.read (tblAddr w i)).isSome

/-- Entry `i` of table `w` as a number, 0 where it holds no value. -/
def entryNat (s : State) (w i : Nat) : Nat :=
  match s.mem.read (tblAddr w i) with
  | some b => b.toNat
  | none => 0

/-- The forward entries that the pass of 40_table_generation.md R106 for entry `i` reads, its cursor going from `f i` to
`f (i + 1)`, hold values: none on a copy or past the end, else `F[f]` and `F[f+1]`; then the plateau and the entry after it, or
`F[f-1]` in a gap. -/
def InverseReads (s : State) (w maxOut : Nat) (f : Nat → Nat) (i : Nat) : Prop :=
  let target := fun j => if 0 < j ∧ j * maxOut / 255 = 0 then 1 else j * maxOut / 255
  (0 < i ∧ target i = target (i - 1)) ∨ 255 ≤ f i ∨
    (EntryHeld s w (f i) ∧ EntryHeld s w (f i + 1) ∧
      if entryNat s w (f i) = entryNat s w (f i + 1) then ∀ j, f i ≤ j → j ≤ f (i + 1) → j < 256 → EntryHeld s w j
      else entryNat s w (f i) = target i ∨ f i = 0 ∨ EntryHeld s w (f i - 1))

/-- Every pixel of the range holds a value, and its word `p` has what `need p` says. -/
def RangeHeld (s : State) (base count : Index) (need : Word → Prop) : Prop :=
  ∀ k, base.toNat ≤ k → k < base.toNat + count.toNat → ∃ p, s.mem.readWord (pixAddr k) = some p ∧ need p

/-- DIM[LEVEL] holds a value, and AUX[LEVEL] does where R153 reads it. -/
def LevelHeld (s : State) : Prop :=
  EntryHeld s 3 s.level.toNat ∧ (s.level ≠ 0#8 → EntryHeld s 7 s.level.toNat)

/-- Every table entry and pixel word that the command reads once its checks have passed holds a value. BUILD reads none, and a
range command with COUNT = 0 reads none (log entry 7). INVERT reads the entries its algorithm comes to (log entry 8). -/
def OperandsHeld (i : Instr) (s : State) : Prop :=
  match i with
  | .build _ _ _ => True
  | .invert tid maxOut =>
    ∃ f e : Nat → Nat, f 0 = 0 ∧ ∀ j, j < 256 →
      InverseEntry (entryNat s tid.toNat) maxOut.toNat f e j ∧ InverseReads s tid.toNat maxOut.toNat f j
  | .applyf base count =>
    RangeHeld s base count (fun p => s.mode = .lookupTable → ∀ c, c < 3 → EntryHeld s c (chan p c).toNat)
  | .applyi base count => RangeHeld s base count (fun p => ∀ c, c < 3 → EntryHeld s (c + 4) (chan p c).toNat)
  | .scale base count => RangeHeld s base count (fun _ => LevelHeld s)
  | .scalef base count => RangeHeld s base count (fun _ => LevelHeld s)
  | .floorg base count => RangeHeld s base count (fun _ => True)
  | .blend _ a b amt =>
    ∃ pa pb, s.mem.readWord (pixAddr a.toNat) = some pa ∧ s.mem.readWord (pixAddr b.toNat) = some pb ∧
      ∀ c, c < 3 → ∃ la lb, s.mem.read (tblAddr (c + 4) (chan pa c).toNat) = some la ∧
        s.mem.read (tblAddr (c + 4) (chan pb c).toNat) = some lb ∧ EntryHeld s c (lerp la lb amt).toNat

end Sys2Proof.Claim

open Sys2Proof Sys2Proof.Machine Sys2Proof.Claim

/-! ### Encoding -/

/-- R89 with R81 to R83: the encoding of every well-formed command decodes to it, whatever ARG holds for a command that has
no operand word. -/
def Obligations.DecodeOfEncode : Prop :=
  ∀ (i : Instr) (arg : Word), i.wf = true → (∀ o, operandWord i = some o → arg = o) → decode (encode i) arg = .ok i

/-- The other direction: a word that decodes is the encoding of what it decodes to, and ARG holds its operand word. -/
def Obligations.EncodeOfDecode : Prop :=
  ∀ (w arg : Word) (i : Instr), decode w arg = .ok i →
    i.wf = true ∧ encode i = w ∧ ∀ o, operandWord i = some o → arg = o

/-- R86: which words are illegal, and what delivering one does. -/
def Obligations.IllegalWordsFault : Prop :=
  (∀ w arg : Word, (∃ e, decode w arg = .error e) ↔
    (w.extractLsb' 24 8 ∉ [0x01#8, 0x02#8, 0x10#8, 0x11#8, 0x20#8, 0x21#8, 0x22#8, 0x30#8]) ∨
    (w.extractLsb' 24 8 = 0x01#8 ∧ w.extractLsb' 18 6 ≠ 0#6) ∨
    (w.extractLsb' 24 8 = 0x02#8 ∧ (w.extractLsb' 18 6 ≠ 0#6 ∨ w.extractLsb' 8 8 ≠ 0#8 ∨ w.extractLsb' 16 2 = 3#2)) ∨
    (w.extractLsb' 24 8 = 0x30#8 ∧ (w.extractLsb' 12 4 ≠ 0#4 ∨ arg.extractLsb' 24 8 ≠ 0#8))) ∧
  ∀ (s : State) (w : Word) (e : Illegal), s.err = false → decode w s.arg = .error e →
    s.onCmdWrite w = .next (recordFault s w .illegalCmd)

/-- One word of each family, written out from R81 to R83 and the vectors of 95_test_vectors.md. -/
def Obligations.SampleWordsDecode : Prop :=
  decode 0x0100FFFF#32 0#32 = .ok (.build 0#2 255#8 255#8) ∧ decode 0x01000406#32 0#32 = .ok (.build 0#2 4#8 6#8) ∧
  decode 0x020200FF#32 0#32 = .ok (.invert 2#2 255#8) ∧ decode 0x10001010#32 0#32 = .ok (.applyf 1#12 16#12) ∧
  decode 0x11FFF001#32 0#32 = .ok (.applyi 0xFFF#12 1#12) ∧ decode 0x20004001#32 0#32 = .ok (.scale 4#12 1#12) ∧
  decode 0x21008001#32 0#32 = .ok (.scalef 8#12 1#12) ∧ decode 0x22009003#32 0#32 = .ok (.floorg 9#12 3#12) ∧
  decode 0x30800002#32 0x00005006#32 = .ok (.blend 2#12 5#12 6#12 0x80#8)

/-! ### Reset and the step -/

/-- R231: the reset state, for every NPIX, and what the host reads right after reset. A window read is some value (R39). -/
def Obligations.ResetState : Prop :=
  ∀ n, let s := State.resetWith n
    (s.arg = 0#32 ∧ s.err = false ∧ s.drop = false ∧ s.cause = .none ∧ s.errInfo = 0#32 ∧ s.errArg = 0#32 ∧
      s.mode = .lookupTable ∧ s.level = 0xFF#8 ∧ s.cc = ⟨0xFF#8, 0xFF#8, 0xFF#8⟩ ∧ s.floor = ⟨1#8, 1#8, 1#8⟩ ∧
      s.tvalid = 0#8 ∧ s.gamma = ⟨0#32, 0#32, 0#32, 0#32⟩ ∧ (∀ a, s.mem.read a = none) ∧ s.npix = n) ∧
    (∀ a ∈ [0x000#16, 0x004#16, 0x008#16, 0x00C#16, 0x010#16, 0x014#16, 0x024#16, 0x030#16, 0x034#16, 0x038#16, 0x03C#16],
      (s.hostRead .word a).log = [.value 0#32]) ∧
    (s.hostRead .word 0x018#16).log = [.value 0x000000FF#32] ∧ (s.hostRead .word 0x01C#16).log = [.value 0x00FFFFFF#32] ∧
    (s.hostRead .word 0x020#16).log = [.value 0x00010101#32] ∧
    (n ≤ 4096 → (s.hostRead .word 0x028#16).log = [.value (BitVec.ofNat 32 n)]) ∧
    (∀ a : Addr, a.toNat % 4 = 0 → (0x0400 ≤ a.toNat ∧ a.toNat < 0x0C00) ∨ (0x4000 ≤ a.toNat ∧ a.toNat < 0x4000 + 4 * n) →
      ∃ v, (s.hostRead .word a).log = [.value v])

/-- The state after reset satisfies the invariant. Its NPIX, 16, is the model's choice (log entry 1). -/
def Obligations.ResetKeepsInvariant : Prop := State.reset.Inv

/-- Every step keeps the invariant: memory in canonical form and inside the windows, pixel words whole, NPIX in range, FLOOR
the function of CC, STATUS clear when ERR = 0, a recorded fault with its cause. -/
def Obligations.StepKeepsInvariant : Prop := ∀ s t : State, s.Inv → step s = .next t → t.Inv

/-- R200, R72: a CMD write whose word decodes, with no fault recorded, is `exec` of the decoded command; the write is taken
off the host's list before and completes with "ok" after, in the same step. -/
def Obligations.StepRunsDecodedCommand : Prop :=
  ∀ (s : State) (w : Word) (rest : List HostEvent) (i : Instr),
    s.host = .write .word 0x0000#16 w :: rest → s.err = false → decode w s.arg = .ok i →
      step s = match exec i { s with host := rest } with
        | .next t => .next { t with log := t.log ++ [.ok] }
        | .fault f => .fault f
        | .refused r => .refused r

/-- R230: a reset gives the block the state of R231. The model's own record (the events to come, the responses, the mark, the
draws; log entry 13) stays. -/
def Obligations.ResetEventRestoresResetState : Prop :=
  ∀ (s : State) (rest : List HostEvent), s.host = .rst :: rest →
    step s = .next
      { State.resetWith s.npix with
        commandLost := s.commandLost
        host := rest
        log := s.log
        draws := s.draws }

/-- R241: a run of as many steps as the host's list is long uses up the list, and each transaction returned one response.
The model's choice, and no rule of the spec, is all this says of a list that holds a reset: R241's list has writes and reads
only, and R243 leaves open what a reset during the run does. That a reset is one step, returns no response and keeps the
responses before it is log entry 13. That the list goes on after a bus error, which R243 leaves open too, is log entry 2. -/
def Obligations.RunUsesEachTransactionOnce : Prop :=
  ∀ s t : State, Sys2Proof.core.run s.host.length s = .next t →
    t.host = [] ∧ t.log.length = s.log.length + (s.host.filter (fun e => e != .rst)).length

/-- R218, R219: nothing is refused; a step stops only where a command read an entry or a pixel that holds no value; and a
command whose checks have passed stops just where an entry or a pixel that it reads holds no value, and completes just where
all of them hold one: it never draws a value and goes on. What a command reads rests on log entries 7 and 8. -/
def Obligations.OnlyModelFaultStops : Prop :=
  (∀ s : State,
    (∀ r, step s ≠ .refused r) ∧
    (∀ w i, step s = .fault (.tableNoValue w i) → w < 8 ∧ i < 256 ∧ s.mem.read (tblAddr w i) = none) ∧
    (∀ k, step s = .fault (.pixelNoValue k) → s.mem.readWord (pixAddr k) = none)) ∧
  ∀ (i : Instr) (s : State), firstFailure i s = none →
    ((∃ t, exec i s = .next t) ↔ OperandsHeld i s) ∧ ((∃ r, exec i s = .fault r) ↔ ¬ OperandsHeld i s)

/-- R219: the run-wide mark (log entry 14). No step clears it, and a step sets it exactly when it delivers a command that is
dropped, is illegal or faults. That a reset event keeps it too is the model's choice (log entry 13). -/
def Obligations.MarkRecordsLostCommands : Prop :=
  ∀ s t : State, step s = .next t →
    (s.commandLost = true → t.commandLost = true) ∧
    (s.commandLost = false → (t.commandLost = true ↔
      ∃ w rest, s.host = .write .word 0x0000#16 w :: rest ∧
        (s.err = true ∨ (∃ e, decode w s.arg = .error e) ∨
          ∃ i c, decode w s.arg = .ok i ∧ firstFailure i { s with host := rest } = some c)))

/-! ### Faults of the block -/

/-- R202, R204: the first failing check of the list is the fault, it records its cause, the command word and ARG, and
nothing else changes (the model's run-wide mark of R219 is set with it). With no failing check no fault is recorded. -/
def Obligations.FirstFailingCheckFaults : Prop :=
  (∀ (s : State) (w : Word) (e : Illegal), s.err = false → decode w s.arg = .error e →
    s.onCmdWrite w = .next (recordFault s w .illegalCmd)) ∧
  ∀ (i : Instr) (s : State),
    (∀ c, firstFailure i s = some c → exec i s = .next (faultState s i c)) ∧
    (firstFailure i s = none →
      (∃ t, exec i s = .next t ∧ t.err = s.err ∧ t.drop = s.drop ∧ t.cause = s.cause ∧ t.errInfo = s.errInfo ∧
        t.errArg = s.errArg ∧ t.commandLost = s.commandLost) ∨
      ∃ f, exec i s = .fault f)

/-- R203: which causes each command can record, and that memory (pixels and tables) decides none of them. -/
def Obligations.CausesByCommand : Prop :=
  ∀ (i : Instr) (s : State), i.wf = true →
    (∀ t, s.err = false → exec i s = .next t → t.err = true → t.cause ∈ causesOf i s.mode) ∧
    ∀ (m : Memory) (c : Cause), exec i s = .next (faultState s i c) → s.err = false →
      exec i { s with mem := m } = .next (faultState { s with mem := m } i c)

/-- R206: while ERR = 1 a CMD write of any word sets DROP (and the run-wide mark) and does nothing else. -/
def Obligations.CommandsDropWhileErr : Prop :=
  ∀ (s : State) (w : Word) (rest : List HostEvent), s.err = true → s.host = .write .word 0x0000#16 w :: rest →
    step s = .next { s with drop := true, commandLost := true, host := rest, log := s.log ++ [.ok] }

/-- R207: a STATUS write with bit 0 = 1 clears ERR, DROP and CAUSE and keeps the rest, so the next command runs; with bit 0
= 0 it changes nothing. -/
def Obligations.StatusWriteClearsFault : Prop :=
  ∀ (s : State) (v : Word) (rest : List HostEvent), s.host = .write .word 0x0008#16 v :: rest →
    step s = .next (afterWrite (if v.getLsbD 0 then { s with err := false, drop := false, cause := .none } else s) rest)

/-- R100: which gamma patterns are valid: the finite and positive ones. -/
def Obligations.GammaValidIsPositiveFinite : Prop :=
  (∀ b : Word, gammaValid b = true ↔ (b.extractLsb' 31 1 = 0#1 ∧ b.extractLsb' 23 8 ≠ 0xFF#8 ∧ b.extractLsb' 0 31 ≠ 0#31)) ∧
  (∀ b : Word, gammaValid b = true ↔ (b.extractLsb' 23 8 ≠ 0xFF#8 ∧ 0 < f32val b)) ∧
  (∀ b : Word, gammaValid b = true → f32val 0x00000001#32 ≤ f32val b ∧ f32val b ≤ f32val 0x7F7FFFFF#32) ∧
  f32val 0x00000001#32 = 1 / 2 ^ 149 ∧ f32val 0x7F7FFFFF#32 = (2 - 1 / 2 ^ 23) * 2 ^ 127 ∧
  ∀ (i : Instr) (s : State) (t : Nat), i.wf = true → pixRangeFails i s = false → badRangeFails i = false →
    t ∈ gammasNeeded i s → gammaValid (s.gamma.get t) = false → exec i s = .next (faultState s i .badGamma)

/-! ### Host transactions -/

/-- R57, R210: a bad access completes with a bus error and changes no state of the block. -/
def Obligations.BusErrorChangesNothing : Prop :=
  ∀ (s : State) (size : Size) (addr : Addr) (rest : List HostEvent), busErrorAccess s.npix size addr.toNat →
    (s.host = .read size addr :: rest → step s = .next { s with host := rest, log := s.log ++ [.busError] }) ∧
    ∀ v, s.host = .write size addr v :: rest → step s = .next { s with host := rest, log := s.log ++ [.busError] }

/-- R54: what a host read returns for every register, table word and pixel word, and that it changes nothing else (an
entry that holds no value yields some value, and then the model counts the draw). -/
def Obligations.HostReadReturns : Prop :=
  ∀ (s : State) (addr : Addr) (rest : List HostEvent), ¬ busErrorAccess s.npix .word addr.toNat →
    s.host = .read .word addr :: rest →
      ∃ t v, step s = .next t ∧ t = { s with host := rest, log := s.log ++ [.value v], draws := t.draws } ∧
        (addr = 0x000#16 → v = 0#32) ∧ (addr = 0x004#16 → v = s.arg) ∧ (addr = 0x008#16 → v = s.statusWord) ∧
        (addr = 0x00C#16 → v = s.errInfo) ∧ (addr = 0x010#16 → v = s.errArg) ∧
        (addr = 0x014#16 → v = if s.mode = .closedForm then 1#32 else 0#32) ∧
        (addr = 0x018#16 → v.toNat = s.level.toNat) ∧
        (addr = 0x01C#16 → v.toNat = s.cc.r.toNat * 2 ^ 16 + s.cc.g.toNat * 2 ^ 8 + s.cc.b.toNat) ∧
        (addr = 0x020#16 → v.toNat = s.floor.r.toNat * 2 ^ 16 + s.floor.g.toNat * 2 ^ 8 + s.floor.b.toNat) ∧
        (addr = 0x024#16 → v.toNat = s.tvalid.toNat) ∧ (addr = 0x028#16 → s.npix ≤ 4096 → v.toNat = s.npix) ∧
        (addr = 0x030#16 → v = s.gamma.r) ∧ (addr = 0x034#16 → v = s.gamma.g) ∧ (addr = 0x038#16 → v = s.gamma.b) ∧
        (addr = 0x03C#16 → v = s.gamma.dim) ∧
        (∀ w j b x, w < 8 → j < 64 → b < 4 → addr.toNat = 0x0400 + 0x100 * w + 4 * j →
          s.mem.read (tblAddr w (4 * j + b)) = some x → v.extractLsb' (8 * b) 8 = x) ∧
        (∀ w j, w < 8 → j < 64 → addr.toNat = 0x0400 + 0x100 * w + 4 * j →
          (∀ b, b < 4 → EntryHeld s w (4 * j + b)) → t.draws = s.draws) ∧
        (∀ k p, k < s.npix → addr.toNat = 0x4000 + 4 * k → s.mem.readWord (pixAddr k) = some p →
          v = p ∧ t.draws = s.draws) ∧
        (addr.toNat < 0x0400 → t.draws = s.draws)

/-- STATUS as it reads (10_state.md R27): CAUSE in bits 11:8 by its code (R201), DROP in bit 1, ERR in bit 0. -/
def Obligations.StatusReadsFields : Prop :=
  ∀ s : State, s.statusWord.toNat
    = (match s.cause with
        | .none => 0 | .illegalCmd => 1 | .pixRange => 2 | .badRange => 3 | .badGamma => 4 | .tableInvalid => 5) * 2 ^ 8
      + (if s.drop then 2 else 0) + (if s.err then 1 else 0)

/-- R55: what a host write does to ARG, CTRL, BRIGHT, TVALID, the GAMMA registers, the read-only registers and a pixel of the
pixel window. The other addresses have statements of their own: CMD StepRunsDecodedCommand and CommandsDropWhileErr, STATUS
StatusWriteClearsFault, CC FloorFollowsCc, the table windows TableWindowWriteUnpublishes, reserved addresses
BusErrorChangesNothing. -/
def Obligations.HostWriteStores : Prop :=
  ∀ (s : State) (addr : Addr) (v : Word) (rest : List HostEvent), s.host = .write .word addr v :: rest →
    (addr = 0x004#16 → step s = .next (afterWrite { s with arg := v } rest)) ∧
    (addr = 0x014#16 → step s = .next
      (afterWrite { s with mode := if v.getLsbD 0 then .closedForm else .lookupTable } rest)) ∧
    (addr = 0x018#16 → step s = .next (afterWrite { s with level := v.extractLsb' 0 8 } rest)) ∧
    (addr = 0x024#16 → step s = .next (afterWrite { s with tvalid := v.extractLsb' 0 8 } rest)) ∧
    (addr = 0x030#16 → step s = .next (afterWrite { s with gamma := { s.gamma with r := v } } rest)) ∧
    (addr = 0x034#16 → step s = .next (afterWrite { s with gamma := { s.gamma with g := v } } rest)) ∧
    (addr = 0x038#16 → step s = .next (afterWrite { s with gamma := { s.gamma with b := v } } rest)) ∧
    (addr = 0x03C#16 → step s = .next (afterWrite { s with gamma := { s.gamma with dim := v } } rest)) ∧
    (addr ∈ [0x00C#16, 0x010#16, 0x020#16, 0x028#16] → step s = .next (afterWrite s rest)) ∧
    (∀ k, k < s.npix → addr.toNat = 0x4000 + 4 * k → ∃ t, step s = .next t ∧
      t = { afterWrite s rest with mem := t.mem } ∧ t.mem.readWord (pixAddr k) = some v ∧
      ∀ a, a < pixAddr k ∨ pixAddr (k + 1) ≤ a → t.mem.read a = s.mem.read a)

/-- R59: a write to word `j` of table window `w` stores its four entries, clears V[w], and V[w+4] for a forward color
table; no other table entry, valid bit or state changes. -/
def Obligations.TableWindowWriteUnpublishes : Prop :=
  ∀ (s : State) (addr : Addr) (v : Word) (rest : List HostEvent) (w j : Nat), w < 8 → j < 64 →
    addr.toNat = 0x0400 + 0x100 * w + 4 * j → s.host = .write .word addr v :: rest →
      ∃ t, step s = .next t ∧ t = { afterWrite s rest with mem := t.mem, tvalid := t.tvalid } ∧
        (∀ b, b < 4 → t.mem.read (tblAddr w (4 * j + b)) = some (v.extractLsb' (8 * b) 8)) ∧
        (∀ a, a < tblAddr w (4 * j) ∨ tblAddr w (4 * j) + 4 ≤ a → t.mem.read a = s.mem.read a) ∧
        ∀ x, x < 8 → t.valid x = if x = w ∨ (w < 3 ∧ x = w + 4) then false else s.valid x

/-- R151: a CC write sets CC and FLOOR in one step; no other host write, read or command changes FLOOR; no command's
effect depends on CC; and every step, reset included, keeps FLOOR the function of CC. -/
def Obligations.FloorFollowsCc : Prop :=
  (∀ (s : State) (v : Word) (rest : List HostEvent), s.host = .write .word 0x001C#16 v :: rest →
    step s = .next (afterWrite
      { s with
        cc := ⟨v.extractLsb' 16 8, v.extractLsb' 8 8, v.extractLsb' 0 8⟩
        floor := ⟨floorOf (v.extractLsb' 16 8), floorOf (v.extractLsb' 8 8), floorOf (v.extractLsb' 0 8)⟩ } rest)) ∧
  (∀ s t : State, step s = .next t → (∀ v, s.host.head? ≠ some (.write .word 0x001C#16 v)) → s.host.head? ≠ some .rst →
    t.floor = s.floor ∧ t.cc = s.cc) ∧
  (∀ (i : Instr) (s t : State) (x : Rgb), exec i s = .next t → exec i { s with cc := x } = .next { t with cc := x }) ∧
  (∀ s t : State, step s = .next t → s.floor = floorsOf s.cc → t.floor = floorsOf t.cc) ∧
  ∀ n, (State.resetWith n).floor = floorsOf (State.resetWith n).cc

/-- R150: floorOf(f) is ceil(255 / f), the smallest m ≥ 1 with (m * f) div 255 ≥ 1, and 1 for f = 0; it lies in 1..255. -/
def Obligations.FloorIsSmallestSurvivor : Prop :=
  floorOf 0#8 = 1#8 ∧
  ∀ f : Byte, 1 ≤ (floorOf f).toNat ∧ (floorOf f).toNat ≤ 255 ∧
    (f ≠ 0#8 → (floorOf f).toNat = (255 + f.toNat - 1) / f.toNat ∧ 1 ≤ (floorOf f).toNat * f.toNat / 255 ∧
      ∀ m, 1 ≤ m → 1 ≤ m * f.toNat / 255 → (floorOf f).toNat ≤ m)

/-! ### What every command keeps -/

/-- R93, R22, R26, R34, R35, R37: no command writes a register other than TVALID (BUILD and INVERT) and, on a fault alone,
STATUS, ERRINFO and ERRARG; and none touches the host's record but, on a fault, the run-wide mark (log entry 14). -/
def Obligations.CommandsKeepRegisters : Prop :=
  ∀ (i : Instr) (s t : State), exec i s = .next t →
    t = { s with
      err := t.err
      drop := t.drop
      cause := t.cause
      errInfo := t.errInfo
      errArg := t.errArg
      tvalid := t.tvalid
      mem := t.mem
      commandLost := t.commandLost } ∧
    (firstFailure i s = none → t.err = s.err ∧ t.drop = s.drop ∧ t.cause = s.cause ∧ t.errInfo = s.errInfo ∧
      t.errArg = s.errArg ∧ t.commandLost = s.commandLost) ∧
    ((∀ tid maxIn maxOut, i ≠ .build tid maxIn maxOut) → (∀ tid maxOut, i ≠ .invert tid maxOut) → t.tvalid = s.tvalid)

/-! ### BUILD and INVERT -/

/-- R101, R102: BUILD with legal ranges and a valid gamma completes: every entry is round_half_up of the exact real power with
the force-to-1 step, V[t] is set, V[t+4] cleared for t < 3, and nothing else changes. Its faults and its
encoding are those of the rule. -/
def Obligations.BuildMakesExactTable : Prop :=
  (∀ (tid : Tid) (maxIn maxOut : Byte) (s : State), maxIn ≠ 0#8 → maxOut ≠ 0#8 → gammaValid (s.gamma.get tid.toNat) = true →
    ∃ t, exec (.build tid maxIn maxOut) s = .next t ∧
      t = { s with mem := t.mem, tvalid := t.tvalid } ∧
      (∀ i, i < 256 → ∃ x, t.mem.read (tblAddr tid.toNat i) = some x ∧
        x.toNat = realEntry i maxIn.toNat maxOut.toNat (gammaReal s tid.toNat)) ∧
      (∀ a, a < tblAddr tid.toNat 0 ∨ tblAddr tid.toNat 256 ≤ a → t.mem.read a = s.mem.read a) ∧
      ∀ x, x < 8 → t.valid x =
        if x = tid.toNat then true else if tid.toNat < 3 ∧ x = tid.toNat + 4 then false else s.valid x) ∧
  (∀ (tid : Tid) (maxIn maxOut : Byte) (s : State), maxIn = 0#8 ∨ maxOut = 0#8 →
    exec (.build tid maxIn maxOut) s = .next (faultState s (.build tid maxIn maxOut) .badRange)) ∧
  (∀ (tid : Tid) (maxIn maxOut : Byte) (s : State), maxIn ≠ 0#8 → maxOut ≠ 0#8 → gammaValid (s.gamma.get tid.toNat) = false →
    exec (.build tid maxIn maxOut) s = .next (faultState s (.build tid maxIn maxOut) .badGamma)) ∧
  ∀ w arg : Word, w.extractLsb' 24 8 = 0x01#8 → decode w arg =
    if w.extractLsb' 18 6 = 0#6 then .ok (.build (w.extractLsb' 16 2) (w.extractLsb' 8 8) (w.extractLsb' 0 8))
    else .error .buildReserved

/-- R103: the shape of a table BUILD has made: 0 at index 0, at least 1 above it, non-decreasing, maxOut from maxIn on, and
never above maxOut. -/
def Obligations.BuiltTableShape : Prop :=
  ∀ (tid : Tid) (maxIn maxOut : Byte) (s t : State), maxIn ≠ 0#8 → maxOut ≠ 0#8 → gammaValid (s.gamma.get tid.toNat) = true →
    exec (.build tid maxIn maxOut) s = .next t →
      ∃ T : Nat → Byte, (∀ i, i < 256 → t.mem.read (tblAddr tid.toNat i) = some (T i)) ∧ T 0 = 0#8 ∧
        (∀ i, 1 ≤ i → i < 256 → 1 ≤ (T i).toNat) ∧ (∀ i j, i ≤ j → j < 256 → (T i).toNat ≤ (T j).toNat) ∧
        (∀ i, maxIn.toNat ≤ i → i < 256 → T i = maxOut) ∧ ∀ i, i < 256 → (T i).toNat ≤ maxOut.toNat

/-- R105, R106: INVERT of a published table whose entries hold values completes: its entries follow the algorithm of R106,
V[c+4] is set, and nothing else changes, the forward table included. Its faults and its encoding are those
of the rule. -/
def Obligations.InvertFollowsAlgorithm : Prop :=
  (∀ (tid : Tid) (maxOut : Byte) (s : State) (F : Nat → Byte), tid ≠ 3#2 → maxOut ≠ 0#8 → s.valid tid.toNat = true →
    (∀ i, i < 256 → s.mem.read (tblAddr tid.toNat i) = some (F i)) →
    ∃ t, exec (.invert tid maxOut) s = .next t ∧
      t = { s with mem := t.mem, tvalid := t.tvalid } ∧
      (∃ f e : Nat → Nat, f 0 = 0 ∧
        ∀ i, i < 256 → InverseEntry (fun j => (F j).toNat) maxOut.toNat f e i ∧ e i ≤ 255 ∧
          t.mem.read (tblAddr (tid.toNat + 4) i) = some (BitVec.ofNat 8 (e i))) ∧
      (∀ a, a < tblAddr (tid.toNat + 4) 0 ∨ tblAddr (tid.toNat + 4) 256 ≤ a → t.mem.read a = s.mem.read a) ∧
      ∀ x, x < 8 → t.valid x = if x = tid.toNat + 4 then true else s.valid x) ∧
  (∀ (tid : Tid) (maxOut : Byte) (s : State), tid ≠ 3#2 → maxOut = 0#8 →
    exec (.invert tid maxOut) s = .next (faultState s (.invert tid maxOut) .badRange)) ∧
  (∀ (tid : Tid) (maxOut : Byte) (s : State), tid ≠ 3#2 → maxOut ≠ 0#8 → s.valid tid.toNat = false →
    exec (.invert tid maxOut) s = .next (faultState s (.invert tid maxOut) .tableInvalid)) ∧
  ∀ w arg : Word, w.extractLsb' 24 8 = 0x02#8 →
    if w.extractLsb' 18 6 ≠ 0#6 ∨ w.extractLsb' 8 8 ≠ 0#8 ∨ w.extractLsb' 16 2 = 3#2 then ∃ e, decode w arg = .error e
    else decode w arg = .ok (.invert (w.extractLsb' 16 2) (w.extractLsb' 0 8))

/-! ### APPLYF and APPLYI -/

/-- R132: APPLYF in both modes, its faults and its encoding. -/
def Obligations.ApplyfCorrectsPixels : Prop :=
  (∀ (base count : Index) (s : State), s.mode = .lookupTable → base.toNat + count.toNat ≤ s.npix →
    s.valid 0 = true → s.valid 1 = true → s.valid 2 = true → s.PixelsFilled base.toNat count.toNat →
    EntriesFilled s base count (fun c => c) →
      ∃ t, exec (.applyf base count) s = .next t ∧ RangeDone s t base count (fun p q => auxb q = auxb p ∧
        ∀ c, c < 3 → s.mem.read (tblAddr c (chan p c).toNat) = some (chan q c))) ∧
  (∀ (base count : Index) (s : State), s.mode = .closedForm → base.toNat + count.toNat ≤ s.npix →
    (∀ c, c < 3 → gammaValid (s.gamma.get c) = true) → s.PixelsFilled base.toNat count.toNat →
      ∃ t, exec (.applyf base count) s = .next t ∧ RangeDone s t base count (fun p q => auxb q = auxb p ∧
        ∀ c, c < 3 → (chan q c).toNat = realEntry (chan p c).toNat 255 255 (gammaReal s c))) ∧
  (∀ (base count : Index) (s : State), s.npix < base.toNat + count.toNat →
    exec (.applyf base count) s = .next (faultState s (.applyf base count) .pixRange)) ∧
  (∀ (base count : Index) (s : State), base.toNat + count.toNat ≤ s.npix → s.mode = .lookupTable →
    s.valid 0 = false ∨ s.valid 1 = false ∨ s.valid 2 = false →
    exec (.applyf base count) s = .next (faultState s (.applyf base count) .tableInvalid)) ∧
  (∀ (base count : Index) (s : State), base.toNat + count.toNat ≤ s.npix → s.mode = .closedForm →
    (∃ c, c < 3 ∧ gammaValid (s.gamma.get c) = false) →
    exec (.applyf base count) s = .next (faultState s (.applyf base count) .badGamma)) ∧
  ∀ w arg : Word, w.extractLsb' 24 8 = 0x10#8 → decode w arg = .ok (.applyf (w.extractLsb' 12 12) (w.extractLsb' 0 12))

/-- R133: APPLYI, in either mode, its faults and its encoding. -/
def Obligations.ApplyiLinearizesPixels : Prop :=
  (∀ (base count : Index) (s : State), base.toNat + count.toNat ≤ s.npix →
    s.valid 4 = true → s.valid 5 = true → s.valid 6 = true → s.PixelsFilled base.toNat count.toNat →
    EntriesFilled s base count (fun c => c + 4) →
      ∃ t, exec (.applyi base count) s = .next t ∧ RangeDone s t base count (fun p q => auxb q = auxb p ∧
        ∀ c, c < 3 → s.mem.read (tblAddr (c + 4) (chan p c).toNat) = some (chan q c))) ∧
  (∀ (base count : Index) (s : State), s.npix < base.toNat + count.toNat →
    exec (.applyi base count) s = .next (faultState s (.applyi base count) .pixRange)) ∧
  (∀ (base count : Index) (s : State), base.toNat + count.toNat ≤ s.npix →
    s.valid 4 = false ∨ s.valid 5 = false ∨ s.valid 6 = false →
    exec (.applyi base count) s = .next (faultState s (.applyi base count) .tableInvalid)) ∧
  ∀ w arg : Word, w.extractLsb' 24 8 = 0x11#8 → decode w arg = .ok (.applyi (w.extractLsb' 12 12) (w.extractLsb' 0 12))

/-- R134: with forward tables that BUILD c, 255, 255 made from the gammas now in the registers, the two modes of APPLYF give the
same pixels for every input. -/
def Obligations.CorrectionModesAgree : Prop :=
  ∀ (base count : Index) (s t : State), s.valid 0 = true → s.valid 1 = true → s.valid 2 = true →
    (∀ c, c < 3 → gammaValid (s.gamma.get c) = true ∧
      ∃ u u', exec (.build (BitVec.ofNat 2 c) 255#8 255#8) u = .next u' ∧ u.gamma.get c = s.gamma.get c ∧
        ∀ i, i < 256 → s.mem.read (tblAddr c i) = u'.mem.read (tblAddr c i)) →
    (exec (.applyf base count) { s with mode := .lookupTable } = .next { t with mode := .lookupTable } ↔
      exec (.applyf base count) { s with mode := .closedForm } = .next { t with mode := .closedForm })

/-! ### SCALE, SCALEF and FLOORG -/

/-- R152: scale8 is v * f / 255 rounded to the nearest, a tie never occurring, with its three identities. -/
def Obligations.ScaleRoundsToNearest : Prop :=
  (∀ v f : Byte, (scale8 v f).toNat = roundHalfUp ((v.toNat : ℝ) * f.toNat / 255) ∧
    (scale8 v f).toNat = (2 * v.toNat * f.toNat + 255) / 510) ∧
  (∀ (v f : Byte) (k : Nat), (v.toNat : ℝ) * f.toNat / 255 ≠ k + 1 / 2) ∧
  ∀ v : Byte, scale8 v 255#8 = v ∧ scale8 v 0#8 = 0#8 ∧ scale8 0#8 v = 0#8

/-- R155: SCALE, its channels, the auxiliary byte of R153, its faults and its encoding. -/
def Obligations.ScaleDimsPixels : Prop :=
  (∀ (base count : Index) (s : State) (f x : Byte), base.toNat + count.toNat ≤ s.npix → s.valid 3 = true → s.valid 7 = true →
    s.PixelsFilled base.toNat count.toNat → s.mem.read (tblAddr 3 s.level.toNat) = some f →
    (s.level = 0#8 → x = 0#8) →
    (s.level ≠ 0#8 → ∃ y, s.mem.read (tblAddr 7 s.level.toNat) = some y ∧ x = if y = 0#8 then 1#8 else y) →
      ∃ t, exec (.scale base count) s = .next t ∧ RangeDone s t base count (fun p q => auxb q = x ∧
        ∀ c, c < 3 → chan q c = scale8 (chan p c) f)) ∧
  (∀ (base count : Index) (s : State), s.npix < base.toNat + count.toNat →
    exec (.scale base count) s = .next (faultState s (.scale base count) .pixRange)) ∧
  (∀ (base count : Index) (s : State), base.toNat + count.toNat ≤ s.npix → s.valid 3 = false ∨ s.valid 7 = false →
    exec (.scale base count) s = .next (faultState s (.scale base count) .tableInvalid)) ∧
  ∀ w arg : Word, w.extractLsb' 24 8 = 0x20#8 → decode w arg = .ok (.scale (w.extractLsb' 12 12) (w.extractLsb' 0 12))

/-- R156: SCALEF, with the guard of R154 on each scaled channel, its faults and its encoding. -/
def Obligations.ScalefDimsAndGuardsPixels : Prop :=
  (∀ (base count : Index) (s : State) (f x : Byte), base.toNat + count.toNat ≤ s.npix → s.valid 3 = true → s.valid 7 = true →
    s.PixelsFilled base.toNat count.toNat → s.mem.read (tblAddr 3 s.level.toNat) = some f →
    (s.level = 0#8 → x = 0#8) →
    (s.level ≠ 0#8 → ∃ y, s.mem.read (tblAddr 7 s.level.toNat) = some y ∧ x = if y = 0#8 then 1#8 else y) →
      ∃ t, exec (.scalef base count) s = .next t ∧ RangeDone s t base count (fun p q => auxb q = x ∧
        ∀ c, c < 3 → chan q c =
          let n := scale8 (chan p c) f
          let m := if c = 0 then s.floor.r else if c = 1 then s.floor.g else s.floor.b
          if 0 < n.toNat ∧ n.toNat < m.toNat then m else n)) ∧
  (∀ (base count : Index) (s : State), s.npix < base.toNat + count.toNat →
    exec (.scalef base count) s = .next (faultState s (.scalef base count) .pixRange)) ∧
  (∀ (base count : Index) (s : State), base.toNat + count.toNat ≤ s.npix → s.valid 3 = false ∨ s.valid 7 = false →
    exec (.scalef base count) s = .next (faultState s (.scalef base count) .tableInvalid)) ∧
  ∀ w arg : Word, w.extractLsb' 24 8 = 0x21#8 → decode w arg = .ok (.scalef (w.extractLsb' 12 12) (w.extractLsb' 0 12))

/-- R157, R154: FLOORG raises each nonzero channel below its floor to the floor and keeps the rest; its one
fault and its encoding. -/
def Obligations.FloorgRaisesToFloor : Prop :=
  (∀ (base count : Index) (s : State), base.toNat + count.toNat ≤ s.npix → s.PixelsFilled base.toNat count.toNat →
      ∃ t, exec (.floorg base count) s = .next t ∧ RangeDone s t base count (fun p q => auxb q = auxb p ∧
        ∀ c, c < 3 → chan q c =
          let m := if c = 0 then s.floor.r else if c = 1 then s.floor.g else s.floor.b
          if 0 < (chan p c).toNat ∧ (chan p c).toNat < m.toNat then m else chan p c)) ∧
  (∀ (base count : Index) (s : State), s.npix < base.toNat + count.toNat →
    exec (.floorg base count) s = .next (faultState s (.floorg base count) .pixRange)) ∧
  ∀ w arg : Word, w.extractLsb' 24 8 = 0x22#8 → decode w arg = .ok (.floorg (w.extractLsb' 12 12) (w.extractLsb' 0 12))

/-- R158 (a): FLOORG is idempotent: run again on the same range it changes nothing at all. -/
def Obligations.FloorgIdempotent : Prop :=
  ∀ (base count : Index) (s t : State), base.toNat + count.toNat ≤ s.npix → exec (.floorg base count) s = .next t →
    exec (.floorg base count) t = .next t

/-- R158 (c): SCALEF on a range is SCALE on it followed by FLOORG on it. -/
def Obligations.ScalefIsScaleThenFloorg : Prop :=
  ∀ (base count : Index) (s t : State), base.toNat + count.toNat ≤ s.npix → s.valid 3 = true → s.valid 7 = true →
    (exec (.scalef base count) s = .next t ↔
      ∃ u, exec (.scale base count) s = .next u ∧ exec (.floorg base count) u = .next t)

/-! ### Ranges -/

/-- R135: a range command is the same as its two parts one after the other, wherever the range is cut. -/
def Obligations.RangeCommandSplits : Prop :=
  ∀ (cmd : Index → Index → Instr) (base m n : Index) (s t : State),
    (cmd = .applyf ∨ cmd = .applyi ∨ cmd = .scale ∨ cmd = .scalef ∨ cmd = .floorg) →
    base.toNat + m.toNat < 4096 → m.toNat + n.toNat < 4096 → firstFailure (cmd base (m + n)) s = none →
    (exec (cmd base (m + n)) s = .next t ↔
      ∃ u, exec (cmd base m) s = .next u ∧ exec (cmd (base + m) n) u = .next t)

/-- R87, R202: a range command with COUNT = 0 that passes its checks completes and changes nothing, with BASE up to NPIX. -/
def Obligations.EmptyRangeChangesNothing : Prop :=
  ∀ (cmd : Index → Index → Instr) (base : Index) (s : State),
    (cmd = .applyf ∨ cmd = .applyi ∨ cmd = .scale ∨ cmd = .scalef ∨ cmd = .floorg) →
    firstFailure (cmd base 0#12) s = none → exec (cmd base 0#12) s = .next s

/-! ### BLEND -/

/-- R180: lerp is the rounded interpolation, without ties; amount 0 gives la, 255 gives lb, and the result lies between. -/
def Obligations.LerpInterpolates : Prop :=
  (∀ la lb t : Byte, (lerp la lb t).toNat
      = roundHalfUp (((la.toNat : ℝ) * (255 - t.toNat) + lb.toNat * t.toNat) / 255) ∧
    (lerp la lb t).toNat = (2 * (la.toNat * (255 - t.toNat) + lb.toNat * t.toNat) + 255) / 510) ∧
  (∀ (la lb t : Byte) (k : Nat), ((la.toNat : ℝ) * (255 - t.toNat) + lb.toNat * t.toNat) / 255 ≠ k + 1 / 2) ∧
  ∀ la lb t : Byte, lerp la lb 0#8 = la ∧ lerp la lb 255#8 = lb ∧
    min la.toNat lb.toNat ≤ (lerp la lb t).toNat ∧ (lerp la lb t).toNat ≤ max la.toNat lb.toNat

/-- R181: BLEND reads both pixels and the tables, stores one pixel, and changes nothing else; its faults and its encoding. -/
def Obligations.BlendStoresOnePixel : Prop :=
  (∀ (dst a b : Index) (amt : Byte) (s : State) (pa pb : Word), dst.toNat < s.npix → a.toNat < s.npix → b.toNat < s.npix →
    s.valid 0 = true → s.valid 1 = true → s.valid 2 = true → s.valid 4 = true → s.valid 5 = true → s.valid 6 = true →
    s.mem.readWord (pixAddr a.toNat) = some pa → s.mem.readWord (pixAddr b.toNat) = some pb →
    (∀ c, c < 3 → ∃ la lb, s.mem.read (tblAddr (c + 4) (chan pa c).toNat) = some la ∧
      s.mem.read (tblAddr (c + 4) (chan pb c).toNat) = some lb ∧ (s.mem.read (tblAddr c (lerp la lb amt).toNat)).isSome) →
      ∃ t q, exec (.blend dst a b amt) s = .next t ∧ t = { s with mem := t.mem } ∧
        (∀ x, x < pixAddr dst.toNat ∨ pixAddr dst.toNat + 4 ≤ x → t.mem.read x = s.mem.read x) ∧
        t.mem.readWord (pixAddr dst.toNat) = some q ∧ auxb q = auxb pa ∧
        ∀ c, c < 3 → ∃ la lb, s.mem.read (tblAddr (c + 4) (chan pa c).toNat) = some la ∧
          s.mem.read (tblAddr (c + 4) (chan pb c).toNat) = some lb ∧
          s.mem.read (tblAddr c (lerp la lb amt).toNat) = some (chan q c)) ∧
  (∀ (dst a b : Index) (amt : Byte) (s : State), s.npix ≤ dst.toNat ∨ s.npix ≤ a.toNat ∨ s.npix ≤ b.toNat →
    exec (.blend dst a b amt) s = .next (faultState s (.blend dst a b amt) .pixRange)) ∧
  (∀ (dst a b : Index) (amt : Byte) (s : State), dst.toNat < s.npix → a.toNat < s.npix → b.toNat < s.npix →
    s.valid 0 = false ∨ s.valid 1 = false ∨ s.valid 2 = false ∨ s.valid 4 = false ∨ s.valid 5 = false ∨ s.valid 6 = false →
    exec (.blend dst a b amt) s = .next (faultState s (.blend dst a b amt) .tableInvalid)) ∧
  ∀ w arg : Word, w.extractLsb' 24 8 = 0x30#8 →
    if w.extractLsb' 12 4 ≠ 0#4 ∨ arg.extractLsb' 24 8 ≠ 0#8 then ∃ e, decode w arg = .error e
    else decode w arg =
      .ok (.blend (w.extractLsb' 0 12) (arg.extractLsb' 12 12) (arg.extractLsb' 0 12) (w.extractLsb' 16 8))

/-- R182: the in-place form, BLEND with DST = A, changes pixel a alone and leaves b unmodified; its two words. -/
def Obligations.BlendInPlaceKeepsB : Prop :=
  (∀ (a b : Index) (amt : Byte), (encode (.blend a a b amt)).toNat = 0x30000000 + amt.toNat * 2 ^ 16 + a.toNat ∧
    ∃ o, operandWord (.blend a a b amt) = some o ∧ o.toNat = a.toNat * 2 ^ 12 + b.toNat) ∧
  ∀ (a b : Index) (amt : Byte) (s t : State), a ≠ b → exec (.blend a a b amt) s = .next t →
    t.mem.readWord (pixAddr b.toNat) = s.mem.readWord (pixAddr b.toNat)

/-- R183 (b): a pixel blended with itself gives the same result for every amount. -/
def Obligations.BlendWithItselfIgnoresAmount : Prop :=
  ∀ (dst a : Index) (x y : Byte) (s t : State), firstFailure (.blend dst a a x) s = none →
    exec (.blend dst a a x) s = .next t → exec (.blend dst a a y) s = .next t

/-- R183 (d): blending b with a at 255 - t gives the channels of blending a with b at t; only AUXB may differ. -/
def Obligations.BlendSwapKeepsChannels : Prop :=
  ∀ (dst a b : Index) (amt : Byte) (s t u : State) (p q : Word), firstFailure (.blend dst a b amt) s = none →
    exec (.blend dst a b amt) s = .next t → exec (.blend dst b a (255#8 - amt)) s = .next u →
    t.mem.readWord (pixAddr dst.toNat) = some p → u.mem.readWord (pixAddr dst.toNat) = some q →
      ∀ c, c < 3 → chan p c = chan q c
end

