-- ==== Sys2Proof/Laws/Memory.lean ====
section
/-! SUPPORT. Memory: what a read gives after a store, and that a store keeps the canonical form. -/

namespace Sys2Proof.Machine

theorem Memory.read_append (m n : Memory) (x : Nat) : Memory.read (m ++ n) x = (m.read x).or (n.read x) := by
  induction m with
  | nil => rfl
  | cons c m ih =>
    simp only [List.cons_append, Memory.read]
    split
    · rfl
    · exact ih

theorem Memory.read_filter (m : Memory) (keep : Nat → Bool) (x : Nat) :
    Memory.read (m.filter (fun c => keep c.1)) x = if keep x then m.read x else none := by
  induction m with
  | nil => simp [Memory.read]
  | cons c m ih =>
    by_cases hk : keep c.1
    · rw [List.filter_cons_of_pos (p := fun d : Host.Cell => keep d.1) hk]
      simp only [Memory.read]
      by_cases hx : c.1 = x
      · rw [if_pos hx, if_pos hx, ← hx, if_pos hk]
      · rw [if_neg hx, if_neg hx, ih]
    · rw [List.filter_cons_of_neg (p := fun d : Host.Cell => keep d.1) hk, ih]
      by_cases hx : c.1 = x
      · rw [← hx, if_neg hk, if_neg hk]
      · simp only [Memory.read, if_neg hx]

theorem Memory.read_cells (bs : List Byte) : ∀ a x,
    Memory.read (Memory.cells a bs) x = if a ≤ x then bs[x - a]? else none := by
  induction bs with
  | nil => intro a x; simp [Memory.cells, Memory.read]
  | cons b bs ih =>
    intro a x
    simp only [Memory.cells, Memory.read, ih]
    by_cases h : a = x
    · subst h; simp
    · rw [if_neg h]
      by_cases h' : a ≤ x
      · rw [if_pos (by omega), if_pos h', show x - a = (x - (a + 1)) + 1 by omega, List.getElem?_cons_succ]
      · rw [if_neg (by omega), if_neg h']

/-- Read after store: the stored bytes inside the block, what was there before outside it. -/
theorem Memory.read_store (m : Memory) (a : Nat) (bs : List Byte) (x : Nat) :
    (m.store a bs).read x = if a ≤ x ∧ x < a + bs.length then bs[x - a]? else m.read x := by
  unfold Memory.store
  split
  · next => rw [if_neg (by simp)]
  · next b bs' =>
    rw [Memory.read_append, Memory.read_append, Memory.read_cells,
      Memory.read_filter m (fun y => decide (y < a)), Memory.read_filter m (fun y => decide (a + (b :: bs').length ≤ y))]
    generalize hL : (b :: bs') = bs
    by_cases h1 : x < a
    · simp [h1, show ¬ a ≤ x by omega, show ¬ a + bs.length ≤ x by omega]
    · by_cases h2 : x < a + bs.length
      · have h3 : x - a < bs.length := by omega
        simp [h1, h2, show a ≤ x by omega, h3]
      · have h3 : bs.length ≤ x - a := by omega
        simp [h1, h2, show a ≤ x by omega, h3, show a + bs.length ≤ x by omega]

/-- A store leaves every byte outside its block alone. -/
theorem Memory.read_store_outside (m : Memory) {a : Nat} {bs : List Byte} {x : Nat} (h : x < a ∨ a + bs.length ≤ x) :
    (m.store a bs).read x = m.read x := by
  rw [Memory.read_store, if_neg (by omega)]

/-- A store is read back inside its block. -/
theorem Memory.read_store_inside (m : Memory) {a : Nat} {bs : List Byte} {j : Nat} (h : j < bs.length) :
    (m.store a bs).read (a + j) = bs[j]? := by
  rw [Memory.read_store, if_pos (by omega), Nat.add_sub_cancel_left]

theorem Memory.mem_cells {bs : List Byte} : ∀ {a : Nat} {c : Host.Cell},
    c ∈ Memory.cells a bs → a ≤ c.1 ∧ c.1 < a + bs.length := by
  induction bs with
  | nil => intro a c h; simp [Memory.cells] at h
  | cons b bs ih =>
    intro a c h
    simp only [Memory.cells, List.mem_cons] at h
    rcases h with rfl | h
    · simp
    · have := ih h
      simp only [List.length_cons]
      omega

theorem Memory.cells_wf (bs : List Byte) : ∀ a, (Memory.cells a bs).wf := by
  induction bs with
  | nil => intro a; simp [Memory.cells]
  | cons b bs ih =>
    intro a
    simp only [Memory.cells, List.pairwise_cons]
    exact ⟨fun c hc => by have := Memory.mem_cells hc; omega, ih _⟩

/-- A store keeps the canonical form. -/
theorem Memory.store_wf {m : Memory} (h : m.wf) (a : Nat) (bs : List Byte) : (m.store a bs).wf := by
  unfold Memory.store
  split
  · exact h
  · simp only [Memory.wf, List.pairwise_append, List.mem_append, List.mem_filter, decide_eq_true_eq]
    refine ⟨List.Pairwise.filter _ h, ⟨Memory.cells_wf _ _, List.Pairwise.filter _ h, ?_⟩, ?_⟩
    · intro c hc d hd
      have := Memory.mem_cells hc
      omega
    · rintro c hc d (hd | hd)
      · have := Memory.mem_cells hd
        omega
      · omega

/-- The memory right after reset has the canonical form. -/
theorem State.reset_mem_wf : State.reset.mem.wf := List.Pairwise.nil

/-- Every cell after a store is an old one or lies in the block. -/
theorem Memory.mem_store {m : Memory} {a : Nat} {bs : List Byte} {c : Host.Cell} (h : c ∈ m.store a bs) :
    c ∈ m ∨ (a ≤ c.1 ∧ c.1 < a + bs.length) := by
  unfold Memory.store at h
  split at h
  · exact .inl h
  · simp only [List.mem_append, List.mem_filter] at h
    rcases h with h | h | h
    · exact .inl h.1
    · exact .inr (Memory.mem_cells h)
    · exact .inl h.1

/-! ### Words -/

theorem wordOfBytes_wordBytes (v : Word) :
    wordOfBytes (v.extractLsb' 0 8) (v.extractLsb' 8 8) (v.extractLsb' 16 8) (v.extractLsb' 24 8) = v := by
  apply BitVec.eq_of_getLsbD_eq
  intro i hi
  simp only [wordOfBytes, BitVec.getLsbD_append, BitVec.getLsbD_extractLsb']
  rcases Nat.lt_or_ge i 8 with h | h
  · simp [h]
  · rcases Nat.lt_or_ge i 16 with h2 | h2
    · simp [show ¬ i < 8 by omega, show i - 8 < 8 by omega, show 8 + (i - 8) = i by omega]
    · rcases Nat.lt_or_ge i 24 with h3 | h3
      · simp [show ¬ i < 8 by omega, show ¬ i - 8 < 8 by omega, show i - 8 - 8 < 8 by omega, show 16 + (i - 8 - 8) = i by omega]
      · simp [show ¬ i < 8 by omega, show ¬ i - 8 < 8 by omega, show ¬ i - 8 - 8 < 8 by omega,
          show i - 8 - 8 - 8 < 8 by omega, show 24 + (i - 8 - 8 - 8) = i by omega]

theorem wordBytes_length (v : Word) : (wordBytes v).length = 4 := rfl

theorem flatMap_wordBytes_length (ps : List Word) : (ps.flatMap wordBytes).length = 4 * ps.length := by
  induction ps with
  | nil => rfl
  | cons p ps ih => simp only [List.flatMap_cons, List.length_append, wordBytes_length, ih, List.length_cons]; omega

theorem flatMap_wordBytes_get (ps : List Word) : ∀ i j, j < 4 → i < ps.length →
    (ps.flatMap wordBytes)[4 * i + j]? = (ps[i]?.bind (fun p => (wordBytes p)[j]?)) := by
  induction ps with
  | nil => intro i j _ h; simp at h
  | cons p ps ih =>
    intro i j hj hi
    rw [List.flatMap_cons]
    cases i with
    | zero => rw [List.getElem?_append_left (by rw [wordBytes_length]; omega)]; simp
    | succ i =>
      rw [List.getElem?_append_right (by rw [wordBytes_length]; omega), wordBytes_length,
        show 4 * (i + 1) + j - 4 = 4 * i + j by omega, List.getElem?_cons_succ]
      exact ih i j hj (by simpa using hi)

/-- A word read depends on its four bytes only. -/
theorem Memory.readWord_congr {m n : Memory} {a : Nat} (h : ∀ j, j < 4 → m.read (a + j) = n.read (a + j)) :
    m.readWord a = n.readWord a := by
  unfold Memory.readWord
  rw [show m.read a = n.read a from by simpa using h 0 (by omega), h 1 (by omega), h 2 (by omega), h 3 (by omega)]

/-- The word at `a` is the four stored bytes. -/
theorem Memory.readWord_of_bytes {m : Memory} {a : Nat} {v : Word}
    (h : ∀ j, j < 4 → m.read (a + j) = (wordBytes v)[j]?) : m.readWord a = some v := by
  unfold Memory.readWord
  rw [show m.read a = some (v.extractLsb' 0 8) from by simpa [wordBytes] using h 0 (by omega), h 1 (by omega),
    h 2 (by omega), h 3 (by omega)]
  simp only [wordBytes, List.getElem?_cons_succ, List.getElem?_cons_zero]
  rw [wordOfBytes_wordBytes]

/-- Storing pixel words: a pixel of the block reads as the stored word. -/
theorem Memory.readWord_storeWords (m : Memory) (k : Nat) (ps : List Word) {i : Nat} (hi : i < ps.length) :
    (m.store (pixAddr k) (ps.flatMap wordBytes)).readWord (pixAddr (k + i)) = ps[i]? := by
  rw [List.getElem?_eq_getElem hi]
  refine Memory.readWord_of_bytes (fun j hj => ?_)
  rw [show pixAddr (k + i) + j = pixAddr k + (4 * i + j) by unfold pixAddr; omega,
    Memory.read_store_inside _ (by rw [flatMap_wordBytes_length]; omega), flatMap_wordBytes_get _ _ _ hj hi,
    List.getElem?_eq_getElem hi]
  rfl

/-- A pixel outside the block of a store of pixel words reads as before. -/
theorem Memory.readWord_storeWords_outside (m : Memory) {k x : Nat} {ps : List Word} (h : x < k ∨ k + ps.length ≤ x) :
    (m.store (pixAddr k) (ps.flatMap wordBytes)).readWord (pixAddr x) = m.readWord (pixAddr x) := by
  refine Memory.readWord_congr (fun j hj => Memory.read_store_outside _ ?_)
  rw [flatMap_wordBytes_length]
  unfold pixAddr
  omega

end Sys2Proof.Machine
end

