-- ==== Sys2Proof/Laws/State.lean ====
section
/-! SUPPORT. One lemma per field of each update of State, true by rfl, so that no proof unfolds a record update. -/

namespace Sys2Proof.Machine

variable (s : State)

/-! ### raise -/

@[simp] theorem State.raise_npix (w : Word) (c : Cause) : (s.raise w c).npix = s.npix := rfl
@[simp] theorem State.raise_arg (w : Word) (c : Cause) : (s.raise w c).arg = s.arg := rfl
@[simp] theorem State.raise_err (w : Word) (c : Cause) : (s.raise w c).err = true := rfl
@[simp] theorem State.raise_drop (w : Word) (c : Cause) : (s.raise w c).drop = false := rfl
@[simp] theorem State.raise_cause (w : Word) (c : Cause) : (s.raise w c).cause = c := rfl
@[simp] theorem State.raise_errInfo (w : Word) (c : Cause) : (s.raise w c).errInfo = w := rfl
@[simp] theorem State.raise_errArg (w : Word) (c : Cause) : (s.raise w c).errArg = s.arg := rfl
@[simp] theorem State.raise_mode (w : Word) (c : Cause) : (s.raise w c).mode = s.mode := rfl
@[simp] theorem State.raise_level (w : Word) (c : Cause) : (s.raise w c).level = s.level := rfl
@[simp] theorem State.raise_cc (w : Word) (c : Cause) : (s.raise w c).cc = s.cc := rfl
@[simp] theorem State.raise_floor (w : Word) (c : Cause) : (s.raise w c).floor = s.floor := rfl
@[simp] theorem State.raise_tvalid (w : Word) (c : Cause) : (s.raise w c).tvalid = s.tvalid := rfl
@[simp] theorem State.raise_gamma (w : Word) (c : Cause) : (s.raise w c).gamma = s.gamma := rfl
@[simp] theorem State.raise_mem (w : Word) (c : Cause) : (s.raise w c).mem = s.mem := rfl
@[simp] theorem State.raise_commandLost (w : Word) (c : Cause) : (s.raise w c).commandLost = true := rfl
@[simp] theorem State.raise_host (w : Word) (c : Cause) : (s.raise w c).host = s.host := rfl
@[simp] theorem State.raise_log (w : Word) (c : Cause) : (s.raise w c).log = s.log := rfl
@[simp] theorem State.raise_draws (w : Word) (c : Cause) : (s.raise w c).draws = s.draws := rfl

/-! ### clearFault -/

@[simp] theorem State.clearFault_npix : (s.clearFault).npix = s.npix := rfl
@[simp] theorem State.clearFault_arg : (s.clearFault).arg = s.arg := rfl
@[simp] theorem State.clearFault_err : (s.clearFault).err = false := rfl
@[simp] theorem State.clearFault_drop : (s.clearFault).drop = false := rfl
@[simp] theorem State.clearFault_cause : (s.clearFault).cause = .none := rfl
@[simp] theorem State.clearFault_errInfo : (s.clearFault).errInfo = s.errInfo := rfl
@[simp] theorem State.clearFault_errArg : (s.clearFault).errArg = s.errArg := rfl
@[simp] theorem State.clearFault_mode : (s.clearFault).mode = s.mode := rfl
@[simp] theorem State.clearFault_level : (s.clearFault).level = s.level := rfl
@[simp] theorem State.clearFault_cc : (s.clearFault).cc = s.cc := rfl
@[simp] theorem State.clearFault_floor : (s.clearFault).floor = s.floor := rfl
@[simp] theorem State.clearFault_tvalid : (s.clearFault).tvalid = s.tvalid := rfl
@[simp] theorem State.clearFault_gamma : (s.clearFault).gamma = s.gamma := rfl
@[simp] theorem State.clearFault_mem : (s.clearFault).mem = s.mem := rfl
@[simp] theorem State.clearFault_commandLost : (s.clearFault).commandLost = s.commandLost := rfl
@[simp] theorem State.clearFault_host : (s.clearFault).host = s.host := rfl
@[simp] theorem State.clearFault_log : (s.clearFault).log = s.log := rfl
@[simp] theorem State.clearFault_draws : (s.clearFault).draws = s.draws := rfl

/-! ### dropCommand -/

@[simp] theorem State.dropCommand_npix : (s.dropCommand).npix = s.npix := rfl
@[simp] theorem State.dropCommand_arg : (s.dropCommand).arg = s.arg := rfl
@[simp] theorem State.dropCommand_err : (s.dropCommand).err = s.err := rfl
@[simp] theorem State.dropCommand_drop : (s.dropCommand).drop = true := rfl
@[simp] theorem State.dropCommand_cause : (s.dropCommand).cause = s.cause := rfl
@[simp] theorem State.dropCommand_errInfo : (s.dropCommand).errInfo = s.errInfo := rfl
@[simp] theorem State.dropCommand_errArg : (s.dropCommand).errArg = s.errArg := rfl
@[simp] theorem State.dropCommand_mode : (s.dropCommand).mode = s.mode := rfl
@[simp] theorem State.dropCommand_level : (s.dropCommand).level = s.level := rfl
@[simp] theorem State.dropCommand_cc : (s.dropCommand).cc = s.cc := rfl
@[simp] theorem State.dropCommand_floor : (s.dropCommand).floor = s.floor := rfl
@[simp] theorem State.dropCommand_tvalid : (s.dropCommand).tvalid = s.tvalid := rfl
@[simp] theorem State.dropCommand_gamma : (s.dropCommand).gamma = s.gamma := rfl
@[simp] theorem State.dropCommand_mem : (s.dropCommand).mem = s.mem := rfl
@[simp] theorem State.dropCommand_commandLost : (s.dropCommand).commandLost = true := rfl
@[simp] theorem State.dropCommand_host : (s.dropCommand).host = s.host := rfl
@[simp] theorem State.dropCommand_log : (s.dropCommand).log = s.log := rfl
@[simp] theorem State.dropCommand_draws : (s.dropCommand).draws = s.draws := rfl

/-! ### setValid -/

@[simp] theorem State.setValid_npix (w : Nat) (v : Bool) : (s.setValid w v).npix = s.npix := rfl
@[simp] theorem State.setValid_arg (w : Nat) (v : Bool) : (s.setValid w v).arg = s.arg := rfl
@[simp] theorem State.setValid_err (w : Nat) (v : Bool) : (s.setValid w v).err = s.err := rfl
@[simp] theorem State.setValid_drop (w : Nat) (v : Bool) : (s.setValid w v).drop = s.drop := rfl
@[simp] theorem State.setValid_cause (w : Nat) (v : Bool) : (s.setValid w v).cause = s.cause := rfl
@[simp] theorem State.setValid_errInfo (w : Nat) (v : Bool) : (s.setValid w v).errInfo = s.errInfo := rfl
@[simp] theorem State.setValid_errArg (w : Nat) (v : Bool) : (s.setValid w v).errArg = s.errArg := rfl
@[simp] theorem State.setValid_mode (w : Nat) (v : Bool) : (s.setValid w v).mode = s.mode := rfl
@[simp] theorem State.setValid_level (w : Nat) (v : Bool) : (s.setValid w v).level = s.level := rfl
@[simp] theorem State.setValid_cc (w : Nat) (v : Bool) : (s.setValid w v).cc = s.cc := rfl
@[simp] theorem State.setValid_floor (w : Nat) (v : Bool) : (s.setValid w v).floor = s.floor := rfl
@[simp] theorem State.setValid_tvalid (w : Nat) (v : Bool) : (s.setValid w v).tvalid = putBit s.tvalid w v := rfl
@[simp] theorem State.setValid_gamma (w : Nat) (v : Bool) : (s.setValid w v).gamma = s.gamma := rfl
@[simp] theorem State.setValid_mem (w : Nat) (v : Bool) : (s.setValid w v).mem = s.mem := rfl
@[simp] theorem State.setValid_commandLost (w : Nat) (v : Bool) : (s.setValid w v).commandLost = s.commandLost := rfl
@[simp] theorem State.setValid_host (w : Nat) (v : Bool) : (s.setValid w v).host = s.host := rfl
@[simp] theorem State.setValid_log (w : Nat) (v : Bool) : (s.setValid w v).log = s.log := rfl
@[simp] theorem State.setValid_draws (w : Nat) (v : Bool) : (s.setValid w v).draws = s.draws := rfl

/-! ### dropInverse -/

@[simp] theorem State.dropInverse_npix (w : Nat) : (s.dropInverse w).npix = s.npix := rfl
@[simp] theorem State.dropInverse_arg (w : Nat) : (s.dropInverse w).arg = s.arg := rfl
@[simp] theorem State.dropInverse_err (w : Nat) : (s.dropInverse w).err = s.err := rfl
@[simp] theorem State.dropInverse_drop (w : Nat) : (s.dropInverse w).drop = s.drop := rfl
@[simp] theorem State.dropInverse_cause (w : Nat) : (s.dropInverse w).cause = s.cause := rfl
@[simp] theorem State.dropInverse_errInfo (w : Nat) : (s.dropInverse w).errInfo = s.errInfo := rfl
@[simp] theorem State.dropInverse_errArg (w : Nat) : (s.dropInverse w).errArg = s.errArg := rfl
@[simp] theorem State.dropInverse_mode (w : Nat) : (s.dropInverse w).mode = s.mode := rfl
@[simp] theorem State.dropInverse_level (w : Nat) : (s.dropInverse w).level = s.level := rfl
@[simp] theorem State.dropInverse_cc (w : Nat) : (s.dropInverse w).cc = s.cc := rfl
@[simp] theorem State.dropInverse_floor (w : Nat) : (s.dropInverse w).floor = s.floor := rfl
@[simp] theorem State.dropInverse_tvalid (w : Nat) : (s.dropInverse w).tvalid = if w < 3 then putBit s.tvalid (w + 4) false else s.tvalid := rfl
@[simp] theorem State.dropInverse_gamma (w : Nat) : (s.dropInverse w).gamma = s.gamma := rfl
@[simp] theorem State.dropInverse_mem (w : Nat) : (s.dropInverse w).mem = s.mem := rfl
@[simp] theorem State.dropInverse_commandLost (w : Nat) : (s.dropInverse w).commandLost = s.commandLost := rfl
@[simp] theorem State.dropInverse_host (w : Nat) : (s.dropInverse w).host = s.host := rfl
@[simp] theorem State.dropInverse_log (w : Nat) : (s.dropInverse w).log = s.log := rfl
@[simp] theorem State.dropInverse_draws (w : Nat) : (s.dropInverse w).draws = s.draws := rfl

/-! ### storeTable -/

@[simp] theorem State.storeTable_npix (w : Nat) (t : List Byte) : (s.storeTable w t).npix = s.npix := rfl
@[simp] theorem State.storeTable_arg (w : Nat) (t : List Byte) : (s.storeTable w t).arg = s.arg := rfl
@[simp] theorem State.storeTable_err (w : Nat) (t : List Byte) : (s.storeTable w t).err = s.err := rfl
@[simp] theorem State.storeTable_drop (w : Nat) (t : List Byte) : (s.storeTable w t).drop = s.drop := rfl
@[simp] theorem State.storeTable_cause (w : Nat) (t : List Byte) : (s.storeTable w t).cause = s.cause := rfl
@[simp] theorem State.storeTable_errInfo (w : Nat) (t : List Byte) : (s.storeTable w t).errInfo = s.errInfo := rfl
@[simp] theorem State.storeTable_errArg (w : Nat) (t : List Byte) : (s.storeTable w t).errArg = s.errArg := rfl
@[simp] theorem State.storeTable_mode (w : Nat) (t : List Byte) : (s.storeTable w t).mode = s.mode := rfl
@[simp] theorem State.storeTable_level (w : Nat) (t : List Byte) : (s.storeTable w t).level = s.level := rfl
@[simp] theorem State.storeTable_cc (w : Nat) (t : List Byte) : (s.storeTable w t).cc = s.cc := rfl
@[simp] theorem State.storeTable_floor (w : Nat) (t : List Byte) : (s.storeTable w t).floor = s.floor := rfl
@[simp] theorem State.storeTable_tvalid (w : Nat) (t : List Byte) : (s.storeTable w t).tvalid = s.tvalid := rfl
@[simp] theorem State.storeTable_gamma (w : Nat) (t : List Byte) : (s.storeTable w t).gamma = s.gamma := rfl
@[simp] theorem State.storeTable_mem (w : Nat) (t : List Byte) : (s.storeTable w t).mem = s.mem.store (tblAddr w 0) t := rfl
@[simp] theorem State.storeTable_commandLost (w : Nat) (t : List Byte) : (s.storeTable w t).commandLost = s.commandLost := rfl
@[simp] theorem State.storeTable_host (w : Nat) (t : List Byte) : (s.storeTable w t).host = s.host := rfl
@[simp] theorem State.storeTable_log (w : Nat) (t : List Byte) : (s.storeTable w t).log = s.log := rfl
@[simp] theorem State.storeTable_draws (w : Nat) (t : List Byte) : (s.storeTable w t).draws = s.draws := rfl

/-! ### storePixels -/

@[simp] theorem State.storePixels_npix (k : Nat) (ps : List Word) : (s.storePixels k ps).npix = s.npix := rfl
@[simp] theorem State.storePixels_arg (k : Nat) (ps : List Word) : (s.storePixels k ps).arg = s.arg := rfl
@[simp] theorem State.storePixels_err (k : Nat) (ps : List Word) : (s.storePixels k ps).err = s.err := rfl
@[simp] theorem State.storePixels_drop (k : Nat) (ps : List Word) : (s.storePixels k ps).drop = s.drop := rfl
@[simp] theorem State.storePixels_cause (k : Nat) (ps : List Word) : (s.storePixels k ps).cause = s.cause := rfl
@[simp] theorem State.storePixels_errInfo (k : Nat) (ps : List Word) : (s.storePixels k ps).errInfo = s.errInfo := rfl
@[simp] theorem State.storePixels_errArg (k : Nat) (ps : List Word) : (s.storePixels k ps).errArg = s.errArg := rfl
@[simp] theorem State.storePixels_mode (k : Nat) (ps : List Word) : (s.storePixels k ps).mode = s.mode := rfl
@[simp] theorem State.storePixels_level (k : Nat) (ps : List Word) : (s.storePixels k ps).level = s.level := rfl
@[simp] theorem State.storePixels_cc (k : Nat) (ps : List Word) : (s.storePixels k ps).cc = s.cc := rfl
@[simp] theorem State.storePixels_floor (k : Nat) (ps : List Word) : (s.storePixels k ps).floor = s.floor := rfl
@[simp] theorem State.storePixels_tvalid (k : Nat) (ps : List Word) : (s.storePixels k ps).tvalid = s.tvalid := rfl
@[simp] theorem State.storePixels_gamma (k : Nat) (ps : List Word) : (s.storePixels k ps).gamma = s.gamma := rfl
@[simp] theorem State.storePixels_mem (k : Nat) (ps : List Word) : (s.storePixels k ps).mem = s.mem.store (pixAddr k) (ps.flatMap wordBytes) := rfl
@[simp] theorem State.storePixels_commandLost (k : Nat) (ps : List Word) : (s.storePixels k ps).commandLost = s.commandLost := rfl
@[simp] theorem State.storePixels_host (k : Nat) (ps : List Word) : (s.storePixels k ps).host = s.host := rfl
@[simp] theorem State.storePixels_log (k : Nat) (ps : List Word) : (s.storePixels k ps).log = s.log := rfl
@[simp] theorem State.storePixels_draws (k : Nat) (ps : List Word) : (s.storePixels k ps).draws = s.draws := rfl

/-! ### respond -/

@[simp] theorem State.respond_npix (r : Response) : (s.respond r).npix = s.npix := rfl
@[simp] theorem State.respond_arg (r : Response) : (s.respond r).arg = s.arg := rfl
@[simp] theorem State.respond_err (r : Response) : (s.respond r).err = s.err := rfl
@[simp] theorem State.respond_drop (r : Response) : (s.respond r).drop = s.drop := rfl
@[simp] theorem State.respond_cause (r : Response) : (s.respond r).cause = s.cause := rfl
@[simp] theorem State.respond_errInfo (r : Response) : (s.respond r).errInfo = s.errInfo := rfl
@[simp] theorem State.respond_errArg (r : Response) : (s.respond r).errArg = s.errArg := rfl
@[simp] theorem State.respond_mode (r : Response) : (s.respond r).mode = s.mode := rfl
@[simp] theorem State.respond_level (r : Response) : (s.respond r).level = s.level := rfl
@[simp] theorem State.respond_cc (r : Response) : (s.respond r).cc = s.cc := rfl
@[simp] theorem State.respond_floor (r : Response) : (s.respond r).floor = s.floor := rfl
@[simp] theorem State.respond_tvalid (r : Response) : (s.respond r).tvalid = s.tvalid := rfl
@[simp] theorem State.respond_gamma (r : Response) : (s.respond r).gamma = s.gamma := rfl
@[simp] theorem State.respond_mem (r : Response) : (s.respond r).mem = s.mem := rfl
@[simp] theorem State.respond_commandLost (r : Response) : (s.respond r).commandLost = s.commandLost := rfl
@[simp] theorem State.respond_host (r : Response) : (s.respond r).host = s.host := rfl
@[simp] theorem State.respond_log (r : Response) : (s.respond r).log = s.log ++ [r] := rfl
@[simp] theorem State.respond_draws (r : Response) : (s.respond r).draws = s.draws := rfl

/-! ### writeCc -/

@[simp] theorem State.writeCc_npix (v : Word) : (s.writeCc v).npix = s.npix := rfl
@[simp] theorem State.writeCc_arg (v : Word) : (s.writeCc v).arg = s.arg := rfl
@[simp] theorem State.writeCc_err (v : Word) : (s.writeCc v).err = s.err := rfl
@[simp] theorem State.writeCc_drop (v : Word) : (s.writeCc v).drop = s.drop := rfl
@[simp] theorem State.writeCc_cause (v : Word) : (s.writeCc v).cause = s.cause := rfl
@[simp] theorem State.writeCc_errInfo (v : Word) : (s.writeCc v).errInfo = s.errInfo := rfl
@[simp] theorem State.writeCc_errArg (v : Word) : (s.writeCc v).errArg = s.errArg := rfl
@[simp] theorem State.writeCc_mode (v : Word) : (s.writeCc v).mode = s.mode := rfl
@[simp] theorem State.writeCc_level (v : Word) : (s.writeCc v).level = s.level := rfl
@[simp] theorem State.writeCc_cc (v : Word) : (s.writeCc v).cc = rgbOfWord v := rfl
@[simp] theorem State.writeCc_floor (v : Word) : (s.writeCc v).floor = floorsOf (rgbOfWord v) := rfl
@[simp] theorem State.writeCc_tvalid (v : Word) : (s.writeCc v).tvalid = s.tvalid := rfl
@[simp] theorem State.writeCc_gamma (v : Word) : (s.writeCc v).gamma = s.gamma := rfl
@[simp] theorem State.writeCc_mem (v : Word) : (s.writeCc v).mem = s.mem := rfl
@[simp] theorem State.writeCc_commandLost (v : Word) : (s.writeCc v).commandLost = s.commandLost := rfl
@[simp] theorem State.writeCc_host (v : Word) : (s.writeCc v).host = s.host := rfl
@[simp] theorem State.writeCc_log (v : Word) : (s.writeCc v).log = s.log := rfl
@[simp] theorem State.writeCc_draws (v : Word) : (s.writeCc v).draws = s.draws := rfl

/-! ### Entries and pixels after an update that leaves memory alone -/

@[simp] theorem State.entry_setValid (w : Nat) (v : Bool) (x i : Nat) : (s.setValid w v).entry x i = s.entry x i := rfl
@[simp] theorem State.entry_dropInverse (w x i : Nat) : (s.dropInverse w).entry x i = s.entry x i := rfl
@[simp] theorem State.entry_respond (r : Response) (x i : Nat) : (s.respond r).entry x i = s.entry x i := rfl
@[simp] theorem State.entry_raise (w : Word) (c : Cause) (x i : Nat) : (s.raise w c).entry x i = s.entry x i := rfl
@[simp] theorem State.pixel_setValid (w : Nat) (v : Bool) (k : Nat) : (s.setValid w v).pixel k = s.pixel k := rfl
@[simp] theorem State.pixel_dropInverse (w k : Nat) : (s.dropInverse w).pixel k = s.pixel k := rfl
@[simp] theorem State.pixel_respond (r : Response) (k : Nat) : (s.respond r).pixel k = s.pixel k := rfl
@[simp] theorem State.pixel_raise (w : Word) (c : Cause) (k : Nat) : (s.raise w c).pixel k = s.pixel k := rfl

end Sys2Proof.Machine
end

