-- ==== Sys2Proof/Laws/Ops.lean ====
section
/-! SUPPORT. The shared operations: what each can do, said once. -/

namespace Sys2Proof.Machine

/-! ### Commands: checks, then commit -/

/-- Everything `command` can do when it answers a next state: the fault of the first failing check, or the commit. -/
theorem State.command_next {s t : State} {w : Word} {checks : List (Bool × Cause)} {commit : State → Except Fault State}
    (h : s.command w checks commit = .next t) :
    (∃ c, checks.find? (fun c => c.1) = some c ∧ t = s.raise w c.2) ∨
      (checks.find? (fun c => c.1) = none ∧ commit s = .ok t) := by
  unfold State.command at h
  split at h
  · next c hc => cases h; exact .inl ⟨c, hc, rfl⟩
  · next hc =>
    split at h
    · next u hu => cases h; exact .inr ⟨hc, hu⟩
    · cases h

/-- A command stops only where its commit meets the model-only fault. -/
theorem State.command_fault {s : State} {w : Word} {checks : List (Bool × Cause)} {commit : State → Except Fault State}
    {f : Fault} (h : s.command w checks commit = .fault f) : commit s = .error f := by
  unfold State.command at h
  split at h
  · cases h
  · split at h
    · cases h
    · next e he => cases h; exact he

/-- No command is refused (60_exceptions.md R219). -/
theorem State.command_ne_refused (s : State) (w : Word) (checks : List (Bool × Cause)) (commit : State → Except Fault State)
    (r : Refusal) : s.command w checks commit ≠ .refused r := by
  unfold State.command
  split
  · simp
  · split <;> simp

/-- The first failing check is the fault. -/
theorem State.command_raise {s : State} {w : Word} {checks : List (Bool × Cause)} {commit : State → Except Fault State}
    {c : Bool × Cause} (h : checks.find? (fun c => c.1) = some c) : s.command w checks commit = .next (s.raise w c.2) := by
  unfold State.command
  rw [h]

/-- With no failing check the command is its commit. -/
theorem State.command_commit {s t : State} {w : Word} {checks : List (Bool × Cause)} {commit : State → Except Fault State}
    (h : checks.find? (fun c => c.1) = none) (hc : commit s = .ok t) : s.command w checks commit = .next t := by
  unfold State.command
  rw [h]
  simp only [hc]

/-! ### Valid bits -/

/-- Bit `x` after bit `w` was set or cleared. -/
theorem getLsbD_putBit : ∀ (t : BitVec 8) (w : Fin 8) (v : Bool) (x : Fin 8),
    (putBit t w.val v).getLsbD x.val = if x = w then v else t.getLsbD x.val := by
  intro t w v x
  have hx := x.isLt
  unfold putBit
  by_cases h : x = w
  · subst h
    cases v <;> simp
  · have h' : ¬ x.val = w.val := fun e => h (Fin.ext e)
    cases v
    · simp only [h, if_false, Bool.false_eq_true, BitVec.getLsbD_and, BitVec.getLsbD_not, BitVec.getLsbD_shiftLeft,
        BitVec.getLsbD_one]
      by_cases h1 : x.val < w.val
      · simp [h1, hx]
      · simp [h1, hx]; omega
    · simp only [h, if_false, if_true, BitVec.getLsbD_or, BitVec.getLsbD_shiftLeft, BitVec.getLsbD_one]
      by_cases h1 : x.val < w.val
      · simp [h1, hx]
      · simp [h1, hx]; omega

theorem State.valid_setValid (s : State) {w x : Nat} (hw : w < 8) (hx : x < 8) (v : Bool) :
    (s.setValid w v).valid x = if x = w then v else s.valid x := by
  have h := getLsbD_putBit s.tvalid ⟨w, hw⟩ v ⟨x, hx⟩
  simpa [State.valid, State.setValid, Fin.ext_iff] using h

/-- All bits of a mask are set just if the mask is in TVALID. -/
theorem State.tablesMissing_eq_false {s : State} {mask : BitVec 8} :
    s.tablesMissing mask = false ↔ ∀ w, w < 8 → mask.getLsbD w = true → s.valid w = true := by
  unfold State.tablesMissing State.valid
  rw [decide_eq_false_iff_not, not_not]
  constructor
  · intro h w hw hm
    rw [← h, BitVec.getLsbD_and] at hm
    exact (Bool.and_eq_true _ _ ▸ hm).1
  · intro h
    apply BitVec.eq_of_getLsbD_eq
    intro i hi
    rw [BitVec.getLsbD_and]
    cases hm : mask.getLsbD i
    · simp
    · simp [h i hi hm]

/-! ### Entries and pixels -/

theorem State.entry_ok {s : State} {w i : Nat} {b : Byte} : s.entry w i = .ok b ↔ s.mem.read (tblAddr w i) = some b := by
  unfold State.entry
  split <;> simp_all

theorem State.pixel_ok {s : State} {k : Nat} {p : Word} : s.pixel k = .ok p ↔ s.mem.readWord (pixAddr k) = some p := by
  unfold State.pixel
  split <;> simp_all

theorem State.entry_error {s : State} {w i : Nat} {f : Fault} (h : s.entry w i = .error f) :
    f = .tableNoValue w i ∧ s.mem.read (tblAddr w i) = none := by
  unfold State.entry at h
  split at h
  · cases h
  · next hn => cases h; exact ⟨rfl, hn⟩

theorem State.pixel_error {s : State} {k : Nat} {f : Fault} (h : s.pixel k = .error f) :
    f = .pixelNoValue k ∧ s.mem.readWord (pixAddr k) = none := by
  unfold State.pixel at h
  split at h
  · cases h
  · next hn => cases h; exact ⟨rfl, hn⟩

/-- Pixel words are stored above every table entry. -/
theorem State.entry_storePixels (s : State) (k : Nat) (ps : List Word) {w i : Nat} (hw : w < 8) (hi : i < 256) :
    (s.storePixels k ps).entry w i = s.entry w i := by
  unfold State.entry
  rw [State.storePixels_mem, Memory.read_store_outside _ (by unfold tblAddr pixAddr; omega)]

/-! ### Running `Except` -/

theorem Except.bind_ok {ε α β : Type} {x : Except ε α} {f : α → Except ε β} {b : β} :
    (x >>= f) = .ok b ↔ ∃ a, x = .ok a ∧ f a = .ok b := by
  cases x <;> simp [bind, Except.bind]

theorem Except.bind_error {ε α β : Type} {x : Except ε α} {f : α → Except ε β} {e : ε} :
    (x >>= f) = .error e ↔ x = .error e ∨ ∃ a, x = .ok a ∧ f a = .error e := by
  cases x <;> simp [bind, Except.bind]

/-! ### Range commands -/

/-- What `newPixels` answers: the new word of each pixel, in order. -/
theorem State.newPixels_ok {s : State} {f : Word → Except Fault Word} : ∀ {n k : Nat} {qs : List Word},
    s.newPixels f k n = .ok qs ↔
      qs.length = n ∧ ∀ j, j < n → ∃ p q, s.pixel (k + j) = .ok p ∧ f p = .ok q ∧ qs[j]? = some q
  | 0, k, qs => by
    unfold State.newPixels
    constructor
    · intro h; cases h; simp
    · rintro ⟨h, -⟩; rw [List.length_eq_zero_iff.mp h]
  | n + 1, k, qs => by
    unfold State.newPixels
    simp only [Except.bind_ok]
    constructor
    · rintro ⟨p, hp, q, hq, rest, hr, h⟩
      cases h
      obtain ⟨hl, hj⟩ := State.newPixels_ok.mp hr
      refine ⟨by simp [hl], fun j hjn => ?_⟩
      cases j with
      | zero => exact ⟨p, q, hp, hq, rfl⟩
      | succ j =>
        obtain ⟨p', q', h1, h2, h3⟩ := hj j (by omega)
        exact ⟨p', q', by rw [← h1]; congr 1; omega, h2, by simpa using h3⟩
    · rintro ⟨hl, hj⟩
      match qs, hl with
      | q :: rest, hl =>
        obtain ⟨p0, q0, h1, h2, h3⟩ := hj 0 (by omega)
        have hq : q = q0 := by simpa using h3
        refine ⟨p0, h1, q0, h2, rest, ?_, by rw [hq]⟩
        refine State.newPixels_ok.mpr ⟨by simpa using hl, fun j hjn => ?_⟩
        obtain ⟨p', q', h1, h2, h3⟩ := hj (j + 1) (by omega)
        exact ⟨p', q', by rw [← h1]; congr 1; omega, h2, by simpa using h3⟩

/-- The fault of `newPixels` is that of one pixel of the range. -/
theorem State.newPixels_error {s : State} {f : Word → Except Fault Word} {e : Fault} : ∀ {n k : Nat},
    s.newPixels f k n = .error e → ∃ j, j < n ∧ (s.pixel (k + j) = .error e ∨ ∃ p, s.pixel (k + j) = .ok p ∧ f p = .error e)
  | 0, k, h => by simp [State.newPixels] at h
  | n + 1, k, h => by
    unfold State.newPixels at h
    simp only [Except.bind_error] at h
    rcases h with h | ⟨p, hp, h | ⟨q, hq, h | ⟨qs, hqs, h⟩⟩⟩
    · exact ⟨0, by omega, .inl h⟩
    · exact ⟨0, by omega, .inr ⟨p, hp, h⟩⟩
    · obtain ⟨j, hj, hr⟩ := State.newPixels_error h
      refine ⟨j + 1, by omega, ?_⟩
      rw [show k + (j + 1) = k + 1 + j by omega]
      exact hr
    · cases h

/-- What a range command commits: each pixel of the range becomes `f` of its old word, and no other byte of memory and
no other field changes. -/
theorem State.mapPixels_ok {s t : State} {base count : Index} {f : Word → Except Fault Word}
    (h : s.mapPixels base count f = .ok t) :
    t = { s with mem := t.mem } ∧
      (∀ a, a < pixAddr base.toNat ∨ pixAddr (base.toNat + count.toNat) ≤ a → t.mem.read a = s.mem.read a) ∧
      ∀ k, base.toNat ≤ k → k < base.toNat + count.toNat →
        ∃ p q, s.pixel k = .ok p ∧ f p = .ok q ∧ t.pixel k = .ok q := by
  unfold State.mapPixels at h
  obtain ⟨qs, hq, ht⟩ := Except.bind_ok.mp h
  cases ht
  obtain ⟨hl, hj⟩ := State.newPixels_ok.mp hq
  refine ⟨rfl, fun a ha => ?_, fun k h1 h2 => ?_⟩
  · rw [State.storePixels_mem]
    apply Memory.read_store_outside
    rw [flatMap_wordBytes_length, hl]
    unfold pixAddr at *
    omega
  · obtain ⟨p, q, hp, hf, hg⟩ := hj (k - base.toNat) (by omega)
    have e : base.toNat + (k - base.toNat) = k := by omega
    rw [e] at hp
    refine ⟨p, q, hp, hf, State.pixel_ok.mpr ?_⟩
    have := Memory.readWord_storeWords s.mem base.toNat qs (i := k - base.toNat) (by omega)
    rw [e, hg] at this
    exact this

/-- A range command completes where every pixel of the range holds a value and has a new word. -/
theorem State.mapPixels_completes {s : State} {base count : Index} {f : Word → Except Fault Word}
    (h : ∀ k, base.toNat ≤ k → k < base.toNat + count.toNat → ∃ p q, s.pixel k = .ok p ∧ f p = .ok q) :
    ∃ t, s.mapPixels base count f = .ok t := by
  have key : ∀ n k, (∀ j, j < n → ∃ p q, s.pixel (k + j) = .ok p ∧ f p = .ok q) → ∃ qs, s.newPixels f k n = .ok qs := by
    intro n
    induction n with
    | zero => intro k _; exact ⟨[], rfl⟩
    | succ n ih =>
      intro k hk
      obtain ⟨p, q, hp, hq⟩ := hk 0 (by omega)
      obtain ⟨qs, hqs⟩ := ih (k + 1) (fun j hj => by
        rw [show k + 1 + j = k + (j + 1) by omega]; exact hk (j + 1) (by omega))
      refine ⟨q :: qs, ?_⟩
      unfold State.newPixels
      simp only [Except.bind_ok]
      exact ⟨p, hp, q, hq, qs, hqs, rfl⟩
  obtain ⟨qs, hqs⟩ := key count.toNat base.toNat (fun j hj => h _ (by omega) (by omega))
  exact ⟨_, Except.bind_ok.mpr ⟨qs, hqs, rfl⟩⟩

/-- The fault of a range command is that of one pixel of the range. -/
theorem State.mapPixels_error {s : State} {base count : Index} {f : Word → Except Fault Word} {e : Fault}
    (h : s.mapPixels base count f = .error e) :
    ∃ k, base.toNat ≤ k ∧ k < base.toNat + count.toNat ∧
      (s.pixel k = .error e ∨ ∃ p, s.pixel k = .ok p ∧ f p = .error e) := by
  unfold State.mapPixels at h
  rcases Except.bind_error.mp h with h | ⟨_, _, h⟩
  · obtain ⟨j, hj, hr⟩ := State.newPixels_error h
    exact ⟨_, by omega, by omega, hr⟩
  · cases h

/-! ### Pixel words -/

theorem chan_pixelWord (a r g b : Byte) :
    chan (pixelWord a r g b) 0 = r ∧ chan (pixelWord a r g b) 1 = g ∧ chan (pixelWord a r g b) 2 = b ∧
      auxb (pixelWord a r g b) = a := by
  have key : ∀ (x : Byte) (n : Nat), (∀ i, i < 8 → (pixelWord a r g b).getLsbD (n + i) = x.getLsbD i) →
      (pixelWord a r g b).extractLsb' n 8 = x := by
    intro x n h
    apply BitVec.eq_of_getLsbD_eq
    intro i hi
    rw [BitVec.getLsbD_extractLsb', h i hi]
    simp [hi]
  refine ⟨key r 16 ?_, key g 8 ?_, key b 0 ?_, key a 24 ?_⟩ <;> intro i hi <;>
    simp only [pixelWord, BitVec.getLsbD_append]
  · simp [hi, show ¬ 16 + i < 8 by omega, show ¬ 16 + i - 8 < 8 by omega,
      show 16 + i - 8 - 8 = i by omega]
  · simp [hi, show ¬ 8 + i < 8 by omega]
  · simp [hi]
  · simp [show ¬ 24 + i < 8 by omega, show ¬ 24 + i - 8 < 8 by omega, show ¬ 24 + i - 8 - 8 < 8 by omega,
      show 24 + i - 8 - 8 - 8 = i by omega]

/-- A pixel word is its auxiliary byte and its three channels. -/
theorem pixelWord_ext {p q : Word} (ha : auxb p = auxb q) (hc : ∀ c, c < 3 → chan p c = chan q c) : p = q := by
  rw [← wordOfBytes_wordBytes p, ← wordOfBytes_wordBytes q]
  have h0 := hc 0 (by omega)
  have h1 := hc 1 (by omega)
  have h2 := hc 2 (by omega)
  simp only [chan, auxb] at ha h0 h1 h2
  rw [ha, show p.extractLsb' 0 8 = q.extractLsb' 0 8 from h2, show p.extractLsb' 8 8 = q.extractLsb' 8 8 from h1,
    show p.extractLsb' 16 8 = q.extractLsb' 16 8 from h0]

/-- What `pixelOf` answers: the word with auxiliary byte `a` whose channels are the three results. -/
theorem pixelOf_ok {a : Byte} {f : Nat → Except Fault Byte} {q : Word} :
    pixelOf a f = .ok q ↔ auxb q = a ∧ ∀ c, c < 3 → f c = .ok (chan q c) := by
  unfold pixelOf
  simp only [Except.bind_ok]
  constructor
  · rintro ⟨r, hr, g, hg, b, hb, h⟩
    cases h
    obtain ⟨h0, h1, h2, h3⟩ := chan_pixelWord a r g b
    refine ⟨h3, fun c hc => ?_⟩
    match c, hc with
    | 0, _ => rw [h0, hr]
    | 1, _ => rw [h1, hg]
    | 2, _ => rw [h2, hb]
  · rintro ⟨ha, hc⟩
    refine ⟨_, hc 0 (by omega), _, hc 1 (by omega), _, hc 2 (by omega), ?_⟩
    congr 1
    obtain ⟨h0, h1, h2, h3⟩ := chan_pixelWord a (chan q 0) (chan q 1) (chan q 2)
    refine pixelWord_ext (by rw [h3, ha]) (fun c hc => ?_)
    match c, hc with
    | 0, _ => exact h0
    | 1, _ => exact h1
    | 2, _ => exact h2

theorem pixelOf_error {a : Byte} {f : Nat → Except Fault Byte} {e : Fault} (h : pixelOf a f = .error e) :
    ∃ c, c < 3 ∧ f c = .error e := by
  unfold pixelOf at h
  simp only [Except.bind_error] at h
  rcases h with h | ⟨_, _, h | ⟨_, _, h | ⟨_, _, h⟩⟩⟩
  · exact ⟨0, by omega, h⟩
  · exact ⟨1, by omega, h⟩
  · exact ⟨2, by omega, h⟩
  · cases h

end Sys2Proof.Machine
end

