-- ==== Sys2Proof/Laws/Commands.lean ====
section
/-! SUPPORT. Every command as its checks and its commit, what it can do said once, and what its commit keeps. -/

namespace Sys2Proof.Machine

/-! ### Checks and commit -/

/-- The checks of a command, in the order of 60_exceptions.md R202. -/
def checksOf (i : Instr) (s : State) : List (Bool × Cause) :=
  match i with
  | .build tid maxIn maxOut => [(maxIn == 0#8 || maxOut == 0#8, .badRange), (s.gammaBad tid.toNat, .badGamma)]
  | .invert tid maxOut => [(tid == 3#2, .illegalCmd), (maxOut == 0#8, .badRange), (!s.valid tid.toNat, .tableInvalid)]
  | .applyf base count => [(s.rangePast base count, .pixRange), s.applyfCheck]
  | .applyi base count => [(s.rangePast base count, .pixRange), (s.tablesMissing 0x70#8, .tableInvalid)]
  | .scale base count => [(s.rangePast base count, .pixRange), (s.tablesMissing 0x88#8, .tableInvalid)]
  | .scalef base count => [(s.rangePast base count, .pixRange), (s.tablesMissing 0x88#8, .tableInvalid)]
  | .floorg base count => [(s.rangePast base count, .pixRange)]
  | .blend dst a b _ =>
    [(s.indexPast dst || s.indexPast a || s.indexPast b, .pixRange), (s.tablesMissing 0x77#8, .tableInvalid)]

/-- The state after BUILD has committed (R102). -/
def buildCommit (tid : Tid) (maxIn maxOut : Byte) (s : State) : State :=
  ((s.storeTable tid.toNat (gammaTable maxIn maxOut (s.gamma.get tid.toNat))).setValid tid.toNat true).dropInverse tid.toNat

/-- The state after INVERT has committed the table `t` (R105). -/
def invertCommit (tid : Tid) (t : List Byte) (s : State) : State :=
  (s.storeTable (tid.toNat + 4) t).setValid (tid.toNat + 4) true

/-- What a command does once its checks have passed. -/
def commitOf (i : Instr) (s : State) : Except Fault State :=
  match i with
  | .build tid maxIn maxOut => .ok (buildCommit tid maxIn maxOut s)
  | .invert tid maxOut => do
    let t ← invertTable (fun i => s.entry tid.toNat i) maxOut.toNat
    .ok (invertCommit tid t s)
  | .applyf base count => s.mapPixels base count s.applyForward
  | .applyi base count => s.mapPixels base count s.applyInverse
  | .scale base count => s.mapPixels base count s.scalePixel
  | .scalef base count => s.mapPixels base count s.scaleGuardPixel
  | .floorg base count => s.mapPixels base count s.guardPixel
  | .blend dst a b amt => do
    let pa ← s.pixel a.toNat
    let pb ← s.pixel b.toNat
    let q ← s.blendPixels amt pa pb
    .ok (s.storePixels dst.toNat [q])

/-- Every command is its checks, then its commit. -/
theorem exec_eq (i : Instr) (s : State) : exec i s = s.command (encode i) (checksOf i s) (commitOf i) := by
  cases i <;> rfl

/-- Everything `exec` can do when it answers a next state. -/
theorem exec_next {i : Instr} {s t : State} (h : exec i s = .next t) :
    (∃ c, (checksOf i s).find? (fun c => c.1) = some c ∧ t = s.raise (encode i) c.2) ∨
      ((checksOf i s).find? (fun c => c.1) = none ∧ commitOf i s = .ok t) :=
  State.command_next (exec_eq i s ▸ h)

theorem exec_raise {i : Instr} {s : State} {c : Bool × Cause} (h : (checksOf i s).find? (fun c => c.1) = some c) :
    exec i s = .next (s.raise (encode i) c.2) :=
  (exec_eq i s).trans (State.command_raise h)

theorem exec_commit {i : Instr} {s t : State} (h : (checksOf i s).find? (fun c => c.1) = none) (hc : commitOf i s = .ok t) :
    exec i s = .next t :=
  (exec_eq i s).trans (State.command_commit h hc)

theorem exec_fault {i : Instr} {s : State} {f : Fault} (h : exec i s = .fault f) : commitOf i s = .error f :=
  State.command_fault (exec_eq i s ▸ h)

theorem exec_ne_refused (i : Instr) (s : State) (r : Refusal) : exec i s ≠ .refused r :=
  exec_eq i s ▸ State.command_ne_refused _ _ _ _ r

/-- With its checks passed, a command answers as its commit does. -/
theorem exec_passed {i : Instr} {s t : State} (h : (checksOf i s).find? (fun c => c.1) = none) :
    exec i s = .next t ↔ commitOf i s = .ok t := by
  constructor
  · intro hx
    rcases exec_next hx with ⟨c, hc, -⟩ | ⟨-, hc⟩
    · rw [h] at hc; cases hc
    · exact hc
  · exact exec_commit h

/-- The mask of check 5 as the list of its tables. -/
theorem State.tablesMissing_eq_any (s : State) (mask : BitVec 8) (l : List Nat)
    (hl : ∀ w, w < 8 → (w ∈ l ↔ mask.getLsbD w = true)) (h8 : ∀ w ∈ l, w < 8) :
    s.tablesMissing mask = l.any (fun w => !s.valid w) := by
  rw [Bool.eq_iff_iff, ← not_iff_not, Bool.not_eq_true, Bool.not_eq_true, State.tablesMissing_eq_false, List.any_eq_false]
  constructor
  · intro h w hw
    simp [h w (h8 w hw) ((hl w (h8 w hw)).mp hw)]
  · intro h w hw hm
    simpa using h w ((hl w hw).mpr hm)

/-! ### What a commit keeps -/

/-- A commit writes memory and TVALID and nothing else (30_encoding.md R93). -/
theorem commit_keeps {i : Instr} {s t : State} (h : commitOf i s = .ok t) :
    t = { s with mem := t.mem, tvalid := t.tvalid } := by
  have range : ∀ {base count : Index} {f : Word → Except Fault Word}, s.mapPixels base count f = .ok t →
      t = { s with mem := t.mem, tvalid := t.tvalid } := by
    intro base count f hm
    have e := (State.mapPixels_ok hm).1
    rw [e]
  cases i with
  | build tid maxIn maxOut => cases h; rfl
  | invert tid maxOut =>
    obtain ⟨l, -, h⟩ := Except.bind_ok.mp h
    cases h; rfl
  | applyf base count => exact range h
  | applyi base count => exact range h
  | scale base count => exact range h
  | scalef base count => exact range h
  | floorg base count => exact range h
  | blend dst a b amt =>
    obtain ⟨pa, -, h⟩ := Except.bind_ok.mp h
    obtain ⟨pb, -, h⟩ := Except.bind_ok.mp h
    obtain ⟨q, -, h⟩ := Except.bind_ok.mp h
    cases h; rfl

/-! ### The new pixel words -/

theorem State.applyForward_ok {s : State} {p q : Word} :
    s.applyForward p = .ok q ↔ auxb q = auxb p ∧ ∀ c, c < 3 → s.forwardChannel c (chan p c) = .ok (chan q c) :=
  pixelOf_ok

theorem State.applyInverse_ok {s : State} {p q : Word} :
    s.applyInverse p = .ok q ↔ auxb q = auxb p ∧ ∀ c, c < 3 → s.entry (c + 4) (chan p c).toNat = .ok (chan q c) :=
  pixelOf_ok

theorem State.scalePixel_ok {s : State} {p q : Word} :
    s.scalePixel p = .ok q ↔ ∃ f, s.entry 3 s.level.toNat = .ok f ∧ s.auxOf s.level = .ok (auxb q) ∧
      ∀ c, c < 3 → chan q c = scale8 (chan p c) f := by
  unfold State.scalePixel
  simp only [Except.bind_ok, pixelOf_ok]
  constructor
  · rintro ⟨f, hf, x, hx, ha, hc⟩
    exact ⟨f, hf, ha ▸ hx, fun c h => (Except.ok.inj (hc c h)).symm⟩
  · rintro ⟨f, hf, hx, hc⟩
    exact ⟨f, hf, _, hx, rfl, fun c h => congrArg _ (hc c h).symm⟩

theorem State.scaleGuardPixel_ok {s : State} {p q : Word} :
    s.scaleGuardPixel p = .ok q ↔ ∃ f, s.entry 3 s.level.toNat = .ok f ∧ s.auxOf s.level = .ok (auxb q) ∧
      ∀ c, c < 3 → chan q c = floorGuard (scale8 (chan p c) f) (s.floor.get c) := by
  unfold State.scaleGuardPixel
  simp only [Except.bind_ok, pixelOf_ok]
  constructor
  · rintro ⟨f, hf, x, hx, ha, hc⟩
    exact ⟨f, hf, ha ▸ hx, fun c h => (Except.ok.inj (hc c h)).symm⟩
  · rintro ⟨f, hf, hx, hc⟩
    exact ⟨f, hf, _, hx, rfl, fun c h => congrArg _ (hc c h).symm⟩

theorem State.guardPixel_ok {s : State} {p q : Word} :
    s.guardPixel p = .ok q ↔ auxb q = auxb p ∧ ∀ c, c < 3 → chan q c = floorGuard (chan p c) (s.floor.get c) := by
  unfold State.guardPixel
  rw [pixelOf_ok]
  constructor
  · rintro ⟨ha, hc⟩
    exact ⟨ha, fun c h => (Except.ok.inj (hc c h)).symm⟩
  · rintro ⟨ha, hc⟩
    exact ⟨ha, fun c h => congrArg _ (hc c h).symm⟩

theorem State.blendPixels_ok {s : State} {amt : Byte} {pa pb q : Word} :
    s.blendPixels amt pa pb = .ok q ↔ auxb q = auxb pa ∧ ∀ c, c < 3 → ∃ la lb,
      s.entry (c + 4) (chan pa c).toNat = .ok la ∧ s.entry (c + 4) (chan pb c).toNat = .ok lb ∧
        s.entry c (lerp la lb amt).toNat = .ok (chan q c) := by
  unfold State.blendPixels State.blendChannel
  rw [pixelOf_ok]
  simp only [Except.bind_ok]
  constructor
  · rintro ⟨ha, hc⟩
    refine ⟨ha, fun c h => ?_⟩
    obtain ⟨la, h1, lb, h2, h3⟩ := hc c h
    exact ⟨la, lb, h1, h2, h3⟩
  · rintro ⟨ha, hc⟩
    refine ⟨ha, fun c h => ?_⟩
    obtain ⟨la, lb, h1, h2, h3⟩ := hc c h
    exact ⟨la, h1, lb, h2, h3⟩

end Sys2Proof.Machine
end

