-- ==== Sys2Proof/Laws/Decode.lean ====
section
/-! SUPPORT. The fields of the three formats, and a word rebuilt from its fields (30_encoding.md R81 to R83). -/

namespace Sys2Proof

/-! ### The fields of an encoded word -/

/-- Bits of an append that lie in its high part. -/
theorem extract_high {m n : Nat} (x : BitVec m) (y : BitVec n) (k l : Nat) (h : n ≤ k) :
    (x ++ y).extractLsb' k l = x.extractLsb' (k - n) l :=
  BitVec.extractLsb'_append_eq_of_le h

/-- Bits of an append that lie in its low part. -/
theorem extract_low {m n : Nat} (x : BitVec m) (y : BitVec n) (k l : Nat) (h : k + l ≤ n) :
    (x ++ y).extractLsb' k l = y.extractLsb' k l :=
  BitVec.extractLsb'_append_eq_of_add_le h

theorem formatT_fields (opc : Byte) (tid : Tid) (maxIn maxOut : Byte) :
    opcField (formatT opc tid maxIn maxOut) = opc ∧ resField (formatT opc tid maxIn maxOut) = 0#6 ∧
      tidField (formatT opc tid maxIn maxOut) = tid ∧ maxInField (formatT opc tid maxIn maxOut) = maxIn ∧
      maxOutField (formatT opc tid maxIn maxOut) = maxOut := by
  refine ⟨?_, ?_, ?_, ?_, ?_⟩
  · show BitVec.extractLsb' 24 8 (opc ++ 0#6 ++ tid ++ maxIn ++ maxOut : BitVec (8 + 6 + 2 + 8 + 8)) = opc
    rw [extract_high _ _ _ _ (by decide), extract_high _ _ _ _ (by decide),
      extract_high _ _ _ _ (by decide), extract_high _ _ _ _ (by decide)]
    exact BitVec.extractLsb'_eq_self
  · show BitVec.extractLsb' 18 6 (opc ++ 0#6 ++ tid ++ maxIn ++ maxOut : BitVec (8 + 6 + 2 + 8 + 8)) = 0#6
    rw [extract_high _ _ _ _ (by decide), extract_high _ _ _ _ (by decide),
      extract_high _ _ _ _ (by decide), extract_low _ _ _ _ (by decide)]
    exact BitVec.extractLsb'_eq_self
  · show BitVec.extractLsb' 16 2 (opc ++ 0#6 ++ tid ++ maxIn ++ maxOut : BitVec (8 + 6 + 2 + 8 + 8)) = tid
    rw [extract_high _ _ _ _ (by decide), extract_high _ _ _ _ (by decide),
      extract_low _ _ _ _ (by decide)]
    exact BitVec.extractLsb'_eq_self
  · show BitVec.extractLsb' 8 8 (opc ++ 0#6 ++ tid ++ maxIn ++ maxOut : BitVec (8 + 6 + 2 + 8 + 8)) = maxIn
    rw [extract_high _ _ _ _ (by decide), extract_low _ _ _ _ (by decide)]
    exact BitVec.extractLsb'_eq_self
  · show BitVec.extractLsb' 0 8 (opc ++ 0#6 ++ tid ++ maxIn ++ maxOut : BitVec (8 + 6 + 2 + 8 + 8)) = maxOut
    rw [extract_low _ _ _ _ (by decide)]
    exact BitVec.extractLsb'_eq_self

theorem formatP_fields (opc : Byte) (base count : Index) :
    opcField (formatP opc base count) = opc ∧ highIndex (formatP opc base count) = base ∧
      lowIndex (formatP opc base count) = count := by
  refine ⟨?_, ?_, ?_⟩
  · show BitVec.extractLsb' 24 8 (opc ++ base ++ count : BitVec (8 + 12 + 12)) = opc
    rw [extract_high _ _ _ _ (by decide), extract_high _ _ _ _ (by decide)]
    exact BitVec.extractLsb'_eq_self
  · show BitVec.extractLsb' 12 12 (opc ++ base ++ count : BitVec (8 + 12 + 12)) = base
    rw [extract_high _ _ _ _ (by decide), extract_low _ _ _ _ (by decide)]
    exact BitVec.extractLsb'_eq_self
  · show BitVec.extractLsb' 0 12 (opc ++ base ++ count : BitVec (8 + 12 + 12)) = count
    rw [extract_low _ _ _ _ (by decide)]
    exact BitVec.extractLsb'_eq_self

theorem formatB_fields (opc amt : Byte) (dst : Index) :
    opcField (formatB opc amt dst) = opc ∧ amtField (formatB opc amt dst) = amt ∧
      blendResField (formatB opc amt dst) = 0#4 ∧ lowIndex (formatB opc amt dst) = dst := by
  refine ⟨?_, ?_, ?_, ?_⟩
  · show BitVec.extractLsb' 24 8 (opc ++ amt ++ 0#4 ++ dst : BitVec (8 + 8 + 4 + 12)) = opc
    rw [extract_high _ _ _ _ (by decide), extract_high _ _ _ _ (by decide),
      extract_high _ _ _ _ (by decide)]
    exact BitVec.extractLsb'_eq_self
  · show BitVec.extractLsb' 16 8 (opc ++ amt ++ 0#4 ++ dst : BitVec (8 + 8 + 4 + 12)) = amt
    rw [extract_high _ _ _ _ (by decide), extract_high _ _ _ _ (by decide),
      extract_low _ _ _ _ (by decide)]
    exact BitVec.extractLsb'_eq_self
  · show BitVec.extractLsb' 12 4 (opc ++ amt ++ 0#4 ++ dst : BitVec (8 + 8 + 4 + 12)) = 0#4
    rw [extract_high _ _ _ _ (by decide), extract_low _ _ _ _ (by decide)]
    exact BitVec.extractLsb'_eq_self
  · show BitVec.extractLsb' 0 12 (opc ++ amt ++ 0#4 ++ dst : BitVec (8 + 8 + 4 + 12)) = dst
    rw [extract_low _ _ _ _ (by decide)]
    exact BitVec.extractLsb'_eq_self

theorem operand_fields (a b : Index) :
    argResField (0#8 ++ a ++ b) = 0#8 ∧ highIndex (0#8 ++ a ++ b) = a ∧ lowIndex (0#8 ++ a ++ b) = b := by
  refine ⟨?_, ?_, ?_⟩
  · show BitVec.extractLsb' 24 8 (0#8 ++ a ++ b : BitVec (8 + 12 + 12)) = 0#8
    rw [extract_high _ _ _ _ (by decide), extract_high _ _ _ _ (by decide)]
    exact BitVec.extractLsb'_eq_self
  · show BitVec.extractLsb' 12 12 (0#8 ++ a ++ b : BitVec (8 + 12 + 12)) = a
    rw [extract_high _ _ _ _ (by decide), extract_low _ _ _ _ (by decide)]
    exact BitVec.extractLsb'_eq_self
  · show BitVec.extractLsb' 0 12 (0#8 ++ a ++ b : BitVec (8 + 12 + 12)) = b
    rw [extract_low _ _ _ _ (by decide)]
    exact BitVec.extractLsb'_eq_self

/-! ### A word rebuilt from its fields -/

theorem formatT_rebuild (w : Word) (h : resField w = 0#6) :
    formatT (opcField w) (tidField w) (maxInField w) (maxOutField w) = w := by
  unfold formatT
  rw [← h]
  unfold opcField resField tidField maxInField maxOutField
  rw [BitVec.extractLsb'_append_extractLsb'_eq_extractLsb' (by rfl), BitVec.extractLsb'_append_extractLsb'_eq_extractLsb' (by rfl),
    BitVec.extractLsb'_append_extractLsb'_eq_extractLsb' (by rfl), BitVec.extractLsb'_append_extractLsb'_eq_extractLsb' (by rfl)]
  exact BitVec.extractLsb'_eq_self

theorem formatP_rebuild (w : Word) : formatP (opcField w) (highIndex w) (lowIndex w) = w := by
  unfold formatP opcField highIndex lowIndex
  rw [BitVec.extractLsb'_append_extractLsb'_eq_extractLsb' (by rfl), BitVec.extractLsb'_append_extractLsb'_eq_extractLsb' (by rfl)]
  exact BitVec.extractLsb'_eq_self

theorem formatB_rebuild (w : Word) (h : blendResField w = 0#4) : formatB (opcField w) (amtField w) (lowIndex w) = w := by
  unfold formatB
  rw [← h]
  unfold opcField amtField blendResField lowIndex
  rw [BitVec.extractLsb'_append_extractLsb'_eq_extractLsb' (by rfl), BitVec.extractLsb'_append_extractLsb'_eq_extractLsb' (by rfl),
    BitVec.extractLsb'_append_extractLsb'_eq_extractLsb' (by rfl)]
  exact BitVec.extractLsb'_eq_self

theorem operand_rebuild (a : Word) (h : argResField a = 0#8) : (0#8 ++ highIndex a ++ lowIndex a : Word) = a := by
  rw [← h]
  unfold argResField highIndex lowIndex
  rw [BitVec.extractLsb'_append_extractLsb'_eq_extractLsb' (by rfl), BitVec.extractLsb'_append_extractLsb'_eq_extractLsb' (by rfl)]
  exact BitVec.extractLsb'_eq_self

/-! ### The opcode map (R85) -/

/-- What `decode` does with each opcode. -/
theorem decode_of_opcode (w a : Word) :
    (opcField w = 0x01#8 → decode w a = decodeBuild w) ∧ (opcField w = 0x02#8 → decode w a = decodeInvert w) ∧
    (opcField w = 0x10#8 → decode w a = .ok (.applyf (highIndex w) (lowIndex w))) ∧
    (opcField w = 0x11#8 → decode w a = .ok (.applyi (highIndex w) (lowIndex w))) ∧
    (opcField w = 0x20#8 → decode w a = .ok (.scale (highIndex w) (lowIndex w))) ∧
    (opcField w = 0x21#8 → decode w a = .ok (.scalef (highIndex w) (lowIndex w))) ∧
    (opcField w = 0x22#8 → decode w a = .ok (.floorg (highIndex w) (lowIndex w))) ∧
    (opcField w = 0x30#8 → decode w a = decodeBlend w a) ∧
    (opcField w ∉ [0x01#8, 0x02#8, 0x10#8, 0x11#8, 0x20#8, 0x21#8, 0x22#8, 0x30#8] → decode w a = .error .opcode) := by
  have other : opcField w ∉ [0x01#8, 0x02#8, 0x10#8, 0x11#8, 0x20#8, 0x21#8, 0x22#8, 0x30#8] →
      decode w a = .error .opcode := by
    intro h
    simp only [List.mem_cons, List.not_mem_nil, or_false, not_or] at h
    obtain ⟨h1, h2, h3, h4, h5, h6, h7, h8⟩ := h
    unfold decode
    rw [if_neg h1, if_neg h2, if_neg h3, if_neg h4, if_neg h5, if_neg h6, if_neg h7, if_neg h8]
  refine ⟨?_, ?_, ?_, ?_, ?_, ?_, ?_, ?_, other⟩ <;> intro h <;> unfold decode <;> rw [h] <;> simp

/-- BUILD is illegal just if its reserved bits are not 0 (R86). -/
theorem decodeBuild_error (w : Word) : (∃ e, decodeBuild w = .error e) ↔ resField w ≠ 0#6 := by
  unfold decodeBuild
  split <;> simp_all

/-- INVERT is illegal just if a reserved field is not 0 or TID is 3 (R86). -/
theorem decodeInvert_error (w : Word) :
    (∃ e, decodeInvert w = .error e) ↔ resField w ≠ 0#6 ∨ maxInField w ≠ 0#8 ∨ tidField w = 3#2 := by
  unfold decodeInvert
  split
  · simp_all
  · split
    · simp_all
    · split <;> simp_all

/-- BLEND is illegal just if a reserved field of its word or of ARG is not 0 (R86). -/
theorem decodeBlend_error (w a : Word) :
    (∃ e, decodeBlend w a = .error e) ↔ blendResField w ≠ 0#4 ∨ argResField a ≠ 0#8 := by
  unfold decodeBlend
  split
  · simp_all
  · split <;> simp_all

end Sys2Proof
end

