-- ==== Sys2Proof/Laws/Gamma.lean ====
section
/-! SUPPORT. `roundedPow` is exact: it is round_half_up of the real power (40_table_generation.md R101, R104). -/

namespace Sys2Proof.Machine

open Real

/-! ### The bounds -/

/-- `s` bounds the real number `v`. -/
def Span.Bounds (s : Span) (v : ℝ) : Prop :=
  (s.lo : ℝ) ≤ v * spanUnit ∧ v * spanUnit ≤ s.hi

theorem spanUnit_pos : (0 : ℝ) < spanUnit := by norm_num [spanUnit]

theorem spanUnit_natPos : 0 < spanUnit := by norm_num [spanUnit]

theorem natDiv_le_real (a b : Nat) : ((a / b : Nat) : ℝ) ≤ (a : ℝ) / b := Nat.cast_div_le

theorem real_le_natDiv_succ (a b : Nat) (hb : 0 < b) : (a : ℝ) / b ≤ ((a / b + 1 : Nat) : ℝ) := by
  rw [div_le_iff₀ (by exact_mod_cast hb)]
  have h := Nat.lt_mul_div_succ a hb
  exact_mod_cast (by rw [Nat.mul_comm]; exact h.le)

theorem Span.bounds_one : Span.one.Bounds 1 := by simp [Span.Bounds, Span.one]

theorem Span.bounds_ratio (p q : Nat) (hq : 0 < q) : (Span.ratio p q).Bounds ((p : ℝ) / q) := by
  have e : (p : ℝ) / q * spanUnit = ((p * spanUnit : Nat) : ℝ) / q := by push_cast; ring
  unfold Span.Bounds Span.ratio
  rw [e]
  exact ⟨natDiv_le_real _ _, real_le_natDiv_succ _ _ hq⟩

theorem Span.bounds_mul {a b : Span} {u v : ℝ} (hu : 0 ≤ u) (hv : 0 ≤ v) (ha : a.Bounds u) (hb : b.Bounds v) :
    (a.mul b).Bounds (u * v) := by
  have U := spanUnit_pos
  obtain ⟨a1, a2⟩ := ha
  obtain ⟨b1, b2⟩ := hb
  have e : u * v * spanUnit = (u * spanUnit) * (v * spanUnit) / spanUnit := by field_simp
  unfold Span.Bounds Span.mul
  rw [e]
  constructor
  · refine (natDiv_le_real _ _).trans ?_
    push_cast
    gcongr
  · refine le_trans ?_ (real_le_natDiv_succ _ _ spanUnit_natPos)
    push_cast
    gcongr

theorem sqrtLow_sq (n a : Nat) : sqrtLow n a * sqrtLow n a ≤ n := by
  unfold sqrtLow
  dsimp only
  split
  · assumption
  · simp

theorem le_sqrtHigh_sq (n a : Nat) : n ≤ sqrtHigh n a * sqrtHigh n a := by
  unfold sqrtHigh
  dsimp only
  split
  · assumption
  · split
    · assumption
    · exact Nat.le_mul_self n

theorem Span.bounds_sqrtMul {a b : Span} {u v : ℝ} (hu : 0 ≤ u) (hv : 0 ≤ v) (ha : a.Bounds u) (hb : b.Bounds v) :
    (a.sqrtMul b).Bounds (√(u * v)) := by
  have U := spanUnit_pos
  obtain ⟨a1, a2⟩ := ha
  obtain ⟨b1, b2⟩ := hb
  have e : √(u * v) * spanUnit = √((u * spanUnit) * (v * spanUnit)) := by
    have : (u * spanUnit) * (v * spanUnit) = (u * v) * (spanUnit : ℝ) ^ 2 := by ring
    rw [this, Real.sqrt_mul (by positivity) ((spanUnit : ℝ) ^ 2), Real.sqrt_sq U.le]
  unfold Span.Bounds Span.sqrtMul
  rw [e]
  constructor
  · apply Real.le_sqrt_of_sq_le
    have h := sqrtLow_sq (a.lo * b.lo) ((a.lo + b.lo) / 2 + 1)
    have h' : ((sqrtLow (a.lo * b.lo) ((a.lo + b.lo) / 2 + 1) : Nat) : ℝ) ^ 2 ≤ (a.lo : ℝ) * b.lo := by
      rw [sq]; exact_mod_cast h
    refine h'.trans ?_
    gcongr
  · apply Real.sqrt_le_iff.mpr
    refine ⟨by positivity, ?_⟩
    have h := le_sqrtHigh_sq (a.hi * b.hi) ((a.hi + b.hi) / 2 + 1)
    have h' : (a.hi : ℝ) * b.hi ≤ ((sqrtHigh (a.hi * b.hi) ((a.hi + b.hi) / 2 + 1) : Nat) : ℝ) ^ 2 := by
      rw [sq]; exact_mod_cast h
    refine le_trans ?_ h'
    gcongr

/-- Splitting off the top bit: num mod 2^(n+1) = num mod 2^n + 2^n * (bit n). -/
theorem mod_two_pow_succ_real (num n : Nat) :
    ((num % 2 ^ (n + 1) : Nat) : ℝ) / 2 ^ (n + 1)
      = (((num % 2 ^ n : Nat) : ℝ) / 2 ^ n + if num.testBit n then 1 else 0) / 2 := by
  have h : num % 2 ^ (n + 1) = num % 2 ^ n + 2 ^ n * (num.testBit n).toNat := by
    rw [Nat.mod_pow_succ, Nat.toNat_testBit]
  rw [h]
  push_cast
  cases num.testBit n <;> simp <;> field_simp <;> ring

theorem Span.bounds_fracPow {x : Span} {u : ℝ} (hu : 0 < u) (hx : x.Bounds u) (num : Nat) :
    ∀ n, (x.fracPow num n).Bounds (u ^ (((num % 2 ^ n : Nat) : ℝ) / 2 ^ n))
  | 0 => by simpa [Span.fracPow, Nat.mod_one] using Span.bounds_one
  | n + 1 => by
    have ih := Span.bounds_fracPow hu hx num n
    have hb : (if num.testBit n then x else Span.one).Bounds (u ^ (if num.testBit n then (1 : ℝ) else 0)) := by
      split
      · simpa using hx
      · simpa using Span.bounds_one
    have h := Span.bounds_sqrtMul (by positivity) (by positivity) ih hb
    rw [mod_two_pow_succ_real]
    rw [Real.sqrt_eq_rpow, ← Real.rpow_add hu, ← Real.rpow_mul hu.le] at h
    rw [Span.fracPow, div_eq_mul_one_div _ (2 : ℝ)]
    exact h

theorem Span.bounds_natPow :
    ∀ (fuel k : Nat) {x : Span} {u : ℝ}, 0 ≤ u → u ≤ 1 → x.Bounds u → (Span.natPow fuel x k).Bounds (u ^ k)
  | 0, k, x, u, h0, h1, _ => by
    unfold Span.natPow
    split
    · next h => subst h; simpa using Span.bounds_one
    · refine ⟨by simp; positivity, ?_⟩
      have := pow_le_one₀ (n := k) h0 h1
      have U := spanUnit_pos
      nlinarith
  | fuel + 1, k, x, u, h0, h1, hx => by
    unfold Span.natPow
    split
    · next h => subst h; simpa using Span.bounds_one
    · have ih := Span.bounds_natPow fuel (k / 2) (x := x.mul x) (u := u * u) (by positivity)
        (mul_le_one₀ h1 h0 h1) (Span.bounds_mul h0 h0 hx hx)
      have e : (u * u) ^ (k / 2) = u ^ (2 * (k / 2)) := by rw [← sq, ← pow_mul]
      dsimp only
      split
      · have h := Span.bounds_mul h0 (by positivity) hx ih
        rw [e, ← pow_succ'] at h
        rwa [show 2 * (k / 2) + 1 = k by omega] at h
      · rw [e] at ih
        rwa [show 2 * (k / 2) = k by omega] at ih

/-- The real exponent. -/
noncomputable def Exponent.real (g : Exponent) : ℝ := (g.num : ℝ) / 2 ^ g.shift

theorem Exponent.real_split (g : Exponent) :
    ((g.num / 2 ^ g.shift : Nat) : ℝ) + ((g.num % 2 ^ g.shift : Nat) : ℝ) / 2 ^ g.shift = g.real := by
  have h : ((2 ^ g.shift * (g.num / 2 ^ g.shift) + g.num % 2 ^ g.shift : Nat) : ℝ) = g.num := by
    exact_mod_cast Nat.div_add_mod g.num (2 ^ g.shift)
  unfold Exponent.real
  rw [← h]
  push_cast
  field_simp

theorem Span.bounds_pow {p q : Nat} (hp : 0 < p) (hpq : p < q) (g : Exponent) :
    (Span.pow p q g).Bounds (((p : ℝ) / q) ^ g.real) := by
  have hp' : (0 : ℝ) < p := by exact_mod_cast hp
  have hq' : (0 : ℝ) < q := by exact_mod_cast hp.trans hpq
  have hu : (0 : ℝ) < (p : ℝ) / q := by positivity
  have h1 : (p : ℝ) / q ≤ 1 := by rw [div_le_one hq']; exact_mod_cast hpq.le
  have hr := Span.bounds_ratio p q (hp.trans hpq)
  have h := Span.bounds_mul (by positivity) (by positivity)
    (Span.bounds_natPow 160 (g.num / 2 ^ g.shift) hu.le h1 hr) (Span.bounds_fracPow hu hr g.num g.shift)
  rw [← Real.rpow_natCast, ← Real.rpow_add hu, Exponent.real_split] at h
  exact h

/-! ### Rounding -/

theorem roundBound_eq_floor (n maxOut : Nat) :
    roundBound n maxOut = ⌊(n : ℝ) / spanUnit * maxOut + 1 / 2⌋₊ := by
  have U := spanUnit_pos
  have e : (n : ℝ) / spanUnit * maxOut + 1 / 2
      = ((2 * n * maxOut + spanUnit : Nat) : ℝ) / ((2 * spanUnit : Nat) : ℝ) := by
    push_cast; field_simp
  rw [e, Nat.floor_div_eq_div, roundBound]

theorem Span.Bounds.round {s : Span} {v : ℝ} (h : s.Bounds v) (maxOut : Nat) :
    roundBound s.lo maxOut ≤ ⌊v * maxOut + 1 / 2⌋₊ ∧ ⌊v * maxOut + 1 / 2⌋₊ ≤ roundBound s.hi maxOut := by
  have U := spanUnit_pos
  rw [roundBound_eq_floor, roundBound_eq_floor]
  constructor
  · apply Nat.floor_mono
    have : (s.lo : ℝ) / spanUnit ≤ v := by rw [div_le_iff₀ U]; exact h.1
    gcongr
  · apply Nat.floor_mono
    have : v ≤ (s.hi : ℝ) / spanUnit := by rw [le_div_iff₀ U]; exact h.2
    gcongr

/-! ### The exact comparison -/

theorem powGe_iff {p q maxOut k : Nat} (hp : 0 < p) (hq : 0 < q) (hm : 0 < maxOut) (hk : 0 < k) (g : Exponent) :
    powGe p q g maxOut k = true ↔ k ≤ ⌊((p : ℝ) / q) ^ g.real * maxOut + 1 / 2⌋₊ := by
  have hp' : (0 : ℝ) < p := by exact_mod_cast hp
  have hq' : (0 : ℝ) < q := by exact_mod_cast hq
  have hm' : (0 : ℝ) < maxOut := by exact_mod_cast hm
  have hk' : (1 : ℝ) ≤ k := by exact_mod_cast hk
  have h2 : (0 : ℝ) ≤ 2 * k - 1 := by linarith
  have hN : (2 ^ g.shift : ℕ) ≠ 0 := by positivity
  have hx : (0 : ℝ) ≤ ((p : ℝ) / q) ^ g.real := by positivity
  have hpow : (((p : ℝ) / q) ^ g.real) ^ (2 ^ g.shift : ℕ) = ((p : ℝ) / q) ^ g.num := by
    rw [← Real.rpow_natCast, ← Real.rpow_mul (by positivity), ← Real.rpow_natCast]
    congr 1
    unfold Exponent.real
    push_cast
    field_simp
  rw [Nat.le_floor_iff (by positivity), powGe, decide_eq_true_iff]
  have e1 : (k : ℝ) ≤ ((p : ℝ) / q) ^ g.real * maxOut + 1 / 2 ↔ (2 * k - 1) / (2 * maxOut) ≤ ((p : ℝ) / q) ^ g.real := by
    rw [div_le_iff₀ (by positivity)]
    constructor <;> intro h <;> linarith
  have e2 : ((2 * k - 1) / (2 * maxOut) : ℝ) ≤ ((p : ℝ) / q) ^ g.real
      ↔ ((2 * k - 1) / (2 * maxOut) : ℝ) ^ (2 ^ g.shift : ℕ) ≤ ((p : ℝ) / q) ^ g.num := by
    rw [← hpow]
    exact (pow_le_pow_iff_left₀ (by positivity) hx hN).symm
  rw [e1, e2, div_pow, div_pow, div_le_div_iff₀ (by positivity) (by positivity)]
  have c : ((2 * k - 1 : Nat) : ℝ) = 2 * (k : ℝ) - 1 := by
    rw [Nat.cast_sub (by omega)]; push_cast; ring
  rw [← c]
  exact_mod_cast Iff.rfl

/-- Bisection finds the last place where a condition holds that holds exactly up to `m`. -/
theorem greatest_eq (holds : Nat → Bool) (m : Nat) :
    ∀ n k, k ≤ m → m < k + 2 ^ n → (∀ j, k < j → (holds j = true ↔ j ≤ m)) → greatest holds n k = m
  | 0, k, h1, h2, _ => by simp [greatest] at *; omega
  | n + 1, k, h1, h2, h => by
    have hs : 2 ^ (n + 1) = 2 ^ n + 2 ^ n := by ring
    have hpos : 0 < 2 ^ n := by positivity
    unfold greatest
    split
    · next hh =>
      have hle := (h _ (by omega)).mp hh
      exact greatest_eq holds m n _ hle (by omega) (fun j hj => h j (by omega))
    · next hh =>
      have hgt : ¬ k + 2 ^ n ≤ m := fun hle => hh ((h _ (by omega)).mpr hle)
      exact greatest_eq holds m n k h1 (by omega) h

/-- The rounded power never passes `maxOut`. -/
theorem floor_pow_le {x r : ℝ} (h0 : 0 ≤ x) (h1 : x ≤ 1) (hr : 0 ≤ r) (m : Nat) : ⌊x ^ r * m + 1 / 2⌋₊ ≤ m := by
  have hx := Real.rpow_le_one h0 h1 hr
  have hm : (0 : ℝ) ≤ m := by positivity
  have : x ^ r * m ≤ m := by nlinarith
  have h : ⌊x ^ r * m + 1 / 2⌋₊ < m + 1 := by
    rw [Nat.floor_lt (by positivity)]
    push_cast
    linarith
  omega

theorem Exponent.real_nonneg (g : Exponent) : 0 ≤ g.real := by unfold Exponent.real; positivity

/-- The exact comparison gives round_half_up of the real power (R104). -/
theorem roundedPowExact_eq_floor {p q maxOut : Nat} (hp : 0 < p) (hpq : p < q) (hm : 0 < maxOut) (hm' : maxOut < 256)
    (g : Exponent) : roundedPowExact p q g maxOut = ⌊((p : ℝ) / q) ^ g.real * maxOut + 1 / 2⌋₊ := by
  have hq : 0 < q := hp.trans hpq
  have hq' : (0 : ℝ) < q := by exact_mod_cast hq
  have h1 : (p : ℝ) / q ≤ 1 := by rw [div_le_one hq']; exact_mod_cast hpq.le
  have hle := floor_pow_le (x := (p : ℝ) / q) (by positivity) h1 g.real_nonneg maxOut
  refine greatest_eq _ _ 8 0 (Nat.zero_le _) (by omega) (fun j hj => ?_)
  rw [Bool.and_eq_true, decide_eq_true_iff, powGe_iff hp hq hm hj]
  constructor
  · exact fun h => h.2
  · exact fun h => ⟨h.trans hle, h⟩

/-- `roundedPow` is round_half_up of the real power (R101, R104), whichever way it was computed. -/
theorem roundedPow_eq_floor {p q maxOut : Nat} (hp : 0 < p) (hpq : p < q) (hm : 0 < maxOut) (hm' : maxOut < 256)
    (g : Exponent) : roundedPow p q g maxOut = ⌊((p : ℝ) / q) ^ g.real * maxOut + 1 / 2⌋₊ := by
  unfold roundedPow
  split
  · exact roundedPowExact_eq_floor hp hpq hm hm' g
  · dsimp only
    split
    · next h =>
      obtain ⟨h1, h2⟩ := (Span.bounds_pow hp hpq g).round maxOut
      rw [← h] at h2
      exact le_antisymm h1 h2
    · exact roundedPowExact_eq_floor hp hpq hm hm' g

/-! ### The exponent of a binary32 pattern -/

theorem stripTwos_spec : ∀ fuel m, m = (stripTwos fuel m).1 * 2 ^ (stripTwos fuel m).2
  | 0, m => by simp [stripTwos]
  | fuel + 1, m => by
    unfold stripTwos
    split
    · next h =>
      have ih := stripTwos_spec fuel (m / 2)
      dsimp only
      rw [pow_succ, ← mul_assoc, ← ih]
      omega
    · simp

/-- The dyadic exponent is the binary32 value (00_scope.md R12, R104). -/
theorem gammaExponent_real {b : Word} (h : b.getLsbD 31 = false) : (gammaExponent b).real = ((f32val b : ℚ) : ℝ) := by
  have hs := stripTwos_spec 24 (f32Mant b)
  have hs' : (f32Mant b : ℝ) = ((stripTwos 24 (f32Mant b)).1 : ℝ) * 2 ^ (stripTwos 24 (f32Mant b)).2 := by
    exact_mod_cast congrArg (Nat.cast (R := ℝ)) hs
  have hv : ((f32val b : ℚ) : ℝ) = (f32Mant b : ℝ) * (2 : ℝ) ^ (((max (f32Exp b) 1 : ℕ) : ℤ) - 150) := by
    unfold f32val
    rw [h]
    push_cast
    simp
  rw [hv, hs']
  unfold gammaExponent Exponent.real
  dsimp only
  generalize stripTwos 24 (f32Mant b) = r
  generalize max (f32Exp b) 1 = e
  split
  · next hge =>
    have hz : ((e : ℤ) - 150) = ((e + r.2 - 150 : ℕ) : ℤ) - (r.2 : ℤ) := by omega
    rw [hz, zpow_sub₀ (by norm_num), zpow_natCast, zpow_natCast]
    push_cast
    field_simp
  · next hlt =>
    have hz : ((e : ℤ) - 150) = -((150 - (e + r.2) : ℕ) : ℤ) - (r.2 : ℤ) := by omega
    rw [hz, zpow_sub₀ (by norm_num), zpow_neg, zpow_natCast, zpow_natCast]
    field_simp

end Sys2Proof.Machine
end

