-- ==== Sys2Proof/Laws/Operands.lean ====
section
/-! SUPPORT. The per-channel functions as numbers, and the pixel word with given fields. -/

namespace Sys2Proof.Machine

/-- scale8 never wraps (42_brightness_floor.md R152). -/
theorem scale8_toNat (v f : Byte) : (scale8 v f).toNat = (2 * v.toNat * f.toNat + 255) / 510 := by
  unfold scale8
  rw [BitVec.toNat_ofNat]
  apply Nat.mod_eq_of_lt
  have hv := v.isLt
  have hf := f.isLt
  have h : v.toNat * f.toNat ≤ 255 * 255 := Nat.mul_le_mul (by omega) (by omega)
  rw [Nat.mul_assoc]
  omega

/-- lerp never wraps (43_blend.md R180). -/
theorem lerp_toNat (la lb t : Byte) :
    (lerp la lb t).toNat = (2 * (la.toNat * (255 - t.toNat) + lb.toNat * t.toNat) + 255) / 510 := by
  unfold lerp
  rw [BitVec.toNat_ofNat]
  apply Nat.mod_eq_of_lt
  have ha := la.isLt
  have hb := lb.isLt
  have ht := t.isLt
  have h1 : la.toNat * (255 - t.toNat) ≤ 255 * (255 - t.toNat) := Nat.mul_le_mul (by omega) le_rfl
  have h2 : lb.toNat * t.toNat ≤ 255 * t.toNat := Nat.mul_le_mul (by omega) le_rfl
  omega

/-- floorOf of a nonzero factor never wraps (R150). -/
theorem floorOf_toNat {f : Byte} (h : f ≠ 0#8) : (floorOf f).toNat = (255 + f.toNat - 1) / f.toNat := by
  have hf := f.isLt
  have h0 : 0 < f.toNat := Nat.pos_of_ne_zero (fun e => h (BitVec.eq_of_toNat_eq e))
  have hle : (255 + f.toNat - 1) / f.toNat ≤ 255 := by
    rw [Nat.div_le_iff_le_mul_add_pred h0]
    omega
  unfold floorOf
  rw [if_neg h, BitVec.toNat_ofNat]
  apply Nat.mod_eq_of_lt
  omega

/-- The guard by numbers (R154). -/
theorem floorGuard_eq (v m : Byte) : floorGuard v m = if 0 < v.toNat ∧ v.toNat < m.toNat then m else v := by
  unfold floorGuard
  simp only [BitVec.lt_def]
  rfl

/-- There is a pixel word with given fields. -/
theorem exists_pixelWord (a : Byte) (f : Nat → Byte) : ∃ q : Word, auxb q = a ∧ ∀ c, c < 3 → chan q c = f c := by
  obtain ⟨h0, h1, h2, h3⟩ := chan_pixelWord a (f 0) (f 1) (f 2)
  refine ⟨_, h3, fun c hc => ?_⟩
  match c, hc with
  | 0, _ => exact h0
  | 1, _ => exact h1
  | 2, _ => exact h2

/-- A pixel word is built from its three channels only. -/
theorem pixelOf_congr {a : Byte} {f g : Nat → Except Fault Byte} (h : ∀ c, c < 3 → f c = g c) : pixelOf a f = pixelOf a g := by
  unfold pixelOf
  rw [h 0 (by omega), h 1 (by omega), h 2 (by omega)]

/-- The auxiliary byte of a level (R153). -/
theorem State.auxOf_ok {s : State} {l x : Byte} :
    s.auxOf l = .ok x ↔ (l = 0#8 ∧ x = 0#8) ∨
      (l ≠ 0#8 ∧ ∃ y, s.entry 7 l.toNat = .ok y ∧ x = if y = 0#8 then 1#8 else y) := by
  unfold State.auxOf
  split
  · next h =>
    constructor
    · intro e; cases e; exact .inl ⟨h, rfl⟩
    · rintro (⟨-, rfl⟩ | ⟨h', -⟩)
      · rfl
      · exact absurd h h'
  · next h =>
    rw [Except.bind_ok]
    constructor
    · rintro ⟨y, hy, e⟩; cases e; exact .inr ⟨h, y, hy, rfl⟩
    · rintro (⟨h', -⟩ | ⟨-, y, hy, rfl⟩)
      · exact absurd h' h
      · exact ⟨y, hy, rfl⟩

end Sys2Proof.Machine
end

