-- ==== Sys2Proof/Laws/PerInstr.lean ====
section
/-! SUPPORT. One statement per instruction: the fixed fields of its encoding are those of its row of opcode_table.json. -/

namespace Sys2Proof.Laws

/-- The opcode byte of the instruction's row (30_encoding.md R85). -/
def rowOpcode : Instr → Byte
  | .build _ _ _ => 0x01#8
  | .invert _ _ => 0x02#8
  | .applyf _ _ => 0x10#8
  | .applyi _ _ => 0x11#8
  | .scale _ _ => 0x20#8
  | .scalef _ _ => 0x21#8
  | .floorg _ _ => 0x22#8
  | .blend _ _ _ _ => 0x30#8

/-- The reserved fields of the instruction's row read 0 (R81, R83). -/
def reservedClear : Instr → Prop
  | .build tid maxIn maxOut => resField (encode (.build tid maxIn maxOut)) = 0#6
  | .invert tid maxOut => resField (encode (.invert tid maxOut)) = 0#6 ∧ maxInField (encode (.invert tid maxOut)) = 0#8
  | .applyf _ _ => True
  | .applyi _ _ => True
  | .scale _ _ => True
  | .scalef _ _ => True
  | .floorg _ _ => True
  | .blend dst a b amt => blendResField (encode (.blend dst a b amt)) = 0#4 ∧ argResField (0#8 ++ a ++ b) = 0#8

/-- What holds of every instruction as syntax: its command word is a word of its own row. -/
def TableRow.Statement (i : Instr) : Prop := opcField (encode i) = rowOpcode i ∧ reservedClear i

theorem TableRow.build (tid : Tid) (maxIn maxOut : Byte) : TableRow.Statement (.build tid maxIn maxOut) :=
  have h := formatT_fields 0x01#8 tid maxIn maxOut
  ⟨h.1, h.2.1⟩

theorem TableRow.invert (tid : Tid) (maxOut : Byte) : TableRow.Statement (.invert tid maxOut) :=
  have h := formatT_fields 0x02#8 tid 0#8 maxOut
  ⟨h.1, h.2.1, h.2.2.2.1⟩

theorem TableRow.applyf (base count : Index) : TableRow.Statement (.applyf base count) :=
  ⟨(formatP_fields 0x10#8 base count).1, trivial⟩

theorem TableRow.applyi (base count : Index) : TableRow.Statement (.applyi base count) :=
  ⟨(formatP_fields 0x11#8 base count).1, trivial⟩

theorem TableRow.scale (base count : Index) : TableRow.Statement (.scale base count) :=
  ⟨(formatP_fields 0x20#8 base count).1, trivial⟩

theorem TableRow.scalef (base count : Index) : TableRow.Statement (.scalef base count) :=
  ⟨(formatP_fields 0x21#8 base count).1, trivial⟩

theorem TableRow.floorg (base count : Index) : TableRow.Statement (.floorg base count) :=
  ⟨(formatP_fields 0x22#8 base count).1, trivial⟩

theorem TableRow.blend (dst a b : Index) (amt : Byte) : TableRow.Statement (.blend dst a b amt) :=
  have h := formatB_fields 0x30#8 amt dst
  ⟨h.1, h.2.2.1, (operand_fields a b).1⟩

end Sys2Proof.Laws
end

