-- ==== Sys2Proof/Laws/Ranges.lean ====
section
/-! SUPPORT. Range commands: how their stores compose, and that pixels stored do not change what they compute. -/

namespace Sys2Proof.Machine

/-! ### Stores one after the other -/

theorem Memory.filter_none (m : Memory) (p : Host.Cell → Bool) (h : ∀ c ∈ m, ¬ p c = true) : m.filter p = [] :=
  List.filter_eq_nil_iff.mpr h

theorem Memory.filter_ext (m : Memory) {p q : Host.Cell → Bool} (h : ∀ c, p c = q c) : m.filter p = m.filter q := by
  rw [funext h]

theorem Memory.cells_append (l l' : List Byte) :
    ∀ b, Memory.cells b (l ++ l') = Memory.cells b l ++ Memory.cells (b + l.length) l' := by
  induction l with
  | nil => intro b; rfl
  | cons z zs ih =>
    intro b
    simp only [List.cons_append, Memory.cells, ih]
    rw [show b + 1 + zs.length = b + (z :: zs).length by simp; omega]

theorem Memory.cells_below (l : List Byte) (b n : Nat) (h : b + l.length ≤ n) :
    (Memory.cells b l).filter (fun c => decide (n ≤ c.1)) = [] := by
  refine Memory.filter_none _ _ (fun c hc => ?_)
  have := (Memory.mem_cells hc).2
  simp
  omega

theorem Memory.cells_from (l : List Byte) (b : Nat) : (Memory.cells b l).filter (fun c => decide (c.1 < b)) = [] := by
  refine Memory.filter_none _ _ (fun c hc => ?_)
  simpa using (Memory.mem_cells hc).1

theorem Memory.cells_inside (l : List Byte) (b : Nat) :
    (Memory.cells b l).filter (fun c => decide (c.1 < b + l.length)) = Memory.cells b l := by
  rw [List.filter_eq_self]
  intro c hc
  simpa using (Memory.mem_cells hc).2

/-- Two stores, the second where the first ends, are one. -/
theorem Memory.store_append (m : Memory) (a : Nat) (x y : List Byte) :
    (m.store a x).store (a + x.length) y = m.store a (x ++ y) := by
  cases x with
  | nil => simp [Memory.store]
  | cons x0 xs =>
    cases y with
    | nil => simp [Memory.store]
    | cons y0 ys =>
      rw [List.cons_append]
      simp only [Memory.store, ← List.cons_append, List.filter_append]
      rw [Memory.cells_inside, Memory.cells_below _ _ _ (by omega), Memory.cells_append]
      simp only [List.filter_filter, List.length_append, List.append_assoc, List.nil_append]
      rw [Memory.filter_ext m (p := fun c => decide (c.1 < a + (x0 :: xs).length) && decide (c.1 < a))
          (q := fun c => decide (c.1 < a)) (by intro c; rw [Bool.eq_iff_iff]; simp; omega),
        Memory.filter_ext m
          (p := fun c => decide (a + (x0 :: xs).length + (y0 :: ys).length ≤ c.1) && decide (a + (x0 :: xs).length ≤ c.1))
          (q := fun c => decide (a + ((x0 :: xs).length + (y0 :: ys).length) ≤ c.1))
          (by intro c; rw [Bool.eq_iff_iff]; simp; omega),
        Memory.filter_none m (fun c => decide (a + (x0 :: xs).length + (y0 :: ys).length ≤ c.1) && decide (c.1 < a))
          (by intro c _; simp; omega),
        Memory.filter_none m (fun c => decide (c.1 < a + (x0 :: xs).length) && decide (a + (x0 :: xs).length ≤ c.1))
          (by intro c _; simp)]
      simp

/-- The second of two stores to the same block is the one that counts. -/
theorem Memory.store_store (m : Memory) (a : Nat) {x y : List Byte} (h : x.length = y.length) :
    (m.store a x).store a y = m.store a y := by
  cases x with
  | nil =>
    cases y with
    | nil => rfl
    | cons => simp at h
  | cons x0 xs =>
    cases y with
    | nil => simp at h
    | cons y0 ys =>
      simp only [Memory.store, List.filter_append]
      rw [Memory.cells_from, Memory.cells_below _ _ _ (by omega), h]
      simp only [List.filter_filter, List.append_assoc, List.nil_append]
      rw [Memory.filter_none m (fun c => decide (a + (y0 :: ys).length ≤ c.1) && decide (c.1 < a)) (by intro c _; simp; omega),
        Memory.filter_none m (fun c => decide (c.1 < a) && decide (a + (y0 :: ys).length ≤ c.1)) (by intro c _; simp; omega)]
      simp

/-- Pixels stored in two parts. -/
theorem State.storePixels_append (s : State) (k : Nat) (ps qs : List Word) :
    (s.storePixels k ps).storePixels (k + ps.length) qs = s.storePixels k (ps ++ qs) := by
  unfold State.storePixels
  simp only
  rw [List.flatMap_append, ← Memory.store_append,
    show pixAddr (k + ps.length) = pixAddr k + (ps.flatMap wordBytes).length by
      rw [flatMap_wordBytes_length]; unfold pixAddr; omega]

/-- Pixels stored twice. -/
theorem State.storePixels_twice (s : State) (k : Nat) {ps qs : List Word} (h : ps.length = qs.length) :
    (s.storePixels k ps).storePixels k qs = s.storePixels k qs := by
  unfold State.storePixels
  simp only
  rw [Memory.store_store _ _ (by rw [flatMap_wordBytes_length, flatMap_wordBytes_length, h])]

/-! ### Ranges -/

/-- The new words of a range are those of its two parts. -/
theorem State.newPixels_append {s : State} {f : Word → Except Fault Word} {m n k : Nat} {qs : List Word} :
    s.newPixels f k (m + n) = .ok qs ↔
      ∃ q1 q2, s.newPixels f k m = .ok q1 ∧ s.newPixels f (k + m) n = .ok q2 ∧ qs = q1 ++ q2 := by
  induction m generalizing k qs with
  | zero => simp [State.newPixels]
  | succ m ih =>
    rw [show m + 1 + n = (m + n) + 1 by omega]
    simp only [State.newPixels, Except.bind_ok, ih]
    constructor
    · rintro ⟨p, hp, q, hq, qs', ⟨q1, q2, h1, h2, rfl⟩, h⟩
      cases h
      exact ⟨q :: q1, q2, ⟨p, hp, q, hq, q1, h1, rfl⟩, by rw [show k + (m + 1) = k + 1 + m by omega]; exact h2, rfl⟩
    · rintro ⟨q1, q2, ⟨p, hp, q, hq, q1', h1, h⟩, h2, rfl⟩
      cases h
      exact ⟨p, hp, q, hq, q1' ++ q2, ⟨q1', q2, h1, by rw [show k + 1 + m = k + (m + 1) by omega]; exact h2, rfl⟩, rfl⟩

/-- The new words depend on the old words of the range and on the function. -/
theorem State.newPixels_congr {s u : State} {f g : Word → Except Fault Word} (hfg : ∀ p, f p = g p) : ∀ (n k : Nat),
    (∀ j, k ≤ j → j < k + n → s.pixel j = u.pixel j) → s.newPixels f k n = u.newPixels g k n
  | 0, _, _ => rfl
  | n + 1, k, h => by
    unfold State.newPixels
    rw [h k (by omega) (by omega), State.newPixels_congr hfg n (k + 1) (fun j a b => h j (by omega) (by omega))]
    simp only [hfg]

/-! ### What a range command computes does not read other pixels (41_pixel_correction.md R135) -/

theorem State.applyForward_storePixels (s : State) (k : Nat) (ps : List Word) (p : Word) :
    (s.storePixels k ps).applyForward p = s.applyForward p := by
  refine pixelOf_congr (fun c hc => ?_)
  unfold State.forwardChannel
  rw [State.entry_storePixels _ _ _ (by omega) (chan p c).isLt]
  rfl

theorem State.applyInverse_storePixels (s : State) (k : Nat) (ps : List Word) (p : Word) :
    (s.storePixels k ps).applyInverse p = s.applyInverse p :=
  pixelOf_congr (fun c hc => State.entry_storePixels _ _ _ (by omega) (chan p c).isLt)

theorem State.auxOf_storePixels (s : State) (k : Nat) (ps : List Word) (l : Byte) :
    (s.storePixels k ps).auxOf l = s.auxOf l := by
  unfold State.auxOf
  rw [State.entry_storePixels _ _ _ (by omega) l.isLt]

theorem State.scalePixel_storePixels (s : State) (k : Nat) (ps : List Word) (p : Word) :
    (s.storePixels k ps).scalePixel p = s.scalePixel p := by
  unfold State.scalePixel
  rw [show (s.storePixels k ps).level = s.level from rfl, State.entry_storePixels _ _ _ (by omega) s.level.isLt,
    State.auxOf_storePixels]

theorem State.scaleGuardPixel_storePixels (s : State) (k : Nat) (ps : List Word) (p : Word) :
    (s.storePixels k ps).scaleGuardPixel p = s.scaleGuardPixel p := by
  unfold State.scaleGuardPixel
  rw [show (s.storePixels k ps).level = s.level from rfl, State.entry_storePixels _ _ _ (by omega) s.level.isLt,
    State.auxOf_storePixels, show (s.storePixels k ps).floor = s.floor from rfl]

theorem State.guardPixel_storePixels (s : State) (k : Nat) (ps : List Word) (p : Word) :
    (s.storePixels k ps).guardPixel p = s.guardPixel p := rfl

end Sys2Proof.Machine
end

