-- ==== Sys2Proof/Laws/Step.lean ====
section
/-! SUPPORT. One step of the machine: everything it can do, said once. -/

namespace Sys2Proof.Machine

/-! ### The address map -/

/-- An aligned 32-bit access reaches what the address map gives (20_memory.md R51, R56). -/
theorem State.target_word {s : State} {addr : Addr} (h : addr.toNat % 4 = 0) : s.target .word addr = region s.npix addr.toNat := by
  unfold State.target
  have : addr.extractLsb' 0 2 = 0#2 := by
    apply BitVec.eq_of_toNat_eq
    simp
    omega
  rw [if_pos ⟨rfl, this⟩]

/-- An access that is not 32 bits wide reaches nothing (R56). -/
theorem State.target_narrow (s : State) {size : Size} (h : size ≠ .word) (addr : Addr) : s.target size addr = .reserved := by
  unfold State.target
  rw [if_neg (fun c => h c.1)]

/-- An unaligned access reaches nothing (R56). -/
theorem State.target_unaligned (s : State) (size : Size) {addr : Addr} (h : addr.toNat % 4 ≠ 0) : s.target size addr = .reserved := by
  unfold State.target
  rw [if_neg]
  rintro ⟨-, he⟩
  exact h (by simpa using congrArg BitVec.toNat he)

theorem region_table {n w j : Nat} (hw : w < 8) (hj : j < 64) : region n (0x0400 + 0x100 * w + 4 * j) = .table w j := by
  unfold region
  rw [if_neg (by omega), if_neg (by omega), if_pos (by omega)]
  congr 1 <;> omega

theorem region_pixel {n k : Nat} (hk : k < n) : region n (0x4000 + 4 * k) = .pixel k := by
  unfold region
  rw [if_neg (by omega), if_neg (by omega), if_neg (by omega), if_neg (by omega), if_pos (by omega)]
  congr 1
  omega

/-- The holes of the address map (R51, R52). -/
theorem region_hole {n a : Nat} (h : a = 0x002C ∨ (0x0040 ≤ a ∧ a < 0x0400) ∨ (0x0C00 ≤ a ∧ a < 0x4000) ∨ 0x4000 + 4 * n ≤ a) :
    region n a = .reserved := by
  unfold region
  by_cases h1 : a < 0x40
  · rw [if_pos h1]
    have : a = 0x2C := by omega
    subst this
    rfl
  · rw [if_neg h1]
    by_cases h2 : a < 0x400
    · rw [if_pos h2]
    · rw [if_neg h2, if_neg (by omega)]
      by_cases h3 : a < 0x4000
      · rw [if_pos h3]
      · rw [if_neg h3, if_neg (by omega)]

theorem ite_ne {c : Prop} [Decidable c] {x y z : Region} (hx : x ≠ z) (hy : y ≠ z) : (if c then x else y) ≠ z := by
  split <;> assumption

/-- No register offset decodes to a window. -/
theorem registerAt_ne (a : Nat) {z : Region} (hw : (∃ w j, z = .table w j) ∨ ∃ k, z = .pixel k) : registerAt a ≠ z := by
  unfold registerAt
  rcases hw with ⟨w, j, rfl⟩ | ⟨k, rfl⟩ <;> repeat refine ite_ne (by simp) ?_
  all_goals simp

/-- What an address that decodes to a table word is. -/
theorem region_eq_table {n a w j : Nat} (h : region n a = .table w j) :
    w < 8 ∧ j < 64 ∧ a / 4 * 4 = 0x0400 + 0x100 * w + 4 * j := by
  unfold region at h
  by_cases h1 : a < 0x40
  · rw [if_pos h1] at h
    exact absurd h (registerAt_ne a (by simp))
  · rw [if_neg h1] at h
    by_cases h2 : a < 0x400
    · rw [if_pos h2] at h; cases h
    · rw [if_neg h2] at h
      by_cases h3 : a < 0xC00
      · rw [if_pos h3] at h
        cases h
        omega
      · rw [if_neg h3] at h
        split at h
        · cases h
        · split at h <;> cases h

/-- What an address that decodes to a pixel word is. -/
theorem region_eq_pixel {n a k : Nat} (h : region n a = .pixel k) : k < n ∧ a / 4 * 4 = 0x4000 + 4 * k := by
  unfold region at h
  by_cases h1 : a < 0x40
  · rw [if_pos h1] at h
    exact absurd h (registerAt_ne a (by simp))
  · rw [if_neg h1] at h
    by_cases h2 : a < 0x400
    · rw [if_pos h2] at h; cases h
    · rw [if_neg h2] at h
      by_cases h3 : a < 0xC00
      · rw [if_pos h3] at h; cases h
      · rw [if_neg h3] at h
        split at h
        · cases h
        · split at h
          · cases h
            omega
          · cases h

/-- What an access reaches, from the address map. -/
theorem State.target_cases (s : State) (size : Size) (addr : Addr) :
    s.target size addr = .reserved ∨ (size = .word ∧ addr.toNat % 4 = 0 ∧ s.target size addr = region s.npix addr.toNat) := by
  by_cases hs : size = .word
  · subst hs
    by_cases ha : addr.toNat % 4 = 0
    · exact .inr ⟨rfl, ha, s.target_word ha⟩
    · exact .inl (s.target_unaligned _ ha)
  · exact .inl (s.target_narrow hs _)

/-! ### Reads -/

/-- A host read adds one response and, where it met an entry without a value, one draw; nothing else changes (R54). -/
theorem State.hostRead_eq (s : State) (size : Size) (addr : Addr) :
    ∃ r, s.hostRead size addr = { s with log := s.log ++ [r], draws := (s.hostRead size addr).draws } := by
  have window : ∀ a, ∃ r, s.readWindow a = { s with log := s.log ++ [r], draws := (s.readWindow a).draws } := by
    intro a
    unfold State.readWindow
    split
    · exact ⟨_, rfl⟩
    · exact ⟨_, rfl⟩
  unfold State.hostRead
  split
  all_goals first | exact ⟨_, rfl⟩ | exact window _

/-- A read of a window word whose four bytes hold values draws no free value (10_state.md R39). -/
theorem State.readWindow_filled {s : State} {a : Nat} (h : ∀ b, b < 4 → (s.mem.read (a + b)).isSome) :
    (s.readWindow a).draws = s.draws := by
  obtain ⟨b0, h0⟩ := Option.isSome_iff_exists.mp (h 0 (by omega))
  obtain ⟨b1, h1⟩ := Option.isSome_iff_exists.mp (h 1 (by omega))
  obtain ⟨b2, h2⟩ := Option.isSome_iff_exists.mp (h 2 (by omega))
  obtain ⟨b3, h3⟩ := Option.isSome_iff_exists.mp (h 3 (by omega))
  have hw : s.mem.readWord a = some (wordOfBytes b0 b1 b2 b3) := by
    unfold Memory.readWord
    rw [show s.mem.read a = some b0 from h0, h1, h2, h3]
  unfold State.readWindow
  rw [hw]
  rfl

/-! ### Writes -/

/-- Everything a CMD write can do when it answers a next state (60_exceptions.md R200). -/
theorem State.onCmdWrite_next {s t : State} {w : Word} (h : s.onCmdWrite w = .next t) :
    (s.err = true ∧ t = s.dropCommand) ∨ (s.err = false ∧ (∃ e, decode w s.arg = .error e) ∧ t = s.raise w .illegalCmd) ∨
      (s.err = false ∧ ∃ i, decode w s.arg = .ok i ∧ exec i s = .next t) := by
  unfold State.onCmdWrite at h
  split at h
  · next he => cases h; exact .inl ⟨he, rfl⟩
  · next he =>
    rw [Bool.not_eq_true] at he
    split at h
    · next e hd => cases h; exact .inr (.inl ⟨he, ⟨e, hd⟩, rfl⟩)
    · next i hd => exact .inr (.inr ⟨he, i, hd, h⟩)

/-- Everything a host write can do when it answers a next state (R55): one case per region of the address map. -/
theorem State.hostWrite_next {s t : State} {size : Size} {addr : Addr} {v : Word} (h : s.hostWrite size addr v = .next t) :
    (s.target size addr = .cmd ∧ ∃ u, s.onCmdWrite v = .next u ∧ t = u.respond .ok) ∨
    (s.target size addr = .arg ∧ t = { s with arg := v }.respond .ok) ∨
    (s.target size addr = .status ∧ t = (s.writeStatus v).respond .ok) ∨
    (s.target size addr = .ctrl ∧ t = { s with mode := Mode.ofBit (v.getLsbD 0) }.respond .ok) ∨
    (s.target size addr = .bright ∧ t = { s with level := v.extractLsb' 0 8 }.respond .ok) ∨
    (s.target size addr = .cc ∧ t = (s.writeCc v).respond .ok) ∨
    (s.target size addr = .tvalid ∧ t = { s with tvalid := v.extractLsb' 0 8 }.respond .ok) ∨
    (∃ n, s.target size addr = .gamma n ∧ t = { s with gamma := s.gamma.set n v }.respond .ok) ∨
    (∃ w j, s.target size addr = .table w j ∧ t = (s.writeTable w j v).respond .ok) ∨
    (∃ k, s.target size addr = .pixel k ∧ t = (s.storePixels k [v]).respond .ok) ∨
    (∃ r, t = s.respond r) := by
  unfold State.hostWrite at h
  split at h
  case h_1 hr =>
    refine .inl ⟨hr, ?_⟩
    unfold writeDone at h
    split at h
    · next u hu => cases h; exact ⟨u, hu, rfl⟩
    · cases h
    · cases h
  all_goals
    next hr =>
      cases h
      simp only [hr]
      simp

/-! ### The step -/

/-- Everything a step can do when it answers a next state (R72, 70_reset_and_hazards.md R241). -/
theorem step_next {s t : State} (h : step s = .next t) :
    (s.host = [] ∧ t = s) ∨
    (∃ rest size addr, s.host = .read size addr :: rest ∧ t = ({ s with host := rest } : State).hostRead size addr) ∨
    (∃ rest size addr v, s.host = .write size addr v :: rest ∧
      ({ s with host := rest } : State).hostWrite size addr v = .next t) ∨
    (∃ rest, s.host = .rst :: rest ∧ t = ({ s with host := rest } : State).resetBlock) := by
  unfold step State.hostStep at h
  split at h
  · next hh => cases h; exact .inl ⟨hh, rfl⟩
  · next e rest hh =>
    cases e with
    | read size addr => cases h; exact .inr (.inl ⟨rest, size, addr, hh, rfl⟩)
    | write size addr v => exact .inr (.inr (.inl ⟨rest, size, addr, v, hh, h⟩))
    | rst => cases h; exact .inr (.inr (.inr ⟨rest, hh, rfl⟩))

/-- A step that does not answer a next state delivered a command whose `exec` does not. -/
theorem step_stops {s : State} (h : ∀ t, step s ≠ .next t) :
    ∃ rest size addr w i, s.host = .write size addr w :: rest ∧ decode w s.arg = .ok i ∧
      step s = writeDone (exec i { s with host := rest }) := by
  unfold step State.hostStep at h ⊢
  split at h
  · exact absurd rfl (h _)
  · next e rest hh =>
    rw [hh]
    cases e with
    | read size addr => exact absurd rfl (h _)
    | rst => exact absurd rfl (h _)
    | write size addr v =>
      refine ⟨rest, size, addr, v, ?_⟩
      unfold State.onEvent State.hostWrite at h ⊢
      simp only at h ⊢
      split at h
      case h_1 hr =>
        unfold State.onCmdWrite at h ⊢
        split at h
        · exact absurd rfl (h _)
        · next he =>
          split at h
          · exact absurd rfl (h _)
          · next i hd => exact ⟨i, trivial, hd, by rw [if_neg he]⟩
      all_goals exact absurd rfl (h _)

end Sys2Proof.Machine
end

