-- ==== Sys2Proof/Laws/Tables.lean ====
section
/-! SUPPORT. Tables: what a stored table reads as, the valid bits, the forward entries, the inverse algorithm. -/

namespace Sys2Proof.Machine

/-! ### Storing a table -/

/-- A stored table is read back, and no other byte of memory changes. -/
theorem State.storeTable_reads (s : State) (w : Nat) {l : List Byte} (hl : l.length = 256) :
    (∀ i, i < 256 → (s.storeTable w l).mem.read (tblAddr w i) = l[i]?) ∧
      ∀ a, a < tblAddr w 0 ∨ tblAddr w 256 ≤ a → (s.storeTable w l).mem.read a = s.mem.read a :=
  ⟨fun i hi => Memory.read_store_inside s.mem (a := tblAddr w 0) (bs := l) (j := i) (by omega),
    fun a ha => Memory.read_store_outside s.mem (a := tblAddr w 0) (bs := l) (by rw [hl]; unfold tblAddr at *; omega)⟩

/-- The valid bits after the inverse of a forward color table was dropped (20_memory.md R59). -/
theorem State.valid_dropInverse (s : State) {w x : Nat} (hx : x < 8) :
    (s.dropInverse w).valid x = if w < 3 ∧ x = w + 4 then false else s.valid x := by
  unfold State.dropInverse State.valid
  by_cases h : w < 3
  · have a := getLsbD_putBit s.tvalid ⟨w + 4, by omega⟩ false ⟨x, hx⟩
    simp only [Fin.mk.injEq] at a
    simp only [h, if_true, true_and]
    exact a
  · simp only [h, if_false, false_and]

/-! ### Forward entries -/

/-- A valid gamma is a positive real number (40_table_generation.md R100). -/
theorem f32val_pos {b : Word} (h : gammaValid b = true) : 0 < f32val b := by
  unfold gammaValid at h
  simp only [Bool.and_eq_true, Bool.not_eq_true', bne_iff_ne, ne_eq] at h
  obtain ⟨⟨hs, -⟩, hz⟩ := h
  have hm : 0 < f32Mant b := by
    unfold f32Mant
    dsimp only
    split
    · next he =>
      by_contra h0
      apply hz
      have h0' : b.extractLsb' 0 23 = 0#23 := by apply BitVec.eq_of_toNat_eq; simp at h0 ⊢; exact h0
      have he' : b.extractLsb' 23 8 = 0#8 := BitVec.eq_of_toNat_eq he
      have e : b.extractLsb' 23 8 ++ b.extractLsb' 0 23 = b.extractLsb' 0 (8 + 23) :=
        BitVec.extractLsb'_append_extractLsb'_eq_extractLsb' rfl
      change b.extractLsb' 0 (8 + 23) = _
      rw [← e, h0', he']
      rfl
    · positivity
  have hq : (0 : ℚ) < f32Mant b := by exact_mod_cast hm
  unfold f32val
  rw [hs]
  simp only [Bool.false_eq_true, if_false]
  positivity

/-- An entry below maxIn as the floor of a real power, before the force-to-1 step (R101). -/
theorem gammaEntry_below {i maxIn maxOut : Nat} {b : Word} (h0 : 0 < i) (hi : i < maxIn) (hm : 0 < maxOut) (hm' : maxOut < 256) :
    gammaEntry i maxIn maxOut b =
      if ⌊((i : ℝ) / maxIn) ^ (gammaExponent b).real * maxOut + 1 / 2⌋₊ = 0 then 1
      else ⌊((i : ℝ) / maxIn) ^ (gammaExponent b).real * maxOut + 1 / 2⌋₊ := by
  unfold gammaEntry
  rw [if_neg (by omega), if_neg (by omega)]
  dsimp only
  rw [roundedPow_eq_floor h0 hi hm hm']

/-- No entry passes maxOut (R103). -/
theorem gammaEntry_le {i maxIn maxOut : Nat} {b : Word} (hm : 0 < maxOut) (hm' : maxOut < 256) :
    gammaEntry i maxIn maxOut b ≤ maxOut := by
  by_cases h : maxIn ≤ i
  · unfold gammaEntry
    rw [if_pos h]
  · rcases Nat.eq_zero_or_pos i with rfl | h0
    · unfold gammaEntry
      rw [if_neg h, if_pos rfl]
      exact Nat.zero_le _
    · rw [gammaEntry_below h0 (by omega) hm hm']
      have hq : (0 : ℝ) < maxIn := by exact_mod_cast (by omega : 0 < maxIn)
      have := floor_pow_le (x := (i : ℝ) / maxIn) (by positivity) (by rw [div_le_one hq]; exact_mod_cast (by omega : i ≤ maxIn))
        (gammaExponent b).real_nonneg maxOut
      split <;> omega

theorem gammaTable_length (maxIn maxOut : Byte) (b : Word) : (gammaTable maxIn maxOut b).length = 256 := by
  simp [gammaTable]

theorem gammaTable_get (maxIn maxOut : Byte) (b : Word) {i : Nat} (hi : i < 256) :
    (gammaTable maxIn maxOut b)[i]? = some (BitVec.ofNat 8 (gammaEntry i maxIn.toNat maxOut.toNat b)) := by
  simp [gammaTable, hi]

/-! ### The inverse algorithm (R106) -/

/-- Where the forward table reads, the plateau walk ends on the last index of the plateau. -/
theorem plateauEnd_ok {table : Nat → Except Fault Byte} {F : Nat → Byte} (ht : ∀ i, i < 256 → table i = .ok (F i)) :
    ∀ fuel f, f + fuel = 255 → ∃ e, plateauEnd table fuel f = .ok e ∧ f ≤ e ∧ e ≤ 255 ∧
      (∀ j, f ≤ j → j < e → F j = F (j + 1)) ∧ (e = 255 ∨ F e ≠ F (e + 1))
  | 0, f, h => ⟨f, rfl, le_rfl, by omega, fun j a b => by omega, .inl (by omega)⟩
  | n + 1, f, h => by
    unfold plateauEnd
    rw [ht f (by omega), ht (f + 1) (by omega)]
    change ∃ e, (if F f = F (f + 1) then _ else _) = _ ∧ _
    by_cases he : F f = F (f + 1)
    · rw [if_pos he]
      obtain ⟨e, h1, h2, h3, h4, h5⟩ := plateauEnd_ok ht n (f + 1) (by omega)
      refine ⟨e, h1, by omega, h3, fun j a b => ?_, h5⟩
      by_cases hj : j = f
      · subst hj; exact he
      · exact h4 j (by omega) b
    · rw [if_neg he]
      exact ⟨f, rfl, le_rfl, by omega, fun j a b => by omega, .inr he⟩

/-- The inverse loop answers as many entries as it was asked for. -/
theorem invLoop_length {table : Nat → Except Fault Byte} {maxOut : Nat} : ∀ {n i : Nat} {c : Cursor} {l : List Byte},
    invLoop table maxOut n i c = .ok l → l.length = n
  | 0, _, _, _, h => by cases h; rfl
  | n + 1, _, _, _, h => by
    unfold invLoop at h
    obtain ⟨c', -, h⟩ := Except.bind_ok.mp h
    obtain ⟨rest, hr, h⟩ := Except.bind_ok.mp h
    cases h
    rw [List.length_cons, invLoop_length hr]

/-- A fault of the plateau walk is that of an entry of the forward table. -/
theorem plateauEnd_error {table : Nat → Except Fault Byte} {e : Fault} : ∀ {fuel f : Nat}, f + fuel ≤ 255 →
    plateauEnd table fuel f = .error e → ∃ i, i < 256 ∧ table i = .error e
  | 0, _, _, h => by cases h
  | n + 1, f, hb, h => by
    unfold plateauEnd at h
    simp only [Except.bind_error] at h
    rcases h with h | ⟨x, -, h | ⟨y, -, h⟩⟩
    · exact ⟨f, by omega, h⟩
    · exact ⟨f + 1, by omega, h⟩
    · split at h
      · exact plateauEnd_error (by omega) h
      · cases h

/-- A fault of one pass is that of an entry of the forward table. -/
theorem invStep_error {table : Nat → Except Fault Byte} {maxOut i : Nat} {c : Cursor} {e : Fault}
    (h : invStep table maxOut i c = .error e) : ∃ i, i < 256 ∧ table i = .error e := by
  unfold invStep at h
  dsimp only at h
  split at h
  · cases h
  · split at h
    · cases h
    · simp only [Except.bind_error] at h
      rcases h with h | ⟨x, -, h | ⟨y, -, h⟩⟩
      · exact ⟨c.f, by omega, h⟩
      · exact ⟨c.f + 1, by omega, h⟩
      · split at h
        · rcases Except.bind_error.mp h with h | ⟨_, _, h⟩
          · exact plateauEnd_error (by omega) h
          · cases h
        · split at h
          · cases h
          · split at h
            · cases h
            · rcases Except.bind_error.mp h with h | ⟨_, _, h⟩
              · exact ⟨c.f - 1, by omega, h⟩
              · cases h

/-- A fault of the inverse loop is that of an entry of the forward table. -/
theorem invLoop_error {table : Nat → Except Fault Byte} {maxOut : Nat} {e : Fault} : ∀ {n i : Nat} {c : Cursor},
    invLoop table maxOut n i c = .error e → ∃ i, i < 256 ∧ table i = .error e
  | 0, _, _, h => by cases h
  | n + 1, i, c, h => by
    unfold invLoop at h
    rcases Except.bind_error.mp h with h | ⟨_, _, h⟩
    · exact invStep_error h
    · rcases Except.bind_error.mp h with h | ⟨_, _, h⟩
      · exact invLoop_error h
      · cases h

end Sys2Proof.Machine
end

