-- ==== Sys2Proof/Tests/Slice0.lean ====
section
/-! SUPPORT. The model's own tests, with results from the spec's vectors (95_test_vectors.md), and a witness for the
hypotheses of every statement. -/

namespace Sys2Proof.Tests

open Sys2Proof.Machine Sys2Proof.Claim

/-! ### Small states -/

/-- The state an outcome answers, if it is a next state. -/
def answer (o : Out) : Option State :=
  match o with
  | .next s => some s
  | .fault _ => none
  | .refused _ => none

theorem next_of_answer {o : Out} (h : (answer o).isSome = true) : ∃ t, o = .next t := by
  cases o with
  | next s => exact ⟨s, rfl⟩
  | fault f => cases h
  | refused r => cases h

/-- Pixel `k` after an outcome. -/
def pixelAfter (o : Out) (k : Nat) : Option Word := (answer o).bind (fun s => s.mem.readWord (pixAddr k))

/-- Entry `i` of table `w` after an outcome. -/
def entryAfter (o : Out) (w i : Nat) : Option Byte := (answer o).bind (fun s => s.mem.read (tblAddr w i))

/-- STATUS after an outcome. -/
def statusAfter (o : Out) : Option Word := (answer o).map State.statusWord

/-- What the last transaction returned. -/
def lastResponse (o : Out) : Option Response := (answer o).bind (fun s => s.log.getLast?)

/-- The state after reset with a few bytes stored: each pair is an address and the bytes from it up. -/
def stored (blocks : List (Nat × List Byte)) : State :=
  { State.reset with mem := blocks.foldl (fun m b => m.store b.1 b.2) [] }

/-- One pixel word as a block. -/
def pix (k : Nat) (p : Word) : Nat × List Byte := (pixAddr k, wordBytes p)

/-- One table entry as a block. -/
def ent (w i : Nat) (b : Byte) : Nat × List Byte := (tblAddr w i, [b])

/-- `s` about to meet one event. -/
def meets (s : State) (e : HostEvent) : State := { s with host := [e] }

/-- A write of `v` to address `a`, as the only event to come. -/
def wr (s : State) (a : Addr) (v : Word) : State := meets s (.write .word a v)

/-- A read of address `a`, as the only event to come. -/
def rd (s : State) (a : Addr) : State := meets s (.read .word a)

/-! ### Well-formed terms -/

/-- R86: INVERT with TID 3 has no encoding. -/
theorem test_wf_refuses_inverse_of_dim : (Instr.invert 3#2 255#8).wf = false := by decide

/-- R86: the three other TIDs have one, and BUILD has one for TID 3. -/
theorem test_wf_accepts : (Instr.invert 2#2 255#8).wf = true ∧ (Instr.build 3#2 255#8 255#8).wf = true := by decide

/-! ### Decoding: words written out bit by bit from R81 to R83 and R85 -/

/-- Format T: OPC 00000001, RES 000000, TID 11, MAXIN 11001000, MAXOUT 11111111. -/
theorem test_decode_build :
    decode 0b00000001000000111100100011111111#32 0#32 = .ok (.build 3#2 200#8 255#8) := by decide

/-- Format T: OPC 00000010, RES 000000, TID 10, zeros, MAXOUT 10000000. -/
theorem test_decode_invert : decode 0b00000010000000100000000010000000#32 0#32 = .ok (.invert 2#2 128#8) := by decide

/-- Format P: OPC 00010000, BASE 000000000001, COUNT 000000010000. -/
theorem test_decode_applyf : decode 0b00010000000000000001000000010000#32 0#32 = .ok (.applyf 1#12 16#12) := by decide

/-- Format P: OPC 00010001, BASE 111111111111, COUNT 000000000001. -/
theorem test_decode_applyi : decode 0b00010001111111111111000000000001#32 0#32 = .ok (.applyi 4095#12 1#12) := by decide

/-- Format P: OPC 00100000, BASE 000000000100, COUNT 100000000001. -/
theorem test_decode_scale : decode 0b00100000000000000100100000000001#32 0#32 = .ok (.scale 4#12 2049#12) := by decide

/-- Format P: OPC 00100001, BASE 100000000000, COUNT 000000000010. -/
theorem test_decode_scalef : decode 0b00100001100000000000000000000010#32 0#32 = .ok (.scalef 2048#12 2#12) := by decide

/-- Format P: OPC 00100010, BASE 000000001001, COUNT 000000000011. -/
theorem test_decode_floorg : decode 0b00100010000000001001000000000011#32 0#32 = .ok (.floorg 9#12 3#12) := by decide

/-- Format B: OPC 00110000, AMT 10000001, RES 0000, DST 000000000010; ARG: zeros, A 000000000101, B 100000000110. -/
theorem test_decode_blend :
    decode 0b00110000100000010000000000000010#32 0b00000000000000000101100000000110#32
      = .ok (.blend 2#12 5#12 2054#12 0x81#8) := by decide

/-- V-E2, V-X5: illegal words, one of each kind. -/
theorem test_decode_illegal :
    decode 0x00000000#32 0#32 = .error .opcode ∧ decode 0x03000000#32 0#32 = .error .opcode ∧
    decode 0x0104FFFF#32 0#32 = .error .buildReserved ∧ decode 0x02040000#32 0#32 = .error .invertReserved ∧
    decode 0x0200FFFF#32 0#32 = .error .invertMaxIn ∧ decode 0x020300FF#32 0#32 = .error .invertTid ∧
    decode 0x30801002#32 0x00000001#32 = .error .blendReserved ∧
    decode 0x30800002#32 0x01000001#32 = .error .blendArg := by decide

/-- opcode_table.json numbering: BLEND's operand word is bits 63:32. -/
theorem test_table_word :
    decodeTableWord 64 0x0000500630800002 = some (.blend 2#12 5#12 6#12 0x80#8) ∧
    decodeTableWord 32 0x0000500630800002 = some (.blend 2#12 0#12 0#12 0x80#8) ∧
    decodeTableWord 32 0x0104FFFF = none := by decide

/-- The command placed by `withFetchWord` is what the next step runs, from reset: V-B8's bad gamma. -/
theorem test_fetch_word : statusAfter (step (State.reset.withFetchWord 32 0x0100FFFF)) = some 0x00000401#32 := by
  decide +kernel

/-! ### Forward tables (V-B) -/

/-- V-B1, V-B3, V-B7: entries under gammas 2.2, 3.0, 1.8, 0.5, the largest and the smallest. -/
theorem test_gamma_entries :
    gammaEntry 128 255 255 0x400CCCCD#32 = 56 ∧ gammaEntry 14 255 255 0x400CCCCD#32 = 1 ∧
    gammaEntry 192 255 255 0x40400000#32 = 109 ∧ gammaEntry 64 255 255 0x3FE66666#32 = 21 ∧
    gammaEntry 1 255 255 0x3F000000#32 = 16 ∧ gammaEntry 254 255 255 0x7F7FFFFF#32 = 1 ∧
    gammaEntry 1 255 255 0x00000001#32 = 255 ∧ gammaEntry 199 200 255 0x400CCCCD#32 = 252 := by decide +kernel

/-- V-B6 and R102: exact ties round up, maxOut from maxIn on; V[0] is set and V[4] cleared, no other bit. -/
theorem test_build_ties :
    let o := exec (.build 0#2 4#8 6#8) { State.reset with gamma := ⟨0x3F800000#32, 0#32, 0#32, 0#32⟩, tvalid := 0x72#8 }
    [0, 1, 2, 3, 4, 255].map (entryAfter o 0) = [some 0#8, some 2#8, some 3#8, some 5#8, some 6#8, some 6#8] ∧
      (answer o).map (fun s => s.tvalid) = some 0x63#8 := by decide +kernel

/-- V-B8: BAD_RANGE comes before BAD_GAMMA, and no table is made. -/
theorem test_build_faults :
    statusAfter (exec (.build 0#2 0#8 0#8) State.reset) = some 0x00000301#32 ∧
    (answer (exec (.build 0#2 255#8 255#8) State.reset)).map (fun s => (s.statusWord, s.errInfo, s.tvalid, s.mem))
      = some (0x00000401#32, 0x0100FFFF#32, 0#8, []) := by decide +kernel

/-! ### Inverse tables (V-I) -/

/-- The table T1 of V-I5, F[i] = min(255, 2i). -/
def doubling (i : Nat) : Except Fault Byte := .ok (BitVec.ofNat 8 (min 255 (2 * i)))

/-- V-I5 on T1, one entry at a time: an exact match, the lower-distance rule on a tie, the plateau 128..255; V-I1's cursor
past the end; the copy of an equal target. -/
theorem test_invert_branches :
    invStep doubling 255 4 ⟨2, some 3, 1⟩ = .ok ⟨3, some 4, 2⟩ ∧ invStep doubling 255 3 ⟨2, some 2, 1⟩ = .ok ⟨2, some 3, 1⟩ ∧
    invStep doubling 255 255 ⟨128, some 254, 127⟩ = .ok ⟨256, some 255, 191⟩ ∧
    invStep doubling 255 255 ⟨255, some 254, 9⟩ = .ok ⟨255, some 255, 255⟩ ∧
    invStep doubling 128 3 ⟨7, some 1, 12⟩ = .ok ⟨7, some 1, 12⟩ := by decide +kernel

/-- V-I5 on T5 (constant 7): one plateau gives 127, then the cursor is past the end; V[4] is set, V[0] stays. -/
theorem test_invert_constant :
    let s := { stored [(tblAddr 0 0, List.replicate 256 7#8)] with tvalid := 0x01#8 }
    let o := exec (.invert 0#2 255#8) s
    [0, 1, 255].map (entryAfter o 4) = [some 127#8, some 255#8, some 255#8] ∧
      (answer o).map (fun t => (t.tvalid, t.mem.read (tblAddr 0 255))) = some (0x11#8, some 7#8) := by decide +kernel

/-! ### APPLYF and APPLYI (V-F) -/

/-- V-F1, third pixel, with the entries of FWD22 it indexes: AUXB is kept. -/
theorem test_applyf_lookup :
    let s := { stored [ent 0 0x40 12#8, ent 1 0xC0 137#8, ent 2 0xFE 253#8, pix 2 0xAB40C0FE#32] with tvalid := 0x07#8 }
    pixelAfter (exec (.applyf 2#12 1#12) s) 2 = some 0xAB0C89FD#32 := by decide +kernel

/-- V-F2, V-F3: the closed form needs no table and keeps the force-to-1 step. -/
theorem test_applyf_closed_form :
    let s := { stored [pix 0 0xAB40C0FE#32, pix 1 0x00010E0F#32] with
      mode := .closedForm, gamma := ⟨0x400CCCCD#32, 0x400CCCCD#32, 0x400CCCCD#32, 0#32⟩ }
    let o := exec (.applyf 0#12 2#12) s
    [pixelAfter o 0, pixelAfter o 1] = [some 0xAB0C89FD#32, some 0x00010101#32] := by decide +kernel

/-- V-F4, second pixel, with the entries of INV22 it indexes. -/
theorem test_applyi :
    let s := { stored [ent 4 0x0C 63#8, ent 5 0x89 0xC0#8, ent 6 0xFD 0xFE#8, pix 0 0xAB0C89FD#32] with tvalid := 0x70#8 }
    pixelAfter (exec (.applyi 0#12 1#12) s) 0 = some 0xAB3FC0FE#32 := by decide +kernel

/-- V-F5: 16 + 0 passes the range check and 17 + 0 does not; APPLYI needs the inverse tables. -/
theorem test_range_faults :
    statusAfter (exec (.applyf 16#12 0#12) State.reset) = some 0x00000501#32 ∧
    statusAfter (exec (.applyf 17#12 0#12) State.reset) = some 0x00000201#32 ∧
    statusAfter (exec (.applyf 1#12 16#12) State.reset) = some 0x00000201#32 ∧
    statusAfter (exec (.applyi 0#12 1#12) State.reset) = some 0x00000501#32 := by decide +kernel

/-! ### SCALE, SCALEF, FLOORG (V-S) -/

/-- V-S1, V-S2: floors and products. -/
theorem test_floor_and_scale :
    [0, 1, 2, 3, 64, 127, 128, 254, 255].map (fun n => (floorOf (BitVec.ofNat 8 n)).toNat) = [1, 255, 128, 85, 4, 3, 2, 2, 1] ∧
    scale8 200#8 56#8 = 44#8 ∧ scale8 1#8 128#8 = 1#8 ∧ scale8 1#8 127#8 = 0#8 ∧ scale8 2#8 56#8 = 0#8 := by decide

/-- The state of V-S4, LEVEL = 4: DIM[4] = 1, AUX[4] = 0. -/
def dimmed : State :=
  { stored [ent 3 4 1#8, ent 7 4 0#8, pix 4 0x00FF6401#32, pix 5 0x0000FFFF#32] with
    level := 4#8, tvalid := 0x88#8, floor := ⟨1#8, 2#8, 4#8⟩ }

/-- V-S4: SCALE forces AUXB to 1. V-S5: at LEVEL = 0, AUXB is 0 and table AUX is not read. -/
theorem test_scale :
    pixelAfter (exec (.scale 4#12 1#12) dimmed) 4 = some 0x01010000#32 ∧
    pixelAfter (exec (.scale 7#12 1#12) { stored [ent 3 0 0#8, pix 7 0x77FFFFFF#32] with level := 0#8, tvalid := 0x88#8 }) 7
      = some 0x00000000#32 := by decide +kernel

/-- V-S4: SCALEF raises G and B to their floors. V-S3, first pixel: a channel scaled to 0 stays 0. -/
theorem test_scalef :
    pixelAfter (exec (.scalef 5#12 1#12) dimmed) 5 = some 0x01000204#32 ∧
    pixelAfter (exec (.scalef 0#12 1#12) { stored [ent 3 128 56#8, ent 7 128 16#8, pix 0 0x00C80302#32] with
      level := 128#8, tvalid := 0x88#8, floor := ⟨1#8, 2#8, 4#8⟩ }) 0 = some 0x102C0200#32 := by decide +kernel

/-- V-S6: FLOORG on three pixels. -/
theorem test_floorg :
    let s := { stored [pix 9 0x55010101#32, pix 10 0x55030303#32, pix 11 0x55040404#32] with floor := ⟨1#8, 2#8, 4#8⟩ }
    [9, 10, 11].map (pixelAfter (exec (.floorg 9#12 3#12) s)) = [some 0x55010204#32, some 0x55030304#32, some 0x55040404#32] := by
  decide +kernel

/-- V-S8: SCALE without AUX faults, FLOORG needs no table and takes base 16 with count 0, base 17 faults. -/
theorem test_brightness_faults :
    statusAfter (exec (.scale 0#12 1#12) { State.reset with tvalid := 0x08#8 }) = some 0x00000501#32 ∧
    statusAfter (exec (.floorg 16#12 0#12) State.reset) = some 0#32 ∧
    statusAfter (exec (.floorg 17#12 0#12) State.reset) = some 0x00000201#32 := by decide +kernel

/-! ### BLEND (V-X) -/

/-- The state of V-X1 with the entries its rows for amounts 128 and 0 index. -/
def blendable : State :=
  { stored [ent 0 127 55#8, ent 0 255 255#8, ent 1 186 127#8, ent 2 128 56#8, ent 2 0 0#8, ent 4 0 0#8, ent 4 255 255#8,
      ent 5 128 186#8, ent 6 0 0#8, ent 6 255 255#8, pix 0 0x11FF8000#32, pix 1 0x220080FF#32] with
    tvalid := 0x77#8 }

/-- V-X1: amount 128 to a third pixel. V-X4: the in-place form at amount 0 keeps pixel b. -/
theorem test_blend :
    pixelAfter (exec (.blend 3#12 0#12 1#12 128#8) blendable) 3 = some 0x11377F38#32 ∧
    [0, 1].map (pixelAfter (exec (.blend 0#12 0#12 1#12 0#8) blendable)) = [some 0x11FF7F00#32, some 0x220080FF#32] := by
  decide +kernel

/-- V-X5, V-X6: index faults at NPIX, missing tables, and the interpolation. -/
theorem test_blend_faults :
    statusAfter (exec (.blend 16#12 0#12 1#12 128#8) blendable) = some 0x00000201#32 ∧
    statusAfter (exec (.blend 2#12 0#12 16#12 128#8) blendable) = some 0x00000201#32 ∧
    statusAfter (exec (.blend 2#12 0#12 1#12 128#8) State.reset) = some 0x00000501#32 ∧
    lerp 12#8 186#8 128#8 = 99#8 ∧ lerp 100#8 101#8 128#8 = 101#8 ∧ lerp 100#8 101#8 127#8 = 100#8 ∧
    lerp 255#8 0#8 128#8 = 127#8 := by decide +kernel

/-! ### The host's transactions (V-E, V-M) -/

/-- V-E1: a second CMD write is dropped, STATUS bit 0 clears, ERRINFO stays. -/
theorem test_drop_and_clear :
    let s := { State.reset with err := true, cause := .badGamma, errInfo := 0x0100FFFF#32 }
    statusAfter (step (wr s 0x0000#16 0x22000000#32)) = some 0x00000403#32 ∧
    statusAfter (step (wr s 0x0008#16 0#32)) = some 0x00000401#32 ∧
    (answer (step (wr s 0x0008#16 1#32))).map (fun t => (t.statusWord, t.errInfo)) = some (0#32, 0x0100FFFF#32) := by
  decide +kernel

/-- V-M1: bus errors, by address, by alignment and by size. -/
theorem test_bus_errors :
    [0x002C#16, 0x0040#16, 0x0C00#16, 0x4040#16, 0x4003#16].all
      (fun a => lastResponse (step (rd State.reset a)) == some .busError) ∧
    lastResponse (step (meets State.reset (.read .byte 0x0008#16))) = some .busError ∧
    lastResponse (step (meets State.reset (.write .half 0x0008#16 1#32))) = some .busError := by decide +kernel

/-- V-M2: register behaviour. -/
theorem test_registers :
    lastResponse (step (rd State.reset 0x0028#16)) = some (.value 0x00000010#32) ∧
    (answer (step (wr State.reset 0x0020#16 0x12345678#32))).map (fun s => s.floor) = some ⟨1#8, 1#8, 1#8⟩ ∧
    (answer (step (wr State.reset 0x0018#16 0x1234#32))).map (fun s => s.level) = some 0x34#8 ∧
    (answer (step (wr State.reset 0x0014#16 0xFFFFFFFF#32))).map (fun s => s.mode) = some .closedForm ∧
    (answer (step (wr State.reset 0x001C#16 0x00FF8040#32))).map (fun s => wordOfRgb s.floor) = some 0x00010204#32 := by
  decide +kernel

/-- V-M3: window writes clear valid bits. -/
theorem test_window_writes :
    (answer (step (wr { State.reset with tvalid := 0x17#8 } 0x0400#16 0#32))).map (fun s => s.tvalid) = some 0x06#8 ∧
    (answer (step (wr { State.reset with tvalid := 0xFF#8 } 0x0B00#16 0#32))).map (fun s => s.tvalid) = some 0x7F#8 ∧
    (answer (step (wr { State.reset with tvalid := 0xFF#8 } 0x0700#16 0#32))).map (fun s => s.tvalid) = some 0xF7#8 := by
  decide +kernel

/-- V-B1 window read-back, word 32: entries 56, 57, 58, 59 at 0x0480. -/
theorem test_window_read :
    lastResponse (step (rd (stored [(tblAddr 0 128, [56#8, 57#8, 58#8, 59#8])]) 0x0480#16)) = some (.value 0x3B3A3938#32) := by
  decide +kernel

/-! ### Witnesses: a state with every table and every pixel filled -/

/-- Eight identity tables. -/
def tableBytes : List Byte := (List.range 2048).map (BitVec.ofNat 8)

/-- Sixteen pixels. -/
def pixelBytes : List Byte := (List.replicate 16 0x20FF8040#32).flatMap wordBytes

/-- Every table holds the identity and is published, every gamma is 1.0, every pixel is 0x20FF8040. -/
def bench : State :=
  { State.reset with
    mem := Memory.cells 0x0400 tableBytes ++ Memory.cells 0x4000 pixelBytes
    tvalid := 0xFF#8
    gamma := ⟨0x3F800000#32, 0x3F800000#32, 0x3F800000#32, 0x3F800000#32⟩ }

/-- The same in closed-form mode. -/
def benchClosed : State := { bench with mode := .closedForm }

/-- The same at level 0. -/
def benchDark : State := { bench with level := 0#8 }

theorem bench_entry {w i : Nat} (hw : w < 8) (hi : i < 256) : bench.mem.read (tblAddr w i) = some (BitVec.ofNat 8 i) := by
  show Memory.read (Memory.cells 0x0400 tableBytes ++ Memory.cells 0x4000 pixelBytes) _ = _
  have hl : 256 * w + i < 2048 := by omega
  have e : tblAddr w i - 0x0400 = 256 * w + i := by unfold tblAddr; omega
  rw [Memory.read_append, Memory.read_cells, if_pos (by unfold tblAddr; omega), e]
  unfold tableBytes
  rw [List.getElem?_map, List.getElem?_range hl]
  refine congrArg some (BitVec.eq_of_toNat_eq ?_)
  simp only [BitVec.toNat_ofNat]
  omega

theorem bench_pixel (k : Nat) (hk : k < 16) : bench.mem.readWord (pixAddr k) = some 0x20FF8040#32 := by
  refine Memory.readWord_of_bytes (fun j hj => ?_)
  show Memory.read (Memory.cells 0x0400 tableBytes ++ Memory.cells 0x4000 pixelBytes) _ = _
  have hl : tableBytes.length = 2048 := by simp [tableBytes]
  have ha : 0x4000 ≤ pixAddr k + j := by unfold pixAddr; omega
  have e : pixAddr k + j - 0x4000 = 4 * k + j := by unfold pixAddr; omega
  rw [Memory.read_append, Memory.read_cells, Memory.read_cells, if_pos (by omega), if_pos ha, List.getElem?_eq_none (by omega),
    Option.none_or, e]
  unfold pixelBytes
  rw [flatMap_wordBytes_get _ _ _ hj (by simpa using hk), List.getElem?_replicate, if_pos hk]
  rfl

theorem bench_pixels {base count : Nat} (h : base + count ≤ 16) : bench.PixelsFilled base count := by
  intro k _ h2
  rw [bench_pixel k (by omega)]
  rfl

theorem bench_filled (base count : Index) {w : Nat → Nat} (hw : ∀ c, c < 3 → w c < 8) : EntriesFilled bench base count w := by
  intro k p _ _ _ c hc
  rw [bench_entry (hw c hc) (chan p c).isLt]
  rfl

theorem bench_inv : bench.Inv := by
  refine ⟨?_, ?_, ?_, by decide, by decide, fun _ => ⟨rfl, rfl⟩, fun h => by cases h⟩
  · refine List.pairwise_append.mpr ⟨Memory.cells_wf _ _, Memory.cells_wf _ _, fun c hc d hd => ?_⟩
    have h1 := (Memory.mem_cells hc).2
    have h2 := (Memory.mem_cells hd).1
    have hl : tableBytes.length = 2048 := by simp [tableBytes]
    omega
  · intro c hc
    have hl : tableBytes.length = 2048 := by simp [tableBytes]
    have hp : pixelBytes.length = 64 := by decide
    rcases List.mem_append.mp hc with h | h
    · have := Memory.mem_cells h
      exact .inl (by omega)
    · have := Memory.mem_cells h
      exact .inr (by show _ ∧ _ < 0x4000 + 4 * 16; omega)
  · intro k j hj h
    by_cases hk : k < 16
    · rw [bench_pixel k hk] at h
      cases h
    · show Memory.read (Memory.cells 0x0400 tableBytes ++ Memory.cells 0x4000 pixelBytes) _ = _
      have hl : tableBytes.length = 2048 := by simp [tableBytes]
      have hp : pixelBytes.length = 64 := by decide
      have ha : 0x4000 + 64 ≤ pixAddr k + j := by unfold pixAddr; omega
      rw [Memory.read_append, Memory.read_cells, Memory.read_cells, if_pos (by omega), if_pos (by omega),
        List.getElem?_eq_none (by omega), List.getElem?_eq_none (by omega)]
      rfl

/-! Encoding -/

theorem witness_DecodeOfEncode :
    (Instr.invert 2#2 255#8).wf = true ∧ (Instr.blend 4095#12 5#12 4095#12 255#8).wf = true ∧
      operandWord (.invert 2#2 255#8) = none ∧ operandWord (.blend 4095#12 5#12 4095#12 255#8) = some 0x00005FFF#32 := by decide

theorem witness_EncodeOfDecode : decode 0x30FFFFFF#32 0x00FFFFFF#32 = .error .blendReserved ∧
    decode 0x30FF0FFF#32 0x00FFFFFF#32 = .ok (.blend 4095#12 4095#12 4095#12 255#8) := by decide

theorem witness_IllegalWordsFault : State.reset.err = false ∧
    decode 0x03000000#32 State.reset.arg = .error .opcode ∧ decode 0x0104FFFF#32 State.reset.arg = .error .buildReserved ∧
    decode 0x0200FFFF#32 State.reset.arg = .error .invertMaxIn ∧ decode 0x020300FF#32 State.reset.arg = .error .invertTid ∧
    decode 0x30000002#32 0x01000000#32 = .error .blendArg := by decide

/-! Reset and the step -/

/-- Window addresses at the ends of both windows, for the greatest NPIX. -/
theorem witness_ResetState :
    [0x0400#16, 0x0BFC#16, 0x4000#16, 0x7FFC#16].all (fun a => a.toNat % 4 == 0 &&
      (decide (0x0400 ≤ a.toNat ∧ a.toNat < 0x0C00) || decide (0x4000 ≤ a.toNat ∧ a.toNat < 0x4000 + 4 * 4096))) = true := by
  decide

/-- The invariant before a step that runs FLOORG on the last pixel. -/
theorem witness_StepKeepsInvariant :
    (wr bench 0x0000#16 0x2200F001#32).Inv ∧ ∃ t, step (wr bench 0x0000#16 0x2200F001#32) = .next t :=
  ⟨⟨bench_inv.wf, bench_inv.inWindows, bench_inv.whole, bench_inv.npixRange, bench_inv.floorOfCc, bench_inv.clear,
    bench_inv.faulted⟩, next_of_answer (by decide +kernel)⟩

theorem witness_StepRunsDecodedCommand :
    (wr bench 0x0000#16 0x2200F001#32).host = .write .word 0x0000#16 0x2200F001#32 :: [] ∧ bench.err = false ∧
      decode 0x2200F001#32 bench.arg = .ok (.floorg 15#12 1#12) := ⟨rfl, rfl, by decide⟩

theorem witness_ResetEventRestoresResetState : (meets bench .rst).host = [.rst] := rfl

theorem witness_RunUsesEachTransactionOnce :
    ∃ t, Sys2Proof.core.run 3 { bench with host := [.read .word 0x0400#16, .rst, .write .half 0x0004#16 0#32] } = .next t :=
  next_of_answer (by decide +kernel)

/-- Both forms of the one fault: a published table without contents, a pixel never written. -/
theorem witness_OnlyModelFaultStops :
    step (wr { State.reset with tvalid := 0x01#8 } 0x0000#16 0x020000FF#32) = .fault (.tableNoValue 0 0) ∧
      step (wr State.reset 0x0000#16 0x22000001#32) = .fault (.pixelNoValue 0) := ⟨rfl, rfl⟩

/-- `bench` without its tables' contents. -/
def benchNoTables : State := { bench with mem := Memory.cells 0x4000 pixelBytes }

/-- The other clause: commands whose checks pass, with each kind of operand missing in turn, and one with all of them there. -/
theorem witness_OnlyModelFaultStops_operands :
    [(Instr.floorg 0#12 1#12, { bench with mem := [] }), (.applyf 0#12 1#12, benchNoTables), (.applyi 0#12 1#12, benchNoTables),
      (.scale 0#12 1#12, benchNoTables), (.scalef 0#12 1#12, benchNoTables), (.blend 0#12 0#12 1#12 0#8, benchNoTables),
      (.blend 0#12 0#12 1#12 0#8, { bench with mem := Memory.cells 0x4000 (wordBytes 0#32) }),
      (.invert 0#2 255#8, benchNoTables), (.floorg 15#12 1#12, bench)].map
        (fun x => (firstFailure x.1 x.2, match exec x.1 x.2 with | .fault f => some f | _ => none))
      = [(none, some (.pixelNoValue 0)), (none, some (.tableNoValue 0 255)), (none, some (.tableNoValue 4 255)),
        (none, some (.tableNoValue 3 255)), (none, some (.tableNoValue 3 255)), (none, some (.tableNoValue 4 255)),
        (none, some (.pixelNoValue 1)), (none, some (.tableNoValue 0 0)), (none, none)] := by decide +kernel

/-- A pixel of the range holds a value, and the operands of FLOORG on it with it. -/
theorem witness_OperandsHeld : OperandsHeld (.floorg 15#12 1#12) bench ∧ ¬ OperandsHeld (.floorg 0#12 1#12) State.reset :=
  ⟨fun k _ h => ⟨_, bench_pixel k h, trivial⟩, fun h => nomatch h 0 (by decide) (by decide)⟩

/-- Steps that set the mark: a dropped, an illegal and a faulting command; and one that does not. -/
theorem witness_MarkRecordsLostCommands :
    [wr { bench with err := true } 0x0000#16 0x22000000#32, wr bench 0x0000#16 0#32, wr bench 0x0000#16 0x01000000#32,
      wr bench 0x0000#16 0x22000000#32].map (fun s => (answer (step s)).map (fun t => t.commandLost))
      = [some true, some true, some true, some false] := by decide +kernel

/-! Faults -/

/-- Every cause is a first failure, each ahead of the later checks where a command has them. -/
theorem witness_FirstFailingCheckFaults :
    firstFailure (.invert 3#2 0#8) State.reset = some .illegalCmd ∧
    firstFailure (.applyf 17#12 0#12) State.reset = some .pixRange ∧
    firstFailure (.blend 0#12 16#12 0#12 0#8) State.reset = some .pixRange ∧
    firstFailure (.build 0#2 0#8 0#8) State.reset = some .badRange ∧
    firstFailure (.build 0#2 1#8 1#8) State.reset = some .badGamma ∧
    firstFailure (.applyf 0#12 16#12) { State.reset with mode := .closedForm } = some .badGamma ∧
    firstFailure (.floorg 16#12 0#12) State.reset = none ∧
    firstFailure (.scale 16#12 0#12) State.reset = some .tableInvalid := by decide +kernel

/-- A command of each list of R203 that records a cause of its list. -/
theorem witness_CausesByCommand :
    State.reset.err = false ∧
      [Instr.build 0#2 1#8 1#8, .invert 0#2 1#8, .applyf 0#12 1#12, .floorg 17#12 0#12].map
        (fun i => (i.wf, (answer (exec i State.reset)).map (fun t => (t.err, t.cause))))
      = [(true, some (true, .badGamma)), (true, some (true, .tableInvalid)), (true, some (true, .tableInvalid)),
        (true, some (true, .pixRange))] := by decide +kernel

theorem witness_CommandsDropWhileErr :
    (wr { State.reset with err := true } 0x0000#16 0#32).err = true ∧
      (wr { State.reset with err := true } 0x0000#16 0#32).host = [.write .word 0x0000#16 0#32] := ⟨rfl, rfl⟩

theorem witness_StatusWriteClearsFault :
    (wr { State.reset with err := true } 0x0008#16 1#32).host = [.write .word 0x0008#16 1#32] ∧
      (wr { State.reset with err := true } 0x0008#16 2#32).host = [.write .word 0x0008#16 2#32] := ⟨rfl, rfl⟩

theorem witness_GammaValidIsPositiveFinite :
    [0x00000001#32, 0x3F800000#32, 0x7F7FFFFF#32].all gammaValid = true ∧
      [0x00000000#32, 0x80000000#32, 0x7F800000#32, 0xBF800000#32].any gammaValid = false ∧
      badRangeFails (.build 0#2 1#8 1#8) = false ∧ 0 ∈ gammasNeeded (.build 0#2 1#8 1#8) State.reset ∧
      2 ∈ gammasNeeded (.applyf 16#12 0#12) { State.reset with mode := .closedForm } := by decide

/-! Host transactions -/

/-- A bad access of each kind, at the ends of the holes. -/
theorem witness_BusErrorChangesNothing :
    busErrorAccess 16 .byte 0x0000 ∧ busErrorAccess 16 .word 0x4003 ∧ busErrorAccess 16 .word 0x002C ∧
      busErrorAccess 16 .word 0x0040 ∧ busErrorAccess 16 .word 0x03FC ∧ busErrorAccess 16 .word 0x0C00 ∧
      busErrorAccess 16 .word 0x3FFC ∧ busErrorAccess 16 .word 0x4040 ∧ busErrorAccess 16 .word 0xFFFC :=
  ⟨.inl (by decide), .inr (.inl (by decide)), .inr (.inr (.inl rfl)), .inr (.inr (.inr (.inl (by decide)))),
    .inr (.inr (.inr (.inl (by decide)))), .inr (.inr (.inr (.inr (.inl (by decide))))),
    .inr (.inr (.inr (.inr (.inl (by decide))))), .inr (.inr (.inr (.inr (.inr (by decide))))),
    .inr (.inr (.inr (.inr (.inr (by decide)))))⟩

/-- The last pixel, the last word of the last table window, and every register offset. -/
theorem witness_HostReadReturns :
    (¬ busErrorAccess bench.npix .word (0x403C#16).toNat ∧ (rd bench 0x403C#16).host = [.read .word 0x403C#16] ∧
      (0x403C#16).toNat = 0x4000 + 4 * 15 ∧ bench.mem.readWord (pixAddr 15) = some 0x20FF8040#32) ∧
    (¬ busErrorAccess bench.npix .word (0x0BFC#16).toNat ∧ (0x0BFC#16).toNat = 0x0400 + 0x100 * 7 + 4 * 63 ∧
      bench.mem.read (tblAddr 7 (4 * 63 + 3)) = some 255#8 ∧ ∀ b, b < 4 → EntryHeld bench 7 (4 * 63 + b)) ∧
    ∀ a ∈ [0x000, 0x004, 0x008, 0x00C, 0x010, 0x014, 0x018, 0x01C, 0x020, 0x024, 0x028, 0x030, 0x034, 0x038, 0x03C],
      ¬ busErrorAccess bench.npix .word a := by
  refine ⟨⟨?_, rfl, by decide, bench_pixel 15 (by decide)⟩, ⟨?_, by decide, bench_entry (by decide) (by decide), fun b hb => ?_⟩, ?_⟩
  case refine_3 => exact Option.isSome_iff_exists.mpr ⟨_, bench_entry (by decide) (by omega)⟩
  all_goals
    unfold busErrorAccess
    decide

/-- A write to each register the statement names, and to the first and the last pixel, with one field after each step. -/
theorem witness_HostWriteStores :
    (∀ a ∈ [0x0004, 0x0014, 0x0018, 0x0024, 0x0030, 0x0034, 0x0038, 0x003C, 0x000C, 0x0010, 0x0020, 0x0028, 0x4000, 0x403C],
      (wr bench (BitVec.ofNat 16 a) 0xFFFFFFFF#32).host = [.write .word (BitVec.ofNat 16 a) 0xFFFFFFFF#32]) ∧
    15 < bench.npix ∧ (0x4000#16).toNat = 0x4000 + 4 * 0 ∧ (0x403C#16).toNat = 0x4000 + 4 * 15 ∧
    ([0x0004#16, 0x0014#16, 0x0024#16, 0x003C#16, 0x0020#16].map (fun a =>
      (answer (step (wr { bench with tvalid := 0#8 } a 0xFFFFFFFF#32))).map (fun t =>
        (t.arg, t.mode, t.tvalid, t.gamma.dim, t.floor.r))))
      = [some (0xFFFFFFFF#32, .lookupTable, 0#8, 0x3F800000#32, 1#8), some (0#32, .closedForm, 0#8, 0x3F800000#32, 1#8),
        some (0#32, .lookupTable, 0xFF#8, 0x3F800000#32, 1#8), some (0#32, .lookupTable, 0#8, 0xFFFFFFFF#32, 1#8),
        some (0#32, .lookupTable, 0#8, 0x3F800000#32, 1#8)] :=
  ⟨fun _ _ => rfl, by decide, by decide, by decide, by decide +kernel⟩

theorem witness_TableWindowWriteUnpublishes :
    (0x0BFC#16).toNat = 0x0400 + 0x100 * 7 + 4 * 63 ∧ (0x0600#16).toNat = 0x0400 + 0x100 * 2 + 4 * 0 ∧
      (wr bench 0x0BFC#16 1#32).host = [.write .word 0x0BFC#16 1#32] := ⟨by decide, by decide, rfl⟩

theorem witness_FloorFollowsCc :
    (wr bench 0x001C#16 0x00FF8040#32).host = [.write .word 0x001C#16 0x00FF8040#32] ∧
      (∃ t, step (wr bench 0x0020#16 0x00FF8040#32) = .next t) ∧ ∃ t, exec (.floorg 15#12 1#12) bench = .next t :=
  ⟨rfl, next_of_answer (by decide +kernel), next_of_answer (by decide +kernel)⟩

theorem witness_FloorIsSmallestSurvivor : (2#8 : Byte) ≠ 0#8 ∧ 1 ≤ 128 ∧ 1 ≤ 128 * (2#8).toNat / 255 := by decide

theorem witness_CommandsKeepRegisters :
    (∃ t, exec (.floorg 15#12 1#12) bench = .next t) ∧ firstFailure (.floorg 15#12 1#12) bench = none ∧
      ∃ t, exec (.build 0#2 4#8 6#8) bench = .next t :=
  ⟨next_of_answer (by decide +kernel), by decide +kernel, next_of_answer (by decide +kernel)⟩

/-! BUILD and INVERT -/

theorem witness_BuildMakesExactTable :
    (1#8 : Byte) ≠ 0#8 ∧ gammaValid (bench.gamma.get (3#2).toNat) = true ∧
      gammaValid (State.reset.gamma.get (0#2).toNat) = false ∧
      (0x0104FFFF#32).extractLsb' 24 8 = 0x01#8 ∧ (0x0104FFFF#32).extractLsb' 18 6 ≠ 0#6 ∧
      (0x0103FFFF#32).extractLsb' 18 6 = 0#6 := by decide

theorem witness_BuiltTableShape :
    (4#8 : Byte) ≠ 0#8 ∧ (6#8 : Byte) ≠ 0#8 ∧ gammaValid (bench.gamma.get (0#2).toNat) = true ∧
      ∃ t, exec (.build 0#2 4#8 6#8) bench = .next t :=
  ⟨by decide, by decide, by decide, next_of_answer (by decide +kernel)⟩

theorem witness_InvertFollowsAlgorithm :
    (2#2 : Tid) ≠ 3#2 ∧ (1#8 : Byte) ≠ 0#8 ∧ bench.valid (2#2).toNat = true ∧
      (∀ i, i < 256 → bench.mem.read (tblAddr (2#2).toNat i) = some (BitVec.ofNat 8 i)) ∧
      State.reset.valid (2#2).toNat = false ∧
      (0x020300FF#32).extractLsb' 24 8 = 0x02#8 ∧ (0x020300FF#32).extractLsb' 16 2 = 3#2 ∧
      (0x0200FFFF#32).extractLsb' 8 8 ≠ 0#8 ∧ (0x02040000#32).extractLsb' 18 6 ≠ 0#6 :=
  ⟨by decide, by decide, by decide, fun _ hi => bench_entry (by decide) hi, by decide, by decide, by decide, by decide, by decide⟩

/-! APPLYF and APPLYI -/

theorem witness_ApplyfCorrectsPixels :
    (bench.mode = .lookupTable ∧ (1#12).toNat + (15#12).toNat ≤ bench.npix ∧ bench.valid 0 = true ∧ bench.valid 1 = true ∧
      bench.valid 2 = true ∧ bench.PixelsFilled (1#12).toNat (15#12).toNat ∧ EntriesFilled bench 1#12 15#12 (fun c => c)) ∧
    (benchClosed.mode = .closedForm ∧ (∀ c, c < 3 → gammaValid (benchClosed.gamma.get c) = true) ∧
      benchClosed.PixelsFilled (1#12).toNat (15#12).toNat) ∧
    bench.npix < (1#12).toNat + (16#12).toNat ∧ (16#12).toNat + (0#12).toNat ≤ bench.npix ∧
    ({ bench with tvalid := 0xFB#8 } : State).valid 2 = false ∧
    ∃ c, c < 3 ∧ gammaValid (({ benchClosed with gamma := ⟨0x3F800000#32, 0x3F800000#32, 0#32, 0#32⟩ } : State).gamma.get c) = false :=
  ⟨⟨rfl, by decide, by decide, by decide, by decide, bench_pixels (by decide), bench_filled _ _ (fun c hc => by omega)⟩,
    ⟨rfl, by decide, bench_pixels (by decide)⟩, by decide, by decide, by decide, ⟨2, by decide, by decide⟩⟩

theorem witness_ApplyiLinearizesPixels :
    ((0#12).toNat + (16#12).toNat ≤ bench.npix ∧ bench.valid 4 = true ∧ bench.valid 5 = true ∧ bench.valid 6 = true ∧
      bench.PixelsFilled (0#12).toNat (16#12).toNat ∧ EntriesFilled bench 0#12 16#12 (fun c => c + 4)) ∧
    bench.npix < (17#12).toNat + (0#12).toNat ∧ ({ bench with tvalid := 0xBF#8 } : State).valid 6 = false :=
  ⟨⟨by decide, by decide, by decide, by decide, bench_pixels (by decide), bench_filled _ _ (fun c hc => by omega)⟩, by decide,
    by decide⟩

theorem identity_table : gammaTable 255#8 255#8 0x3F800000#32 = (List.range 256).map (BitVec.ofNat 8) := by decide +kernel

/-- The tables of `bench` are those that BUILD c, 255, 255 makes from its gammas, 1.0. -/
theorem witness_CorrectionModesAgree :
    bench.valid 0 = true ∧ bench.valid 1 = true ∧ bench.valid 2 = true ∧
      ∀ c, c < 3 → gammaValid (bench.gamma.get c) = true ∧
        ∃ u u', exec (.build (BitVec.ofNat 2 c) 255#8 255#8) u = .next u' ∧ u.gamma.get c = bench.gamma.get c ∧
          ∀ i, i < 256 → bench.mem.read (tblAddr c i) = u'.mem.read (tblAddr c i) := by
  refine ⟨by decide, by decide, by decide, fun c hc => ?_⟩
  have hg : bench.gamma.get c = 0x3F800000#32 := by
    match c, hc with
    | 0, _ => rfl
    | 1, _ => rfl
    | 2, _ => rfl
  have ht : (BitVec.ofNat 2 c).toNat = c := by
    rw [BitVec.toNat_ofNat]
    omega
  refine ⟨by rw [hg]; decide, bench, buildCommit (BitVec.ofNat 2 c) 255#8 255#8 bench, exec_commit ?_ rfl, rfl, fun i hi => ?_⟩
  · match c, hc with
    | 0, _ => rfl
    | 1, _ => rfl
    | 2, _ => rfl
  · have h := (bench.storeTable_reads c (gammaTable_length 255#8 255#8 (bench.gamma.get c))).1 i hi
    rw [hg, identity_table, List.getElem?_map, List.getElem?_range hi] at h
    rw [bench_entry (by omega) hi]
    refine h.symm.trans ?_
    unfold buildCommit
    rw [ht, hg, identity_table]
    rfl

/-- In a state that meets the premises of CorrectionModesAgree both modes complete, and with the same state but for MODE. -/
theorem witness_CorrectionModesAgree_completes :
    ∃ t : State, exec (.applyf 15#12 1#12) { bench with mode := .lookupTable } = .next { t with mode := .lookupTable } ∧
      exec (.applyf 15#12 1#12) { bench with mode := .closedForm } = .next { t with mode := .closedForm } := by
  have run : ∀ m, (∀ c, c < 3 → ({ bench with mode := m } : State).forwardChannel c (chan 0x20FF8040#32 c)
        = .ok (chan 0x20FF8040#32 c)) →
      ({ bench with mode := m } : State).mapPixels 15#12 1#12 ({ bench with mode := m } : State).applyForward
        = .ok (({ bench with mode := m } : State).storePixels 15 [0x20FF8040#32]) := by
    intro m h
    have hq : ({ bench with mode := m } : State).applyForward 0x20FF8040#32 = .ok 0x20FF8040#32 :=
      State.applyForward_ok.mpr ⟨rfl, h⟩
    exact Except.bind_ok.mpr ⟨[0x20FF8040#32], Except.bind_ok.mpr ⟨_, State.pixel_ok.mpr (bench_pixel 15 (by decide)),
      Except.bind_ok.mpr ⟨_, hq, rfl⟩⟩, rfl⟩
  refine ⟨bench.storePixels 15 [0x20FF8040#32], exec_commit (by rfl) (run .lookupTable fun c hc => ?_),
    exec_commit (by decide +kernel) (run .closedForm ?_)⟩
  · simp only [State.forwardChannel, State.entry_ok]
    rw [bench_entry (by omega) (chan _ c).isLt, BitVec.ofNat_toNat, BitVec.setWidth_eq]
  · have identity : ∀ v : Fin 3, closedForm (chan 0x20FF8040#32 v) (bench.gamma.get v) = chan 0x20FF8040#32 v := by
      decide +kernel
    exact fun c hc => congrArg Except.ok (identity ⟨c, hc⟩)

/-! SCALE, SCALEF and FLOORG -/

/-- LEVEL = 0 and LEVEL = 255, over the last pixel. -/
theorem witness_ScaleDimsPixels :
    (15#12).toNat + (1#12).toNat ≤ bench.npix ∧ bench.valid 3 = true ∧ bench.valid 7 = true ∧
      bench.PixelsFilled (15#12).toNat (1#12).toNat ∧ bench.mem.read (tblAddr 3 bench.level.toNat) = some 255#8 ∧
      (bench.level ≠ 0#8 → ∃ y, bench.mem.read (tblAddr 7 bench.level.toNat) = some y ∧ (255#8 : Byte) = if y = 0#8 then 1#8 else y) ∧
      (benchDark.mem.read (tblAddr 3 benchDark.level.toNat) = some 0#8 ∧ ¬ benchDark.level ≠ 0#8) ∧
      bench.npix < (15#12).toNat + (2#12).toNat ∧ ({ bench with tvalid := 0x08#8 } : State).valid 7 = false :=
  ⟨by decide, by decide, by decide, bench_pixels (by decide), bench_entry (by decide) (by decide),
    fun _ => ⟨255#8, bench_entry (by decide) (by decide), by decide⟩,
    ⟨bench_entry (w := 3) (i := 0) (by decide) (by decide), fun h => h rfl⟩, by decide, by decide⟩

theorem witness_ScalefDimsAndGuardsPixels :
    (15#12).toNat + (1#12).toNat ≤ bench.npix ∧ bench.valid 3 = true ∧ bench.valid 7 = true ∧
      bench.PixelsFilled (15#12).toNat (1#12).toNat ∧ bench.mem.read (tblAddr 3 bench.level.toNat) = some 255#8 ∧
      (∃ y, bench.mem.read (tblAddr 7 bench.level.toNat) = some y ∧ (255#8 : Byte) = if y = 0#8 then 1#8 else y) ∧
      ({ bench with tvalid := 0x80#8 } : State).valid 3 = false :=
  ⟨by decide, by decide, by decide, bench_pixels (by decide), bench_entry (by decide) (by decide),
    ⟨255#8, bench_entry (by decide) (by decide), by decide⟩, by decide⟩

theorem witness_FloorgRaisesToFloor :
    (16#12).toNat + (0#12).toNat ≤ bench.npix ∧ (0#12).toNat + (16#12).toNat ≤ bench.npix ∧
      bench.PixelsFilled (0#12).toNat (16#12).toNat ∧ bench.npix < (17#12).toNat + (0#12).toNat :=
  ⟨by decide, by decide, bench_pixels (by decide), by decide⟩

theorem witness_FloorgIdempotent :
    (15#12).toNat + (1#12).toNat ≤ bench.npix ∧ ∃ t, exec (.floorg 15#12 1#12) bench = .next t :=
  ⟨by decide, next_of_answer (by decide +kernel)⟩

theorem witness_ScalefIsScaleThenFloorg :
    (0#12).toNat + (16#12).toNat ≤ bench.npix ∧ bench.valid 3 = true ∧ bench.valid 7 = true := by decide

/-! Ranges -/

theorem witness_RangeCommandSplits :
    (1#12).toNat + (3#12).toNat < 4096 ∧ (3#12).toNat + (12#12).toNat < 4096 ∧
      firstFailure (.applyf 1#12 (3#12 + 12#12)) bench = none ∧ firstFailure (.scalef 1#12 (3#12 + 12#12)) bench = none := by
  decide +kernel

/-- BASE = NPIX with COUNT = 0. -/
theorem witness_EmptyRangeChangesNothing :
    firstFailure (.floorg 16#12 0#12) State.reset = none ∧ firstFailure (.scale 16#12 0#12) bench = none := by decide +kernel

/-! BLEND -/

theorem witness_BlendStoresOnePixel :
    (15#12).toNat < bench.npix ∧ bench.valid 0 = true ∧ bench.valid 1 = true ∧ bench.valid 2 = true ∧ bench.valid 4 = true ∧
      bench.valid 5 = true ∧ bench.valid 6 = true ∧
      bench.mem.readWord (pixAddr (15#12).toNat) = some 0x20FF8040#32 ∧
      (∀ c, c < 3 → ∃ la lb, bench.mem.read (tblAddr (c + 4) (chan 0x20FF8040#32 c).toNat) = some la ∧
        bench.mem.read (tblAddr (c + 4) (chan 0x20FF8040#32 c).toNat) = some lb ∧
        (bench.mem.read (tblAddr c (lerp la lb 128#8).toNat)).isSome) ∧
      bench.npix ≤ (16#12).toNat ∧ ({ bench with tvalid := 0xBF#8 } : State).valid 6 = false ∧
      (0x30801002#32).extractLsb' 24 8 = 0x30#8 ∧ (0x30801002#32).extractLsb' 12 4 ≠ 0#4 ∧ (0x01000001#32).extractLsb' 24 8 ≠ 0#8 :=
  ⟨by decide, by decide, by decide, by decide, by decide, by decide, by decide, bench_pixel 15 (by decide),
    fun c hc => ⟨_, _, bench_entry (by omega) (chan _ c).isLt, bench_entry (by omega) (chan _ c).isLt, by
      rw [bench_entry (by omega) (lerp _ _ _).isLt]; rfl⟩,
    by decide, by decide, by decide, by decide, by decide⟩

/-- On `bench`, whose tables are the identity and whose pixels are equal, BLEND stores that same pixel. -/
theorem bench_blend (dst a b : Index) (amt : Byte) (hd : dst.toNat < 16) (ha : a.toNat < 16) (hb : b.toNat < 16) :
    exec (.blend dst a b amt) bench = .next (bench.storePixels dst.toNat [0x20FF8040#32]) := by
  have past : ∀ {k : Index}, k.toNat < 16 → bench.indexPast k = false := fun h => decide_eq_false (by
    show ¬ 16 ≤ _
    omega)
  have word (x : Byte) : BitVec.ofNat 8 x.toNat = x := by rw [BitVec.ofNat_toNat, BitVec.setWidth_eq]
  refine exec_commit ?_ ?_
  · simp only [checksOf, past hd, past ha, past hb]
    rfl
  · refine Except.bind_ok.mpr ⟨_, State.pixel_ok.mpr (bench_pixel _ ha), Except.bind_ok.mpr ⟨_, State.pixel_ok.mpr (bench_pixel _ hb),
      Except.bind_ok.mpr ⟨0x20FF8040#32, State.blendPixels_ok.mpr ⟨rfl, fun c hc => ⟨chan 0x20FF8040#32 c, chan 0x20FF8040#32 c, ?_, ?_, ?_⟩⟩, rfl⟩⟩⟩
    · rw [State.entry_ok, bench_entry (by omega) (chan _ c).isLt, word]
    · rw [State.entry_ok, bench_entry (by omega) (chan _ c).isLt, word]
    · have self : (lerp (chan 0x20FF8040#32 c) (chan 0x20FF8040#32 c) amt) = chan 0x20FF8040#32 c := by
        apply BitVec.eq_of_toNat_eq
        have := amt.isLt
        rw [lerp_toNat, ← Nat.mul_add, Nat.sub_add_cancel (by omega)]
        omega
      rw [State.entry_ok, self, bench_entry (by omega) (chan _ c).isLt, word]

theorem witness_BlendInPlaceKeepsB : (0#12 : Index) ≠ 15#12 ∧ ∃ t, exec (.blend 0#12 0#12 15#12 255#8) bench = .next t :=
  ⟨by decide, _, bench_blend _ _ _ _ (by decide) (by decide) (by decide)⟩

theorem witness_BlendWithItselfIgnoresAmount :
    firstFailure (.blend 15#12 0#12 0#12 0#8) bench = none ∧ ∃ t, exec (.blend 15#12 0#12 0#12 0#8) bench = .next t :=
  ⟨by decide +kernel, _, bench_blend _ _ _ _ (by decide) (by decide) (by decide)⟩

theorem witness_BlendSwapKeepsChannels :
    firstFailure (.blend 3#12 0#12 1#12 128#8) bench = none ∧
      ∃ t u, exec (.blend 3#12 0#12 1#12 128#8) bench = .next t ∧
        exec (.blend 3#12 1#12 0#12 (255#8 - 128#8)) bench = .next u ∧
        t.mem.readWord (pixAddr 3) = some 0x20FF8040#32 ∧ u.mem.readWord (pixAddr 3) = some 0x20FF8040#32 := by
  have stored : (bench.storePixels (3#12).toNat [0x20FF8040#32]).mem.readWord (pixAddr 3) = some 0x20FF8040#32 :=
    Memory.readWord_storeWords bench.mem 3 [0x20FF8040#32] (i := 0) (by decide)
  exact ⟨by decide +kernel, _, _, bench_blend _ _ _ _ (by decide) (by decide) (by decide),
    bench_blend _ _ _ _ (by decide) (by decide) (by decide), stored, stored⟩

end Sys2Proof.Tests
end

/-! SUPPORT. Every step keeps the invariant of the machine: what a store keeps of memory, one lemma per update of the
state, then commands, host transactions and the step, each by its inversion lemma. -/

namespace Sys2Proof.Machine

section
variable {s : State}

/-! ### Memory after a store -/

/-- A store of bytes inside the windows (20_memory.md R51) adds no cell outside them. -/
theorem State.Inv.mapped_store (h : s.Inv) {a : Nat} {bs : List Byte}
    (hb : ∀ x, a ≤ x → x < a + bs.length → mapped s.npix x) : ∀ c ∈ s.mem.store a bs, mapped s.npix c.1 := by
  intro c hc
  rcases Memory.mem_store hc with hold | ⟨hlo, hhi⟩
  · exact h.inWindows c hold
  · exact hb c.1 hlo hhi

/-- A store below the pixel window leaves every pixel word as it was. -/
theorem State.Inv.whole_storeBelow (h : s.Inv) {a : Nat} {bs : List Byte} (ha : a + bs.length ≤ 0x4000) (k j : Nat)
    (hj : j < 4) (hnone : (s.mem.store a bs).readWord (pixAddr k) = none) :
    (s.mem.store a bs).read (pixAddr k + j) = none := by
  have same : ∀ i, (s.mem.store a bs).read (pixAddr k + i) = s.mem.read (pixAddr k + i) := fun i =>
    Memory.read_store_outside s.mem (by unfold pixAddr; omega)
  rw [Memory.readWord_congr fun i _ => same i] at hnone
  rw [same]
  exact h.whole k j hj hnone

/-- After a store of pixel words, a pixel of the block holds its word and every other pixel is as it was. -/
theorem State.Inv.whole_storePixels (h : s.Inv) (k : Nat) (ps : List Word) (x j : Nat) (hj : j < 4)
    (hnone : (s.storePixels k ps).mem.readWord (pixAddr x) = none) :
    (s.storePixels k ps).mem.read (pixAddr x + j) = none := by
  rw [State.storePixels_mem] at hnone ⊢
  by_cases hx : k ≤ x ∧ x < k + ps.length
  · have hi : x - k < ps.length := by omega
    have stored := Memory.readWord_storeWords s.mem k ps hi
    rw [Nat.add_sub_cancel' hx.1, hnone, List.getElem?_eq_getElem hi] at stored
    cases stored
  · have out : x < k ∨ k + ps.length ≤ x := by omega
    rw [Memory.readWord_storeWords_outside s.mem out] at hnone
    rw [Memory.read_store_outside s.mem (by rw [flatMap_wordBytes_length]; unfold pixAddr; omega)]
    exact h.whole x j hj hnone

/-! ### The updates of the state -/

/-- The invariant does not speak of the other registers, the events to come, the responses or the draws. -/
theorem State.Inv.frame (h : s.Inv) {arg errInfo errArg : Word} {mode : Mode} {level : Byte} {tvalid : BitVec 8}
    {gamma : Gammas} {host : List HostEvent} {log : List Response} {draws : Nat} :
    ({ s with
        arg := arg, errInfo := errInfo, errArg := errArg, mode := mode, level := level, tvalid := tvalid,
        gamma := gamma, host := host, log := log, draws := draws } : State).Inv :=
  ⟨h.wf, h.inWindows, h.whole, h.npixRange, h.floorOfCc, h.clear, h.faulted⟩

theorem State.Inv.respond (h : s.Inv) (r : Response) : (s.respond r).Inv := h.frame

theorem State.Inv.setValid (h : s.Inv) (w : Nat) (v : Bool) : (s.setValid w v).Inv := h.frame

theorem State.Inv.dropInverse (h : s.Inv) (w : Nat) : (s.dropInverse w).Inv := h.frame

theorem State.Inv.hostRead (h : s.Inv) (size : Size) (addr : Addr) : (s.hostRead size addr).Inv := by
  obtain ⟨r, hr⟩ := s.hostRead_eq size addr
  rw [hr]
  exact h.frame

/-- Fault entry records a cause and sets the mark (60_exceptions.md R204, R219). -/
theorem State.Inv.raise (h : s.Inv) (w : Word) {c : Cause} (hc : c ≠ .none) : (s.raise w c).Inv :=
  ⟨h.wf, h.inWindows, h.whole, h.npixRange, h.floorOfCc, Bool.noConfusion, fun _ => ⟨hc, rfl⟩⟩

/-- A command is dropped only while a fault is recorded, whose cause stays (R206). -/
theorem State.Inv.dropCommand (h : s.Inv) (he : s.err = true) : s.dropCommand.Inv :=
  ⟨h.wf, h.inWindows, h.whole, h.npixRange, h.floorOfCc, fun hf => Bool.noConfusion (he.symm.trans hf),
    fun _ => ⟨(h.faulted he).1, rfl⟩⟩

theorem State.Inv.clearFault (h : s.Inv) : s.clearFault.Inv :=
  ⟨h.wf, h.inWindows, h.whole, h.npixRange, h.floorOfCc, fun _ => ⟨rfl, rfl⟩, Bool.noConfusion⟩

theorem State.Inv.writeStatus (h : s.Inv) (v : Word) : (s.writeStatus v).Inv := by
  unfold State.writeStatus
  split
  · exact h.clearFault
  · exact h

theorem State.Inv.writeCc (h : s.Inv) (v : Word) : (s.writeCc v).Inv :=
  ⟨h.wf, h.inWindows, h.whole, h.npixRange, rfl, h.clear, h.faulted⟩

/-- At factor 255 every floor is 1, so FLOOR after reset is the function of CC after reset (R231). -/
theorem floorsOf_full : floorsOf ⟨0xFF#8, 0xFF#8, 0xFF#8⟩ = ⟨1#8, 1#8, 1#8⟩ := rfl

theorem State.Inv.resetBlock (h : s.Inv) : s.resetBlock.Inv :=
  ⟨List.Pairwise.nil, fun _ hc => absurd hc List.not_mem_nil, fun _ _ _ _ => rfl, h.npixRange, floorsOf_full.symm,
    fun _ => ⟨rfl, rfl⟩, Bool.noConfusion⟩

/-- Bytes stored inside the table windows touch no pixel word. -/
theorem State.Inv.storeBytes (h : s.Inv) {a : Nat} {bs : List Byte} (hlo : 0x0400 ≤ a) (hhi : a + bs.length ≤ 0x0C00) :
    ({ s with mem := s.mem.store a bs } : State).Inv :=
  ⟨Memory.store_wf h.wf a bs, h.mapped_store fun x _ _ => .inl (by omega),
    h.whole_storeBelow (by omega), h.npixRange, h.floorOfCc, h.clear, h.faulted⟩

theorem State.Inv.storeTable (h : s.Inv) {w : Nat} {l : List Byte} (hw : w < 8) (hl : l.length = 256) :
    (s.storeTable w l).Inv :=
  h.storeBytes (by unfold tblAddr; omega) (by unfold tblAddr; omega)

/-- A host write to a table window stores four entries of one table (20_memory.md R59). -/
theorem State.Inv.writeTable (h : s.Inv) {w j : Nat} (hw : w < 8) (hj : j < 64) (v : Word) : (s.writeTable w j v).Inv :=
  ((h.storeBytes (a := tblAddr w (4 * j)) (bs := wordBytes v) (by unfold tblAddr; omega)
    (by rw [wordBytes_length]; unfold tblAddr; omega)).setValid w false).dropInverse w

/-- Pixel words stored inside the pixel buffer. -/
theorem State.Inv.storePixels (h : s.Inv) {k : Nat} {ps : List Word} (hk : k + ps.length ≤ s.npix) :
    (s.storePixels k ps).Inv :=
  have inside : ∀ x, pixAddr k ≤ x → x < pixAddr k + (ps.flatMap wordBytes).length → mapped s.npix x := by
    intro x hlo hhi
    rw [flatMap_wordBytes_length] at hhi
    unfold pixAddr at hlo hhi
    exact .inr (by omega)
  ⟨Memory.store_wf h.wf _ _, h.mapped_store inside, h.whole_storePixels k ps,
    h.npixRange, h.floorOfCc, h.clear, h.faulted⟩

end

/-! ### Commands -/

/-- Every check has a cause (60_exceptions.md R203). -/
theorem checksOf_cause_ne_none {i : Instr} {s : State} : ∀ c ∈ checksOf i s, c.2 ≠ .none := by
  cases i with
  | applyf base count => cases hm : s.mode <;> simp [checksOf, State.applyfCheck, hm]
  | _ => simp [checksOf]

/-- A range command that completes has stored one word per pixel of its range. -/
theorem State.mapPixels_eq_storePixels {s t : State} {base count : Index} {f : Word → Except Fault Word}
    (h : s.mapPixels base count f = .ok t) : ∃ qs, qs.length = count.toNat ∧ t = s.storePixels base.toNat qs := by
  unfold State.mapPixels at h
  obtain ⟨qs, hq, ht⟩ := Except.bind_ok.mp h
  cases ht
  exact ⟨qs, (State.newPixels_ok.mp hq).1, rfl⟩

/-- Where the range check comes first and no check fails, the range lies in the pixel buffer. -/
theorem State.Inv.mapPixels {s t : State} (h : s.Inv) {base count : Index} {rest : List (Bool × Cause)}
    {f : Word → Except Fault Word}
    (hc : ((s.rangePast base count, Cause.pixRange) :: rest).find? (fun c => c.1) = none)
    (hm : s.mapPixels base count f = .ok t) : t.Inv := by
  have fits : s.rangePast base count = false := by simpa using List.find?_eq_none.mp hc _ List.mem_cons_self
  obtain ⟨qs, hl, rfl⟩ := State.mapPixels_eq_storePixels hm
  refine h.storePixels ?_
  rw [hl]
  exact Nat.le_of_not_lt (of_decide_eq_false fits)

/-- What a command commits once its checks have passed keeps the invariant. -/
theorem State.Inv.commit {i : Instr} {s t : State} (h : s.Inv) (hc : (checksOf i s).find? (fun c => c.1) = none)
    (ht : commitOf i s = .ok t) : t.Inv := by
  cases i with
  | build tid maxIn maxOut =>
    cases ht
    exact ((h.storeTable (by omega) (gammaTable_length _ _ _)).setValid _ _).dropInverse _
  | invert tid maxOut =>
    obtain ⟨l, hl, ht⟩ := Except.bind_ok.mp ht
    cases ht
    exact (h.storeTable (by omega) (invLoop_length hl)).setValid _ _
  | applyf base count => exact h.mapPixels hc ht
  | applyi base count => exact h.mapPixels hc ht
  | scale base count => exact h.mapPixels hc ht
  | scalef base count => exact h.mapPixels hc ht
  | floorg base count => exact h.mapPixels hc ht
  | blend dst a b amt =>
    obtain ⟨pa, -, ht⟩ := Except.bind_ok.mp ht
    obtain ⟨pb, -, ht⟩ := Except.bind_ok.mp ht
    obtain ⟨q, -, ht⟩ := Except.bind_ok.mp ht
    cases ht
    have past : (s.indexPast dst || s.indexPast a || s.indexPast b) = false := by
      simpa using List.find?_eq_none.mp hc _ List.mem_cons_self
    rw [Bool.or_eq_false_iff, Bool.or_eq_false_iff] at past
    obtain ⟨⟨hdst, -⟩, -⟩ := past
    exact h.storePixels (Nat.lt_of_not_le (of_decide_eq_false hdst))

theorem State.Inv.exec {i : Instr} {s t : State} (h : s.Inv) (ht : exec i s = .next t) : t.Inv := by
  rcases exec_next ht with ⟨c, hc, rfl⟩ | ⟨hc, hcommit⟩
  · exact h.raise _ (checksOf_cause_ne_none c (List.mem_of_find?_eq_some hc))
  · exact h.commit hc hcommit

theorem State.Inv.onCmdWrite {s t : State} (h : s.Inv) {w : Word} (ht : s.onCmdWrite w = .next t) : t.Inv := by
  rcases State.onCmdWrite_next ht with ⟨he, rfl⟩ | ⟨-, -, rfl⟩ | ⟨-, i, -, hexec⟩
  · exact h.dropCommand he
  · exact h.raise w Cause.noConfusion
  · exact h.exec hexec

/-! ### Host transactions -/

/-- A table word that an access reaches lies in one of the eight tables. -/
theorem State.target_table_bounds {s : State} {size : Size} {addr : Addr} {w j : Nat}
    (ht : s.target size addr = .table w j) : w < 8 ∧ j < 64 := by
  rcases s.target_cases size addr with hr | ⟨-, -, hr⟩
  · rw [hr] at ht; cases ht
  · obtain ⟨hw, hj, -⟩ := region_eq_table (hr.symm.trans ht)
    exact ⟨hw, hj⟩

/-- A pixel that an access reaches lies in the pixel buffer. -/
theorem State.target_pixel_lt {s : State} {size : Size} {addr : Addr} {k : Nat}
    (ht : s.target size addr = .pixel k) : k < s.npix := by
  rcases s.target_cases size addr with hr | ⟨-, -, hr⟩
  · rw [hr] at ht; cases ht
  · exact (region_eq_pixel (hr.symm.trans ht)).1

theorem State.Inv.hostWrite {s t : State} (h : s.Inv) {size : Size} {addr : Addr} {v : Word}
    (ht : s.hostWrite size addr v = .next t) : t.Inv := by
  rcases State.hostWrite_next ht with ⟨-, u, hcmd, rfl⟩ | ⟨-, rfl⟩ | ⟨-, rfl⟩ | ⟨-, rfl⟩ | ⟨-, rfl⟩ | ⟨-, rfl⟩ | ⟨-, rfl⟩ |
    ⟨n, -, rfl⟩ | ⟨w, j, htable, rfl⟩ | ⟨k, hpixel, rfl⟩ | ⟨r, rfl⟩
  · exact (h.onCmdWrite hcmd).respond _
  · exact h.frame
  · exact (h.writeStatus v).respond _
  · exact h.frame
  · exact h.frame
  · exact (h.writeCc v).respond _
  · exact h.frame
  · exact h.frame
  · obtain ⟨hw, hj⟩ := State.target_table_bounds htable
    exact (h.writeTable hw hj v).respond _
  · exact (h.storePixels (State.target_pixel_lt hpixel)).respond _
  · exact h.respond r

/-! ### The step -/

/-- Settles O7, by cases on the event the step takes: each has its lemma above. -/
theorem stepKeepsInvariant : Obligations.StepKeepsInvariant := by
  intro s t h ht
  rcases step_next ht with ⟨-, rfl⟩ | ⟨rest, size, addr, -, rfl⟩ | ⟨rest, size, addr, v, -, hw⟩ | ⟨rest, -, rfl⟩
  · exact h
  · exact State.Inv.hostRead h.frame size addr
  · exact State.Inv.hostWrite h.frame hw
  · exact State.Inv.resetBlock h.frame

end Sys2Proof.Machine

namespace Sys2Proof.Machine

/-! ### STATUS as a number -/

/-- Bits 31:2 of STATUS: the cause's code above six zero bits. -/
theorem Cause.toNat_code_field (c : Cause) : (0#20 ++ c.code ++ 0#6).toNat = c.code.toNat * 2 ^ 6 := by
  rw [BitVec.toNat_append, BitVec.toNat_append, Nat.shiftLeft_eq]
  simp

/-- STATUS is the sum of its fields, each at its place value (10_state.md R27). -/
theorem State.statusWord_toNat (s : State) :
    s.statusWord.toNat = s.cause.code.toNat * 2 ^ 8 + s.drop.toNat * 2 + s.err.toNat := by
  rw [State.statusWord, BitVec.append_ofBool, BitVec.toNat_concat, BitVec.append_ofBool, BitVec.toNat_concat,
    Cause.toNat_code_field]
  omega

/-- Settles O20: the sum of STATUS's fields, then field by field the code of each cause (R201) and each flag's weight. -/
theorem statusReadsFields : Obligations.StatusReadsFields := by
  intro s
  rw [State.statusWord_toNat]
  refine congrArg₂ _ (congrArg₂ _ (congrArg (· * 2 ^ 8) ?code) ?drop) ?err
  case code => cases s.cause <;> rfl
  case drop => cases s.drop <;> rfl
  case err => cases s.err <;> rfl

end Sys2Proof.Machine

/-! SUPPORT. Host transactions: the event a step takes, the holes of the address map, what a read returns, what a write
stores. -/

namespace Sys2Proof.Machine

/-! ### The event a step takes -/

/-- A step takes the next event of the host's list and meets it (70_reset_and_hazards.md R241). -/
theorem step_event {s : State} {e : HostEvent} {rest : List HostEvent} (h : s.host = e :: rest) :
    step s = ({ s with host := rest } : State).onEvent e := by
  unfold step State.hostStep
  rw [h]

/-- Settles O8: the write reaches CMD, ERR = 0 and the word decodes, so the outcome is that of `exec`, case by case. -/
theorem stepRunsDecodedCommand : Obligations.StepRunsDecodedCommand := by
  intro s w rest i hh herr hd
  have runs : ({ s with host := rest } : State).onCmdWrite w = exec i { s with host := rest } := by
    unfold State.onCmdWrite
    simp only [herr, hd, Bool.false_eq_true, if_false]
  calc step s = writeDone (({ s with host := rest } : State).onCmdWrite w) := step_event hh
    _ = writeDone (exec i { s with host := rest }) := by rw [runs]
    _ = _ := by cases exec i { s with host := rest } <;> rfl

/-! ### The holes of the address map -/

/-- Of the aligned register offsets only 0x02C decodes to nothing (20_memory.md R52). -/
theorem registerAt_reserved : ∀ a < 0x40, a % 4 = 0 → registerAt a = .reserved → a = 0x2C := by decide

/-- An aligned address that decodes to nothing lies in a hole of the map (R51, R52). -/
theorem hole_of_region {n a : Nat} (ha : a % 4 = 0) (h : region n a = .reserved) :
    a = 0x002C ∨ (0x0040 ≤ a ∧ a < 0x0400) ∨ (0x0C00 ≤ a ∧ a < 0x4000) ∨ 0x4000 + 4 * n ≤ a := by
  unfold region at h
  split at h
  · next hreg => exact .inl (registerAt_reserved a hreg ha h)
  · split at h
    · omega
    · split at h
      · cases h
      · split at h
        · omega
        · split at h
          · cases h
          · omega

/-- What reaches nothing is exactly what R57 lists: another width, misaligned, or a hole of the map. -/
theorem State.target_reserved_iff {s : State} {size : Size} {addr : Addr} :
    s.target size addr = .reserved ↔ Claim.busErrorAccess s.npix size addr.toNat := by
  constructor
  · intro h
    by_cases hs : size = .word
    · subst hs
      by_cases ha : addr.toNat % 4 = 0
      · exact .inr (.inr (hole_of_region ha (State.target_word ha ▸ h)))
      · exact .inr (.inl ha)
    · exact .inl hs
  · rintro (hs | ha | hole)
    · exact s.target_narrow hs addr
    · exact s.target_unaligned size ha
    · rcases s.target_cases size addr with hr | ⟨-, -, hr⟩
      · exact hr
      · exact hr.trans (region_hole hole)

/-- A table word of the map (R53). -/
theorem State.target_table {s : State} {addr : Addr} {w j : Nat} (hw : w < 8) (hj : j < 64)
    (ha : addr.toNat = 0x0400 + 0x100 * w + 4 * j) : s.target .word addr = .table w j := by
  rw [State.target_word (by omega), ha, region_table hw hj]

/-- A pixel word of the map (R60). -/
theorem State.target_pixel {s : State} {addr : Addr} {k : Nat} (hk : k < s.npix) (ha : addr.toNat = 0x4000 + 4 * k) :
    s.target .word addr = .pixel k := by
  rw [State.target_word (by omega), ha, region_pixel hk]

/-! ### Bus errors -/

theorem State.hostRead_reserved {s : State} {size : Size} {addr : Addr} (h : s.target size addr = .reserved) :
    s.hostRead size addr = s.respond .busError := by
  unfold State.hostRead
  rw [h]

theorem State.hostWrite_reserved {s : State} {size : Size} {addr : Addr} (h : s.target size addr = .reserved) (v : Word) :
    s.hostWrite size addr v = .next (s.respond .busError) := by
  unfold State.hostWrite
  rw [h]

/-- Settles O18: a bad access reaches nothing, whatever the list holds, and such an access only answers. -/
theorem busErrorChangesNothing : Obligations.BusErrorChangesNothing := by
  intro s size addr rest hbad
  have hr : ({ s with host := rest } : State).target size addr = .reserved := State.target_reserved_iff.mpr hbad
  constructor
  · intro hh
    exact (step_event hh).trans (congrArg _ (State.hostRead_reserved hr))
  · intro v hh
    exact (step_event hh).trans (State.hostWrite_reserved hr v)

/-! ### Reads -/

/-- The entries of a table lie at consecutive byte addresses (R53). -/
theorem tblAddr_add (w i b : Nat) : tblAddr w (i + b) = tblAddr w i + b := (Nat.add_assoc _ i b).symm

/-- The value a host read of a mapped region returns (R54); a reserved one has none. -/
def State.readValue (s : State) : Region → Word
  | .cmd => 0#32
  | .arg => s.arg
  | .status => s.statusWord
  | .errInfo => s.errInfo
  | .errArg => s.errArg
  | .ctrl => 0#31 ++ s.mode.bit
  | .bright => 0#24 ++ s.level
  | .cc => wordOfRgb s.cc
  | .floor => wordOfRgb s.floor
  | .tvalid => 0#24 ++ s.tvalid
  | .npix => 0#19 ++ BitVec.ofNat 13 s.npix
  | .gamma t => s.gamma.get t
  | .table w j => s.windowWord (tblAddr w (4 * j))
  | .pixel k => s.windowWord (pixAddr k)
  | .reserved => 0#32

/-- Where all four bytes hold values, the free value is not used (10_state.md R39). -/
theorem State.windowWord_of_readWord {s : State} {a : Nat} {v : Word} (h : s.mem.readWord a = some v) :
    s.windowWord a = v := by
  unfold Memory.readWord at h
  split at h
  · next h0 h1 h2 h3 =>
    unfold State.windowWord Memory.readOr
    simpa only [h0, h1, h2, h3, Option.getD_some, Option.some.injEq] using h
  · cases h

theorem State.readWindow_eq (s : State) (a : Nat) :
    s.readWindow a = { s.respond (.value (s.windowWord a)) with draws := (s.readWindow a).draws } := by
  unfold State.readWindow
  split
  · next v hv => rw [State.windowWord_of_readWord hv]
  · rfl

theorem State.readWindow_draws_of_readWord {s : State} {a : Nat} {v : Word} (h : s.mem.readWord a = some v) :
    (s.readWindow a).draws = s.draws := by
  unfold State.readWindow
  rw [h]
  rfl

/-- A read of a mapped region answers its value; nothing else changes but the draws (R54). -/
theorem State.hostRead_value {s : State} {size : Size} {addr : Addr} (h : s.target size addr ≠ .reserved) :
    s.hostRead size addr =
      { s.respond (.value (s.readValue (s.target size addr))) with draws := (s.hostRead size addr).draws } := by
  unfold State.hostRead
  generalize s.target size addr = r at h
  cases r with
  | table w j => exact s.readWindow_eq _
  | pixel k => exact s.readWindow_eq _
  | reserved => exact absurd rfl h
  | _ => rfl

/-- A read below the table windows draws nothing. -/
theorem State.hostRead_draws_of_lt {s : State} {addr : Addr} (h : addr.toNat < 0x0400) (size : Size) :
    (s.hostRead size addr).draws = s.draws := by
  have map : s.target size addr = .reserved ∨ s.target size addr = region s.npix addr.toNat :=
    (s.target_cases size addr).imp_right fun hr => hr.2.2
  unfold State.hostRead
  generalize s.target size addr = r at map
  cases r with
  | table w j =>
    obtain ⟨-, -, ha⟩ := region_eq_table (map.resolve_left Region.noConfusion).symm
    omega
  | pixel k =>
    obtain ⟨-, ha⟩ := region_eq_pixel (map.resolve_left Region.noConfusion).symm
    omega
  | _ => rfl

/-- Byte `b` of a window word is the byte stored at its place, where one is (R61). -/
theorem State.windowWord_byte {s : State} {a b : Nat} {x : Byte} (hb : b < 4) (h : s.mem.read (a + b) = some x) :
    (s.windowWord a).extractLsb' (8 * b) 8 = x := by
  have stored : ∀ v, s.mem.readOr (a + b) v b = x := fun v => by rw [Memory.readOr, h, Option.getD_some]
  obtain ⟨h2, h1, h0, h3⟩ := chan_pixelWord (s.mem.readOr (a + 3) (Config.freeWord s.draws) 3)
    (s.mem.readOr (a + 2) (Config.freeWord s.draws) 2) (s.mem.readOr (a + 1) (Config.freeWord s.draws) 1)
    (s.mem.readOr a (Config.freeWord s.draws) 0)
  match b, hb with
  | 0, _ => exact h0.trans (stored _)
  | 1, _ => exact h1.trans (stored _)
  | 2, _ => exact h2.trans (stored _)
  | 3, _ => exact h3.trans (stored _)

/-! ### Register values as numbers -/

theorem toNat_append_eq {m n : Nat} (x : BitVec m) (y : BitVec n) : (x ++ y).toNat = x.toNat * 2 ^ n + y.toNat := by
  rw [BitVec.toNat_append, ← Nat.shiftLeft_add_eq_or_of_lt y.isLt, Nat.shiftLeft_eq]

theorem toNat_zero_append {m n : Nat} (y : BitVec n) : (0#m ++ y).toNat = y.toNat := by
  rw [toNat_append_eq, BitVec.toNat_zero, Nat.zero_mul, Nat.zero_add]

/-- Three fields of eight bits each (10_state.md R32, R34). -/
theorem toNat_wordOfRgb (x : Rgb) : (wordOfRgb x).toNat = x.r.toNat * 2 ^ 16 + x.g.toNat * 2 ^ 8 + x.b.toNat := by
  rw [wordOfRgb, toNat_append_eq, toNat_append_eq, toNat_zero_append]
  omega

theorem mode_word (m : Mode) : (0#31 ++ m.bit : Word) = if m = .closedForm then 1#32 else 0#32 := by
  cases m <;> rfl

/-- Settles O19: the value is that of the region the address decodes to. The clause of a register evaluates the address map
at its offset; the clauses of a window use what `target_table` and `target_pixel` say. -/
theorem hostReadReturns : Obligations.HostReadReturns := by
  intro s addr rest hgood hh
  have mapped : ({ s with host := rest } : State).target .word addr ≠ .reserved := mt State.target_reserved_iff.mp hgood
  have table : ∀ {w j}, w < 8 → j < 64 → addr.toNat = 0x0400 + 0x100 * w + 4 * j →
      ({ s with host := rest } : State).target .word addr = .table w j := State.target_table
  have pixel : ∀ {k}, k < s.npix → addr.toNat = 0x4000 + 4 * k →
      ({ s with host := rest } : State).target .word addr = .pixel k := State.target_pixel
  refine ⟨_, _, step_event hh, State.hostRead_value mapped, ?cmd, ?arg, ?status, ?errInfo, ?errArg, ?ctrl, ?bright, ?cc,
    ?floor, ?tvalid, ?npix, ?gammaR, ?gammaG, ?gammaB, ?gammaDim, ?entry, ?tableDraws, ?pixel, ?lowDraws⟩
  case ctrl => rintro rfl; exact mode_word s.mode
  case bright => rintro rfl; exact toNat_zero_append s.level
  case cc => rintro rfl; exact toNat_wordOfRgb s.cc
  case floor => rintro rfl; exact toNat_wordOfRgb s.floor
  case tvalid => rintro rfl; exact toNat_zero_append s.tvalid
  case npix =>
    rintro rfl hle
    calc (0#19 ++ BitVec.ofNat 13 s.npix : Word).toNat = s.npix % 2 ^ 13 := toNat_zero_append _
      _ = s.npix := Nat.mod_eq_of_lt (by omega)
  case entry =>
    intro w j b x hw hj hb ha hx
    rw [tblAddr_add] at hx
    rw [table hw hj ha]
    exact State.windowWord_byte hb hx
  case tableDraws =>
    intro w j hw hj ha held
    simp only [Claim.EntryHeld, tblAddr_add] at held
    unfold State.hostRead
    rw [table hw hj ha]
    exact State.readWindow_filled held
  case pixel =>
    intro k p hk ha hp
    refine ⟨?_, ?_⟩
    · rw [pixel hk ha]
      exact State.windowWord_of_readWord hp
    · unfold State.hostRead
      rw [pixel hk ha]
      exact State.readWindow_draws_of_readWord hp
  case lowDraws => exact fun hlt => State.hostRead_draws_of_lt hlt .word
  all_goals
    rintro rfl
    rfl

/-! ### Writes -/

/-- One pixel stored: its word reads back, and no byte outside it changes (20_memory.md R60). -/
theorem State.storePixel_reads (s : State) (k : Nat) (v : Word) :
    (s.storePixels k [v]).mem.readWord (pixAddr k) = some v ∧
      ∀ a, a < pixAddr k ∨ pixAddr (k + 1) ≤ a → (s.storePixels k [v]).mem.read a = s.mem.read a := by
  refine ⟨Memory.readWord_storeWords s.mem k [v] (i := 0) Nat.one_pos, fun a ha => ?_⟩
  have block : pixAddr (k + 1) = pixAddr k + ([v].flatMap wordBytes).length := Nat.add_assoc _ (4 * k) 4
  rw [State.storePixels_mem, Memory.read_store_outside s.mem (block ▸ ha)]

theorem State.hostWrite_pixel {s : State} {size : Size} {addr : Addr} {k : Nat} (h : s.target size addr = .pixel k) (v : Word) :
    s.hostWrite size addr v = .next ((s.storePixels k [v]).respond .ok) := by
  unfold State.hostWrite
  rw [h]

/-- Settles O21: the clause of a register evaluates the address map at its offset; a pixel is stored as `storePixel_reads`
says. -/
theorem hostWriteStores : Obligations.HostWriteStores := by
  intro s addr v rest hh
  have written : step s = ({ s with host := rest } : State).hostWrite .word addr v := step_event hh
  refine ⟨?arg, ?ctrl, ?bright, ?tvalid, ?gammaR, ?gammaG, ?gammaB, ?gammaDim, ?readOnly, ?pixel⟩
  case readOnly =>
    simp only [List.mem_cons, List.not_mem_nil, or_false]
    rintro (rfl | rfl | rfl | rfl) <;> exact written
  case pixel =>
    intro k hk ha
    have stored := State.hostWrite_pixel (s := { s with host := rest }) (State.target_pixel hk ha) v
    exact ⟨_, written.trans stored, rfl, State.storePixel_reads { s with host := rest } k v⟩
  all_goals
    rintro rfl
    exact written

theorem State.hostWrite_table {s : State} {size : Size} {addr : Addr} {w j : Nat} (h : s.target size addr = .table w j)
    (v : Word) : s.hostWrite size addr v = .next ((s.writeTable w j v).respond .ok) := by
  unfold State.hostWrite
  rw [h]

/-- One table word stored: its four entries read back, and no other byte changes (R53, R61). -/
theorem State.writeTable_reads (s : State) (w j : Nat) (v : Word) :
    (∀ b, b < 4 → (s.writeTable w j v).mem.read (tblAddr w (4 * j + b)) = some (v.extractLsb' (8 * b) 8)) ∧
      ∀ a, a < tblAddr w (4 * j) ∨ tblAddr w (4 * j) + 4 ≤ a → (s.writeTable w j v).mem.read a = s.mem.read a := by
  have mem : (s.writeTable w j v).mem = s.mem.store (tblAddr w (4 * j)) (wordBytes v) := rfl
  rw [mem]
  refine ⟨fun b hb => ?_, fun a ha => Memory.read_store_outside s.mem ha⟩
  rw [tblAddr_add, Memory.read_store_inside s.mem (bs := wordBytes v) hb]
  match b, hb with
  | 0, _ | 1, _ | 2, _ | 3, _ => rfl

/-- The valid bits after a table word was written (R59). -/
theorem State.valid_writeTable (s : State) {w x : Nat} (hw : w < 8) (hx : x < 8) (j : Nat) (v : Word) :
    (s.writeTable w j v).valid x = if x = w ∨ (w < 3 ∧ x = w + 4) then false else s.valid x := by
  unfold State.writeTable
  rw [State.valid_dropInverse _ hx, State.valid_setValid _ hw hx]
  by_cases hinv : w < 3 ∧ x = w + 4
  · rw [if_pos hinv, if_pos (.inr hinv)]
  · simp only [hinv, if_false, or_false]
    rfl

/-- Settles O22: the write reaches word `j` of table `w`; its entries, its frame and the valid bits each have their lemma. -/
theorem tableWindowWriteUnpublishes : Obligations.TableWindowWriteUnpublishes := by
  intro s addr v rest w j hw hj ha hh
  obtain ⟨entries, frame⟩ := State.writeTable_reads { s with host := rest } w j v
  have stored := State.hostWrite_table (s := { s with host := rest }) (State.target_table hw hj ha) v
  exact ⟨_, (step_event hh).trans stored, rfl, entries, frame,
    fun x hx => State.valid_writeTable { s with host := rest } hw hx j v⟩

end Sys2Proof.Machine

/-! SUPPORT. Decoding and encoding (30_encoding.md): the fields of an encoded word come back, a word that decodes is
rebuilt from its fields, and the illegal words are those of R86. -/

namespace Sys2Proof

/-! ### Decoding an encoded word -/

theorem decodeBuild_formatT (opc : Byte) (tid : Tid) (maxIn maxOut : Byte) :
    decodeBuild (formatT opc tid maxIn maxOut) = .ok (.build tid maxIn maxOut) := by
  obtain ⟨-, hres, htid, hin, hout⟩ := formatT_fields opc tid maxIn maxOut
  simp [decodeBuild, hres, htid, hin, hout]

theorem decodeInvert_formatT (opc : Byte) {tid : Tid} (h : tid ≠ 3#2) (maxOut : Byte) :
    decodeInvert (formatT opc tid 0#8 maxOut) = .ok (.invert tid maxOut) := by
  obtain ⟨-, hres, htid, hin, hout⟩ := formatT_fields opc tid 0#8 maxOut
  simp [decodeInvert, hres, htid, hin, hout, h]

theorem decodeBlend_formatB (opc amt : Byte) (dst a b : Index) :
    decodeBlend (formatB opc amt dst) (0#8 ++ a ++ b) = .ok (.blend dst a b amt) := by
  obtain ⟨-, hamt, hres, hdst⟩ := formatB_fields opc amt dst
  obtain ⟨hresa, ha, hb⟩ := operand_fields a b
  simp [decodeBlend, hamt, hres, hdst, hresa, ha, hb]

/-- Where the opcode `opc` selects the command `cmd` of format P, BASE and COUNT come back (R82, R85). -/
theorem decode_formatP {opc : Byte} {base count : Index} {arg : Word} {cmd : Index → Index → Instr}
    (h : opcField (formatP opc base count) = opc → decode (formatP opc base count) arg
      = .ok (cmd (highIndex (formatP opc base count)) (lowIndex (formatP opc base count)))) :
    decode (formatP opc base count) arg = .ok (cmd base count) := by
  obtain ⟨hopc, hbase, hcount⟩ := formatP_fields opc base count
  rw [h hopc, hbase, hcount]

/-- Settles O1: by the command; its opcode selects the decoder of its format, which gives the fields back. -/
theorem decodeOfEncode : Obligations.DecodeOfEncode := by
  intro i arg hwf harg
  obtain ⟨build, invert, applyf, applyi, scale, scalef, floorg, blend, -⟩ := decode_of_opcode (encode i) arg
  cases i with
  | build tid maxIn maxOut =>
    have hopc := (Laws.TableRow.build tid maxIn maxOut).1
    exact (build hopc).trans (decodeBuild_formatT _ tid maxIn maxOut)
  | invert tid maxOut =>
    have hopc := (Laws.TableRow.invert tid maxOut).1
    exact (invert hopc).trans (decodeInvert_formatT _ (bne_iff_ne.mp hwf) maxOut)
  | applyf base count => exact decode_formatP applyf
  | applyi base count => exact decode_formatP applyi
  | scale base count => exact decode_formatP scale
  | scalef base count => exact decode_formatP scalef
  | floorg base count => exact decode_formatP floorg
  | blend dst a b amt =>
    obtain rfl := harg _ rfl
    have hopc := (Laws.TableRow.blend dst a b amt).1
    exact (blend hopc).trans (decodeBlend_formatB _ amt dst a b)

/-! ### Encoding a decoded word -/

/-- Everything `decode` can do, by the opcode of the word (R85, R86). -/
theorem decode_cases (w a : Word) :
    (opcField w = 0x01#8 ∧ decode w a = decodeBuild w) ∨ (opcField w = 0x02#8 ∧ decode w a = decodeInvert w) ∨
    (opcField w = 0x30#8 ∧ decode w a = decodeBlend w a) ∨
    (opcField w ∉ [0x01#8, 0x02#8, 0x10#8, 0x11#8, 0x20#8, 0x21#8, 0x22#8, 0x30#8] ∧ decode w a = .error .opcode) ∨
    (opcField w = 0x10#8 ∧ decode w a = .ok (.applyf (highIndex w) (lowIndex w))) ∨
    (opcField w = 0x11#8 ∧ decode w a = .ok (.applyi (highIndex w) (lowIndex w))) ∨
    (opcField w = 0x20#8 ∧ decode w a = .ok (.scale (highIndex w) (lowIndex w))) ∨
    (opcField w = 0x21#8 ∧ decode w a = .ok (.scalef (highIndex w) (lowIndex w))) ∨
    (opcField w = 0x22#8 ∧ decode w a = .ok (.floorg (highIndex w) (lowIndex w))) := by
  obtain ⟨build, invert, applyf, applyi, scale, scalef, floorg, blend, other⟩ := decode_of_opcode w a
  by_cases known : opcField w ∈ [0x01#8, 0x02#8, 0x10#8, 0x11#8, 0x20#8, 0x21#8, 0x22#8, 0x30#8]
  · simp only [List.mem_cons, List.not_mem_nil, or_false] at known
    rcases known with h | h | h | h | h | h | h | h
    · exact .inl ⟨h, build h⟩
    · exact .inr (.inl ⟨h, invert h⟩)
    · exact .inr (.inr (.inr (.inr (.inl ⟨h, applyf h⟩))))
    · exact .inr (.inr (.inr (.inr (.inr (.inl ⟨h, applyi h⟩)))))
    · exact .inr (.inr (.inr (.inr (.inr (.inr (.inl ⟨h, scale h⟩))))))
    · exact .inr (.inr (.inr (.inr (.inr (.inr (.inr (.inl ⟨h, scalef h⟩)))))))
    · exact .inr (.inr (.inr (.inr (.inr (.inr (.inr (.inr ⟨h, floorg h⟩)))))))
    · exact .inr (.inr (.inl ⟨h, blend h⟩))
  · exact .inr (.inr (.inr (.inl ⟨known, other known⟩)))

theorem decodeBuild_ok {w : Word} {i : Instr} (h : decodeBuild w = .ok i) :
    resField w = 0#6 ∧ i = .build (tidField w) (maxInField w) (maxOutField w) := by
  unfold decodeBuild at h
  split at h
  · cases h
  · next hres => cases h; exact ⟨not_not.mp hres, rfl⟩

theorem decodeInvert_ok {w : Word} {i : Instr} (h : decodeInvert w = .ok i) :
    resField w = 0#6 ∧ maxInField w = 0#8 ∧ tidField w ≠ 3#2 ∧ i = .invert (tidField w) (maxOutField w) := by
  unfold decodeInvert at h
  split at h
  · cases h
  · next hres =>
    split at h
    · cases h
    · next hin =>
      split at h
      · cases h
      · next htid => cases h; exact ⟨not_not.mp hres, not_not.mp hin, htid, rfl⟩

theorem decodeBlend_ok {w a : Word} {i : Instr} (h : decodeBlend w a = .ok i) :
    blendResField w = 0#4 ∧ argResField a = 0#8 ∧ i = .blend (lowIndex w) (highIndex a) (lowIndex a) (amtField w) := by
  unfold decodeBlend at h
  split at h
  · cases h
  · next hres =>
    split at h
    · cases h
    · next hresa => cases h; exact ⟨not_not.mp hres, not_not.mp hresa, rfl⟩

/-- Settles O2: by the opcode; a word that decodes has clear reserved fields, so its fields make it up again. -/
theorem encodeOfDecode : Obligations.EncodeOfDecode := by
  intro w arg i h
  have rebuildT := formatT_rebuild w
  have rebuildP := formatP_rebuild w
  have rebuildB := formatB_rebuild w
  rcases decode_cases w arg with ⟨hopc, hd⟩ | ⟨hopc, hd⟩ | ⟨hopc, hd⟩ | ⟨-, hd⟩ | ⟨hopc, hd⟩ | ⟨hopc, hd⟩ | ⟨hopc, hd⟩ |
    ⟨hopc, hd⟩ | ⟨hopc, hd⟩ <;> rw [hd] at h
  · obtain ⟨hres, rfl⟩ := decodeBuild_ok h
    rw [hopc] at rebuildT
    exact ⟨rfl, rebuildT hres, nofun⟩
  · obtain ⟨hres, hin, htid, rfl⟩ := decodeInvert_ok h
    rw [hopc, hin] at rebuildT
    exact ⟨bne_iff_ne.mpr htid, rebuildT hres, nofun⟩
  · obtain ⟨hres, hresa, rfl⟩ := decodeBlend_ok h
    rw [hopc] at rebuildB
    refine ⟨rfl, rebuildB hres, fun o ho => ?_⟩
    cases ho
    exact (operand_rebuild arg hresa).symm
  · cases h
  all_goals
    cases h
    rw [hopc] at rebuildP
    exact ⟨rfl, rebuildP, nofun⟩

/-! ### Illegal words -/

/-- The words that decode to nothing (R86): another opcode, or a reserved field set, or INVERT with TID 3. -/
theorem decode_error_iff (w a : Word) : (∃ e, decode w a = .error e) ↔
    opcField w ∉ [0x01#8, 0x02#8, 0x10#8, 0x11#8, 0x20#8, 0x21#8, 0x22#8, 0x30#8] ∨
    (opcField w = 0x01#8 ∧ resField w ≠ 0#6) ∨
    (opcField w = 0x02#8 ∧ (resField w ≠ 0#6 ∨ maxInField w ≠ 0#8 ∨ tidField w = 3#2)) ∨
    (opcField w = 0x30#8 ∧ (blendResField w ≠ 0#4 ∨ argResField a ≠ 0#8)) := by
  rcases decode_cases w a with ⟨hopc, hd⟩ | ⟨hopc, hd⟩ | ⟨hopc, hd⟩ | ⟨hopc, hd⟩ | ⟨hopc, hd⟩ | ⟨hopc, hd⟩ | ⟨hopc, hd⟩ |
    ⟨hopc, hd⟩ | ⟨hopc, hd⟩ <;> rw [hd]
  · simp [decodeBuild_error, hopc]
  · simp [decodeInvert_error, hopc]
  · simp [decodeBlend_error, hopc]
  · exact iff_of_true ⟨_, rfl⟩ (.inl hopc)
  all_goals simp [hopc]

end Sys2Proof

namespace Sys2Proof.Machine

/-- An illegal word delivered with ERR = 0 is a fault entry (60_exceptions.md R200, R201). -/
theorem State.onCmdWrite_illegal {s : State} {w : Word} {e : Illegal} (herr : s.err = false) (hd : decode w s.arg = .error e) :
    s.onCmdWrite w = .next (s.raise w .illegalCmd) := by
  unfold State.onCmdWrite
  simp only [herr, hd, Bool.false_eq_true, if_false]

/-- Settles O3: the cases of `decode_error_iff`, and the fault entry of an illegal word. -/
theorem illegalWordsFault : Obligations.IllegalWordsFault :=
  ⟨decode_error_iff, fun _ _ _ herr hd => State.onCmdWrite_illegal herr hd⟩

/-- Settles O4: each word is closed, so decoding it is a computation. -/
theorem sampleWordsDecode : Obligations.SampleWordsDecode := by
  unfold Obligations.SampleWordsDecode
  decide

end Sys2Proof.Machine

/-! SUPPORT. What every command keeps: the checks of a command are the check list of 60_exceptions.md R202, and a
commit writes TVALID only for BUILD and INVERT, and nothing for an empty range (30_encoding.md R87, R93). -/

namespace Sys2Proof.Machine

open Claim

/-! ### The check list of R202 -/

/-- R100, by the sign bit or by the one-bit field that holds it. -/
theorem gammaValid_eq_positiveFinite (b : Word) : gammaValid b = positiveFinite b := by
  have sign : (b.extractLsb' 31 1 == 0#1) = !b.getLsbD 31 := by
    rw [Bool.eq_iff_iff, beq_iff_eq, BitVec.eq_of_getLsbD_eq_iff]
    simp
  have exponent : (f32Exp b != 0xFF) = (b.extractLsb' 23 8 != 0xFF#8) := by
    rw [Bool.eq_iff_iff, bne_iff_ne, bne_iff_ne]
    exact (BitVec.toNat_ne_iff_ne (x := b.extractLsb' 23 8) (y := 0xFF#8))
  rw [gammaValid, positiveFinite, sign, exponent]

/-- The cause of the first failing check is that of its head, or that of its tail. -/
theorem find_checks_cons (b : Bool) (c : Cause) (l : List (Bool × Cause)) :
    (((b, c) :: l).find? (fun c => c.1)).map Prod.snd = if b then some c else (l.find? (fun c => c.1)).map Prod.snd := by
  cases b <;> rfl

/-- The first check of a command that fails gives the first failing check of R202. -/
theorem find_checksOf (i : Instr) (s : State) :
    ((checksOf i s).find? (fun c => c.1)).map Prod.snd = firstFailure i s := by
  have forward := s.tablesMissing_eq_any 0x07#8 [0, 1, 2] (by decide) (by decide)
  have inverse := s.tablesMissing_eq_any 0x70#8 [4, 5, 6] (by decide) (by decide)
  have level := s.tablesMissing_eq_any 0x88#8 [3, 7] (by decide) (by decide)
  have both := s.tablesMissing_eq_any 0x77#8 [0, 1, 2, 4, 5, 6] (by decide) (by decide)
  cases i with
  | applyf base count =>
    cases hm : s.mode <;>
      simp [checksOf, State.applyfCheck, find_checks_cons, firstFailure, Instr.wf, pixRangeFails, badRangeFails, gammasNeeded,
        tablesNeeded, State.rangePast, State.gammaBad, gammaValid_eq_positiveFinite, or_assoc,
        forward, hm]
  | _ =>
    simp [checksOf, find_checks_cons, firstFailure, Instr.wf, pixRangeFails, badRangeFails, gammasNeeded, tablesNeeded,
      State.rangePast, State.indexPast, State.gammaBad, gammaValid_eq_positiveFinite, or_assoc, inverse, level, both]

/-- With no failing check of R202 every check of the command passes. -/
theorem checks_pass_iff {i : Instr} {s : State} :
    (checksOf i s).find? (fun c => c.1) = none ↔ firstFailure i s = none := by
  rw [← find_checksOf, Option.map_eq_none_iff]

/-! ### What every command keeps -/

/-- The commits of BUILD and INVERT alone write TVALID (30_encoding.md R93). -/
theorem commit_keeps_tvalid {i : Instr} {s t : State} (hb : ∀ tid maxIn maxOut, i ≠ .build tid maxIn maxOut)
    (hi : ∀ tid maxOut, i ≠ .invert tid maxOut) (h : commitOf i s = .ok t) : t.tvalid = s.tvalid := by
  have range : ∀ {base count : Index} {f : Word → Except Fault Word}, s.mapPixels base count f = .ok t →
      t.tvalid = s.tvalid := by
    intro base count f hm
    obtain ⟨qs, -, rfl⟩ := State.mapPixels_eq_storePixels hm
    rfl
  cases i with
  | build tid maxIn maxOut => exact absurd rfl (hb tid maxIn maxOut)
  | invert tid maxOut => exact absurd rfl (hi tid maxOut)
  | applyf base count => exact range h
  | applyi base count => exact range h
  | scale base count => exact range h
  | scalef base count => exact range h
  | floorg base count => exact range h
  | blend dst a b amt =>
    obtain ⟨pa, -, h⟩ := Except.bind_ok.mp h
    obtain ⟨pb, -, h⟩ := Except.bind_ok.mp h
    obtain ⟨q, -, h⟩ := Except.bind_ok.mp h
    cases h; rfl

/-- Settles O25: `exec` is a fault entry, which a failing check alone makes, or a commit. -/
theorem commandsKeepRegisters : Obligations.CommandsKeepRegisters := by
  intro i s t h
  rcases exec_next h with ⟨c, hc, rfl⟩ | ⟨-, hcommit⟩
  · refine ⟨rfl, fun hnone => ?_, fun _ _ => rfl⟩
    rw [checks_pass_iff.mpr hnone] at hc
    cases hc
  · have frame := commit_keeps hcommit
    refine ⟨?_, fun _ => ?_, fun hb hi => commit_keeps_tvalid hb hi hcommit⟩
    · rw [frame]
    · rw [frame]
      exact ⟨rfl, rfl, rfl, rfl, rfl, rfl⟩

/-! ### The empty range -/

/-- A range command over no pixel reads nothing and stores nothing (30_encoding.md R87). -/
theorem State.mapPixels_zero (s : State) (base : Index) (f : Word → Except Fault Word) : s.mapPixels base 0#12 f = .ok s :=
  rfl

/-- Settles O39: the checks pass, and the commit of each of the five commands maps no pixel. -/
theorem emptyRangeChangesNothing : Obligations.EmptyRangeChangesNothing := by
  intro cmd base s hcmd hnone
  refine exec_commit (checks_pass_iff.mpr hnone) ?_
  rcases hcmd with rfl | rfl | rfl | rfl | rfl <;> exact s.mapPixels_zero base _

end Sys2Proof.Machine

/-! SUPPORT. Table generation (40_table_generation.md): which gammas are valid, BUILD and its table, INVERT and the passes of
its algorithm. -/

namespace Sys2Proof.Machine

open Claim

/-! ### The fault of the first failing check -/

/-- A failing check is a fault entry (60_exceptions.md R202, R204). -/
theorem exec_of_firstFailure {i : Instr} {s : State} {c : Cause} (h : firstFailure i s = some c) :
    exec i s = .next (faultState s i c) := by
  obtain ⟨check, hfind, rfl⟩ := Option.map_eq_some_iff.mp (find_checksOf i s ▸ h)
  exact exec_raise hfind

/-! ### Valid gammas (R100) -/

/-- The value of a pattern whose sign bit is clear (00_scope.md R12). -/
theorem f32val_of_sign_clear {b : Word} (h : b.getLsbD 31 = false) :
    f32val b = f32Mant b * (2 : ℚ) ^ ((max (f32Exp b) 1 : ℤ) - 150) := by
  rw [f32val, h, if_neg Bool.false_ne_true, one_mul]

theorem f32Mant_lt (b : Word) : f32Mant b < 2 ^ 24 := by
  have hm := (b.extractLsb' 0 23).isLt
  unfold f32Mant
  dsimp only
  split <;> omega

/-- A valid pattern has its sign bit clear and an exponent field below 0xFF. -/
theorem gammaValid_fields {b : Word} (h : gammaValid b = true) : b.getLsbD 31 = false ∧ f32Exp b ≤ 254 := by
  have hlt : f32Exp b < 2 ^ 8 := (b.extractLsb' 23 8).isLt
  simp only [gammaValid, Bool.and_eq_true, Bool.not_eq_true', bne_iff_ne] at h
  obtain ⟨⟨hsign, hexp⟩, -⟩ := h
  exact ⟨hsign, by omega⟩

/-- A pattern of positive value has its sign bit clear. -/
theorem sign_clear_of_f32val_pos {b : Word} (h : 0 < f32val b) : b.getLsbD 31 = false := by
  by_contra hsign
  have hneg : f32val b = -(f32Mant b * (2 : ℚ) ^ ((max (f32Exp b) 1 : ℤ) - 150)) := by
    rw [f32val, if_pos (Bool.not_eq_false _ ▸ hsign), mul_assoc, neg_one_mul]
  have : (0 : ℚ) ≤ f32Mant b * (2 : ℚ) ^ ((max (f32Exp b) 1 : ℤ) - 150) := by positivity
  linarith

theorem f32Mant_pos_of_f32val_pos {b : Word} (h : 0 < f32val b) : 0 < f32Mant b := by
  refine Nat.pos_of_ne_zero fun hzero => h.ne' ?_
  simp [f32val, hzero]

/-- Zero exponent and mantissa fields give the mantissa 0. -/
theorem f32Mant_of_magnitude_zero {b : Word} (h : b.extractLsb' 0 31 = 0#31) : f32Mant b = 0 := by
  have hb : b.toNat % 2 ^ 31 = 0 := by simpa using congrArg BitVec.toNat h
  have hmant : (b.extractLsb' 0 23).toNat = 0 := by
    rw [BitVec.extractLsb'_toNat, Nat.shiftRight_zero]
    omega
  have hexp : f32Exp b = 0 := by
    rw [f32Exp, BitVec.extractLsb'_toNat, Nat.shiftRight_eq_div_pow]
    omega
  rw [f32Mant, if_pos hexp, hmant]

/-- The valid patterns are those of finite and positive value (R100). -/
theorem gammaValid_iff_pos (b : Word) : gammaValid b = true ↔ b.extractLsb' 23 8 ≠ 0xFF#8 ∧ 0 < f32val b := by
  constructor
  · intro h
    have hfinite : positiveFinite b = true := gammaValid_eq_positiveFinite b ▸ h
    simp only [positiveFinite, Bool.and_eq_true, bne_iff_ne] at hfinite
    exact ⟨hfinite.1.2, f32val_pos h⟩
  · rintro ⟨hexp, hpos⟩
    have hexp' : f32Exp b ≠ 0xFF := (BitVec.toNat_ne_iff_ne (y := 0xFF#8)).mpr hexp
    have hmag : b.extractLsb' 0 31 ≠ 0#31 := fun hz => (f32Mant_pos_of_f32val_pos hpos).ne' (f32Mant_of_magnitude_zero hz)
    simp only [gammaValid, sign_clear_of_f32val_pos hpos, Bool.not_false, Bool.true_and, Bool.and_eq_true, bne_iff_ne]
    exact ⟨hexp', hmag⟩

/-- The smallest positive value, the subnormal with mantissa 1. -/
theorem f32val_least : f32val 0x00000001#32 = 1 / 2 ^ 149 := by
  rw [f32val_of_sign_clear (by decide), show f32Mant 0x00000001#32 = 1 from by decide,
    show f32Exp 0x00000001#32 = 0 from by decide]
  norm_num

/-- The largest finite value: every mantissa bit set, the exponent field 0xFE. -/
theorem f32val_greatest : f32val 0x7F7FFFFF#32 = (2 - 1 / 2 ^ 23) * 2 ^ 127 := by
  rw [f32val_of_sign_clear (by decide), show f32Mant 0x7F7FFFFF#32 = 2 ^ 24 - 1 from by decide,
    show f32Exp 0x7F7FFFFF#32 = 254 from by decide]
  norm_num

/-- Every valid gamma lies between the extreme values: its mantissa is from 1 to 2^24 - 1, its exponent from 1 to 254. -/
theorem f32val_between {b : Word} (h : gammaValid b = true) :
    f32val 0x00000001#32 ≤ f32val b ∧ f32val b ≤ f32val 0x7F7FFFFF#32 := by
  obtain ⟨hsign, hexp⟩ := gammaValid_fields h
  have hpos : (1 : ℚ) ≤ f32Mant b := by exact_mod_cast f32Mant_pos_of_f32val_pos (f32val_pos h)
  have hle : (f32Mant b : ℚ) ≤ (2 ^ 24 - 1 : ℕ) := by exact_mod_cast Nat.le_pred_of_lt (f32Mant_lt b)
  have least : (1 : ℚ) / 2 ^ 149 = 1 * 2 ^ (-149 : ℤ) := by norm_num
  have greatest : ((2 : ℚ) - 1 / 2 ^ 23) * 2 ^ 127 = (2 ^ 24 - 1 : ℕ) * 2 ^ (104 : ℤ) := by norm_num
  rw [f32val_least, f32val_greatest, f32val_of_sign_clear hsign, least, greatest]
  constructor
  · gcongr
    · norm_num
    · omega
  · gcongr
    · norm_num
    · omega

/-- Settles O17: the three conditions, the value and its extremes by the lemmas above; a bad gamma is then the first check that
fails. -/
theorem gammaValidIsPositiveFinite : Obligations.GammaValidIsPositiveFinite := by
  refine ⟨fun b => ?_, gammaValid_iff_pos, fun b => f32val_between, f32val_least, f32val_greatest, ?_⟩
  · rw [gammaValid_eq_positiveFinite]
    simp [positiveFinite, and_assoc]
  · intro i s t hwf hpix hrange hneeded hbad
    refine exec_of_firstFailure ?_
    have bad : (gammasNeeded i s).any (fun t => !positiveFinite (s.gamma.get t)) = true :=
      List.any_eq_true.mpr ⟨t, hneeded, by simp [← gammaValid_eq_positiveFinite, hbad]⟩
    simp [firstFailure, hwf, hpix, hrange, bad]

/-! ### BUILD (R101 to R103) -/

/-- Where the ranges are legal, an entry of the model is the entry of the rule, over the reals (R101). -/
theorem gammaEntry_eq_realEntry {maxIn maxOut : Nat} {b : Word} (hv : gammaValid b = true) (hm : 0 < maxOut)
    (hm' : maxOut < 256) (i : Nat) : gammaEntry i maxIn maxOut b = realEntry i maxIn maxOut ((f32val b : ℚ) : ℝ) := by
  obtain ⟨hsign, -⟩ := gammaValid_fields hv
  unfold realEntry
  rcases Nat.lt_or_ge i maxIn with hi | hi
  · rw [if_neg (Nat.not_le.mpr hi)]
    rcases Nat.eq_zero_or_pos i with rfl | h0
    · have hg : ((f32val b : ℚ) : ℝ) ≠ 0 := by exact_mod_cast (f32val_pos hv).ne'
      have hround : roundHalfUp 0 = 0 := by norm_num [roundHalfUp]
      simp [gammaEntry, hi.ne', Real.zero_rpow hg, hround]
    · rw [gammaEntry_below h0 hi hm hm', gammaExponent_real hsign]
      simp only [h0, true_and, roundHalfUp]
  · rw [gammaEntry, if_pos hi, if_pos hi]

theorem gammaEntry_zero {maxIn maxOut : Nat} (h : 0 < maxIn) (b : Word) : gammaEntry 0 maxIn maxOut b = 0 := by
  rw [gammaEntry, if_neg (Nat.not_le.mpr h), if_pos rfl]

theorem gammaEntry_of_maxIn_le {i maxIn maxOut : Nat} (h : maxIn ≤ i) (b : Word) : gammaEntry i maxIn maxOut b = maxOut := by
  rw [gammaEntry, if_pos h]

/-- The force-to-1 step: no entry above index 0 is 0 (R101). -/
theorem gammaEntry_pos {i maxIn maxOut : Nat} (hi : 0 < i) (hm : 0 < maxOut) (b : Word) : 0 < gammaEntry i maxIn maxOut b := by
  unfold gammaEntry
  dsimp only
  split
  · exact hm
  · rw [if_neg hi.ne']
    split
    · exact Nat.one_pos
    · next hk => exact Nat.pos_of_ne_zero hk

/-- The entries rise with the index, as the power does and rounding and the force-to-1 step keep its order (R103). -/
theorem gammaEntry_mono {i j maxIn maxOut : Nat} (hij : i ≤ j) (hm : 0 < maxOut) (hm' : maxOut < 256) (b : Word) :
    gammaEntry i maxIn maxOut b ≤ gammaEntry j maxIn maxOut b := by
  rcases Nat.lt_or_ge j maxIn with hj | hj
  · rcases Nat.eq_zero_or_pos i with rfl | h0
    · rw [gammaEntry_zero hj.pos]
      exact Nat.zero_le _
    · have floors : ⌊((i : ℝ) / maxIn) ^ (gammaExponent b).real * maxOut + 1 / 2⌋₊
          ≤ ⌊((j : ℝ) / maxIn) ^ (gammaExponent b).real * maxOut + 1 / 2⌋₊ := by
        have := (gammaExponent b).real_nonneg
        gcongr
      rw [gammaEntry_below h0 (hij.trans_lt hj) hm hm', gammaEntry_below (h0.trans_le hij) hj hm hm']
      split <;> split <;> omega
  · rw [gammaEntry_of_maxIn_le hj]
    exact gammaEntry_le hm hm'

/-- An entry fits in its byte. -/
theorem toNat_ofNat_gammaEntry {maxOut : Byte} (h : maxOut ≠ 0#8) (i maxIn : Nat) (b : Word) :
    (BitVec.ofNat 8 (gammaEntry i maxIn maxOut.toNat b)).toNat = gammaEntry i maxIn maxOut.toNat b := by
  have hle := gammaEntry_le (i := i) (maxIn := maxIn) (b := b) (BitVec.toNat_pos_of_ne_zero h) maxOut.isLt
  rw [BitVec.toNat_ofNat]
  exact Nat.mod_eq_of_lt (hle.trans_lt maxOut.isLt)

/-- The checks of BUILD, as numbers and gammas (R102). -/
theorem firstFailure_build (tid : Tid) (maxIn maxOut : Byte) (s : State) :
    firstFailure (.build tid maxIn maxOut) s =
      if maxIn = 0#8 ∨ maxOut = 0#8 then some .badRange
      else if gammaValid (s.gamma.get tid.toNat) then none else some .badGamma := by
  cases hv : gammaValid (s.gamma.get tid.toNat) <;>
    simp [firstFailure, Instr.wf, pixRangeFails, badRangeFails, gammasNeeded, tablesNeeded, ← gammaValid_eq_positiveFinite, hv]

/-- BUILD with legal ranges and a valid gamma completes with its commit. -/
theorem exec_build {tid : Tid} {maxIn maxOut : Byte} {s : State} (hin : maxIn ≠ 0#8) (hout : maxOut ≠ 0#8)
    (hv : gammaValid (s.gamma.get tid.toNat) = true) :
    exec (.build tid maxIn maxOut) s = .next (buildCommit tid maxIn maxOut s) :=
  exec_commit (checks_pass_iff.mpr (by simp [firstFailure_build, hin, hout, hv])) rfl

/-- The table that BUILD has committed, entry by entry (R102). -/
theorem buildCommit_read (tid : Tid) (maxIn maxOut : Byte) (s : State) {i : Nat} (hi : i < 256) :
    (buildCommit tid maxIn maxOut s).mem.read (tblAddr tid.toNat i) =
      some (BitVec.ofNat 8 (gammaEntry i maxIn.toNat maxOut.toNat (s.gamma.get tid.toNat))) :=
  ((s.storeTable_reads tid.toNat (gammaTable_length _ _ _)).1 i hi).trans (gammaTable_get _ _ _ hi)

/-- BUILD writes no byte outside its table. -/
theorem buildCommit_read_outside (tid : Tid) (maxIn maxOut : Byte) (s : State) {a : Nat}
    (ha : a < tblAddr tid.toNat 0 ∨ tblAddr tid.toNat 256 ≤ a) :
    (buildCommit tid maxIn maxOut s).mem.read a = s.mem.read a :=
  (s.storeTable_reads tid.toNat (gammaTable_length _ _ _)).2 a ha

/-- BUILD publishes its table, and a forward color table's inverse is no longer valid (R102). -/
theorem buildCommit_valid (tid : Tid) (maxIn maxOut : Byte) (s : State) {x : Nat} (hx : x < 8) :
    (buildCommit tid maxIn maxOut s).valid x =
      if x = tid.toNat then true else if tid.toNat < 3 ∧ x = tid.toNat + 4 then false else s.valid x := by
  rw [buildCommit, State.valid_dropInverse _ hx, State.valid_setValid _ (by omega) hx]
  by_cases hpub : x = tid.toNat
  · rw [if_pos hpub, if_pos hpub, if_neg (by omega)]
  · rw [if_neg hpub, if_neg hpub]
    rfl

/-- Settles O26: the commit's table, frame and valid bits; the failing checks in order; the opcode's decoder. -/
theorem buildMakesExactTable : Obligations.BuildMakesExactTable := by
  refine ⟨fun tid maxIn maxOut s hin hout hv => ?completes, fun tid maxIn maxOut s hzero => ?badRange,
    fun tid maxIn maxOut s hin hout hv => ?badGamma, fun w arg hopc => ?encoding⟩
  case completes =>
    refine ⟨_, exec_build hin hout hv, rfl, fun i hi => ⟨_, buildCommit_read tid maxIn maxOut s hi, ?_⟩,
      fun a => buildCommit_read_outside tid maxIn maxOut s, fun x => buildCommit_valid tid maxIn maxOut s⟩
    rw [toNat_ofNat_gammaEntry hout]
    exact gammaEntry_eq_realEntry hv (BitVec.toNat_pos_of_ne_zero hout) maxOut.isLt i
  case badRange => exact exec_of_firstFailure (by rw [firstFailure_build, if_pos hzero])
  case badGamma => exact exec_of_firstFailure (by simp [firstFailure_build, hin, hout, hv])
  case encoding =>
    rw [(decode_of_opcode w arg).1 hopc, decodeBuild, ite_not]
    rfl

/-- Settles O27: BUILD answers its commit, whose entries have the shape that `gammaEntry` has. -/
theorem builtTableShape : Obligations.BuiltTableShape := by
  intro tid maxIn maxOut s t hin hout hv ht
  obtain rfl : buildCommit tid maxIn maxOut s = t := by
    rw [exec_build hin hout hv] at ht
    cases ht
    rfl
  have hpos : 0 < maxOut.toNat := BitVec.toNat_pos_of_ne_zero hout
  refine ⟨fun i => BitVec.ofNat 8 (gammaEntry i maxIn.toNat maxOut.toNat (s.gamma.get tid.toNat)),
    fun i hi => buildCommit_read tid maxIn maxOut s hi, ?_, fun i hi _ => ?_, fun i j hij _ => ?_, fun i hi _ => ?_,
    fun i _ => ?_⟩
  · exact congrArg _ (gammaEntry_zero (BitVec.toNat_pos_of_ne_zero hin) _)
  · rw [toNat_ofNat_gammaEntry hout]
    exact gammaEntry_pos hi hpos _
  · rw [toNat_ofNat_gammaEntry hout, toNat_ofNat_gammaEntry hout]
    exact gammaEntry_mono hij hpos maxOut.isLt _
  · exact (congrArg _ (gammaEntry_of_maxIn_le hi _)).trans (by simp)
  · rw [toNat_ofNat_gammaEntry hout]
    exact gammaEntry_le hpos maxOut.isLt

/-! ### INVERT (R105, R106) -/

/-- What one pass of R106 answers: a copy, an entry past the end of the forward table, a plateau, an exact match, or a gap, at
index 0 or above it. -/
theorem invStep_ok {table : Nat → Except Fault Byte} {maxOut i : Nat} {c c' : Cursor} (h : invStep table maxOut i c = .ok c') :
    (c.prev = some (invTarget maxOut i) ∧ c' = c) ∨
    (c.prev ≠ some (invTarget maxOut i) ∧ 255 ≤ c.f ∧ c' = ⟨c.f, some (invTarget maxOut i), 255⟩) ∨
    (c.prev ≠ some (invTarget maxOut i) ∧ c.f < 255 ∧ ∃ x y, table c.f = .ok x ∧ table (c.f + 1) = .ok y ∧
      ((x = y ∧ ∃ e, plateauEnd table (255 - c.f) c.f = .ok e ∧ c' = ⟨e + 1, some (invTarget maxOut i), (c.f + e) / 2⟩) ∨
        (x ≠ y ∧ x.toNat = invTarget maxOut i ∧ c' = ⟨c.f + 1, some (invTarget maxOut i), c.f⟩) ∨
        (x ≠ y ∧ x.toNat ≠ invTarget maxOut i ∧ c.f = 0 ∧ c' = ⟨c.f, some (invTarget maxOut i), 0⟩) ∨
        (x ≠ y ∧ x.toNat ≠ invTarget maxOut i ∧ c.f ≠ 0 ∧ ∃ z, table (c.f - 1) = .ok z ∧
          c' = ⟨c.f, some (invTarget maxOut i),
            if distance (invTarget maxOut i) z.toNat ≤ distance x.toNat (invTarget maxOut i) then c.f - 1 else c.f⟩))) := by
  unfold invStep at h
  dsimp only at h
  split at h
  · next hcopy => cases h; exact .inl ⟨hcopy, rfl⟩
  · next hcopy =>
    split at h
    · next hpast => cases h; exact .inr (.inl ⟨hcopy, hpast, rfl⟩)
    · next hpast =>
      obtain ⟨x, hx, h⟩ := Except.bind_ok.mp h
      obtain ⟨y, hy, h⟩ := Except.bind_ok.mp h
      refine .inr (.inr ⟨hcopy, Nat.not_le.mp hpast, x, y, hx, hy, ?_⟩)
      split at h
      · next hplateau =>
        obtain ⟨e, he, h⟩ := Except.bind_ok.mp h
        cases h
        exact .inl ⟨hplateau, e, he, rfl⟩
      · next hplateau =>
        refine .inr ?_
        split at h
        · next hexact => cases h; exact .inl ⟨hplateau, hexact, rfl⟩
        · next hexact =>
          refine .inr ?_
          split at h
          · next hzero => cases h; exact .inl ⟨hplateau, hexact, hzero, rfl⟩
          · next hzero =>
            obtain ⟨z, hz, h⟩ := Except.bind_ok.mp h
            cases h
            exact .inr ⟨hplateau, hexact, hzero, z, hz, rfl⟩

/-- Every pass leaves its own target for the next one to compare with. -/
theorem invStep_prev {table : Nat → Except Fault Byte} {maxOut i : Nat} {c c' : Cursor}
    (h : invStep table maxOut i c = .ok c') : c'.prev = some (invTarget maxOut i) := by
  rcases invStep_ok h with ⟨hcopy, rfl⟩ | ⟨-, -, rfl⟩ | ⟨-, -, x, y, -, -, hpass⟩
  · exact hcopy
  · rfl
  · rcases hpass with ⟨-, e, -, rfl⟩ | ⟨-, -, rfl⟩ | ⟨-, -, -, rfl⟩ | ⟨-, -, -, z, -, rfl⟩ <;> rfl

/-- The entries the loop answers are those of a sequence of cursors, each one pass after the one before it. -/
theorem invLoop_ok {table : Nat → Except Fault Byte} {maxOut : Nat} : ∀ {n i : Nat} {c : Cursor} {l : List Byte},
    invLoop table maxOut n i c = .ok l → ∃ cs : Nat → Cursor, cs i = c ∧
      ∀ j, j < n → invStep table maxOut (i + j) (cs (i + j)) = .ok (cs (i + j + 1)) ∧
        l[j]? = some (BitVec.ofNat 8 (cs (i + j + 1)).entry)
  | 0, _, c, _, _ => ⟨fun _ => c, rfl, fun j hj => absurd hj (Nat.not_lt_zero j)⟩
  | n + 1, i, c, l, h => by
    unfold invLoop at h
    obtain ⟨c', hstep, h⟩ := Except.bind_ok.mp h
    obtain ⟨rest, hrest, h⟩ := Except.bind_ok.mp h
    cases h
    obtain ⟨cs, hstart, hpass⟩ := invLoop_ok hrest
    have later : ∀ k, i < k → Function.update cs i c k = cs k := fun k hk => Function.update_of_ne hk.ne' c cs
    refine ⟨Function.update cs i c, Function.update_self i c cs, fun j hj => ?_⟩
    rw [later (i + j + 1) (by omega)]
    cases j with
    | zero =>
      rw [Nat.add_zero, Function.update_self, hstart]
      exact ⟨hstep, rfl⟩
    | succ j =>
      rw [later (i + (j + 1)) (by omega), ← Nat.add_assoc, Nat.add_right_comm i j 1]
      exact hpass j (by omega)

/-- The model's distance is the absolute difference. -/
theorem distance_cast (a b : Nat) : ((distance a b : Nat) : ℤ) = |(a : ℤ) - b| := by
  rw [Int.abs_eq_natAbs, distance]
  omega

/-- `InverseEntry` speaks of the model's targets. -/
theorem inverseEntry_iff (F : Nat → Nat) (maxOut : Nat) (f e : Nat → Nat) (i : Nat) :
    InverseEntry F maxOut f e i ↔
      if 0 < i ∧ invTarget maxOut i = invTarget maxOut (i - 1) then e i = e (i - 1) ∧ f (i + 1) = f i
      else if 255 ≤ f i then e i = 255 ∧ f (i + 1) = f i
      else if F (f i) = F (f i + 1) then
        ∃ last, f i < last ∧ last ≤ 255 ∧ (∀ j, f i ≤ j → j < last → F j = F (j + 1)) ∧ (last = 255 ∨ F last ≠ F (last + 1)) ∧
          e i = (f i + last) / 2 ∧ f (i + 1) = last + 1
      else if F (f i) = invTarget maxOut i then e i = f i ∧ f (i + 1) = f i + 1
      else f (i + 1) = f i ∧
        e i = if f i = 0 then 0
          else if |(invTarget maxOut i : ℤ) - F (f i - 1)| ≤ |(F (f i) : ℤ) - invTarget maxOut i| then f i - 1 else f i :=
  Iff.rfl

/-- One pass of the model over a forward table that holds values is one pass of R106. -/
theorem inverseEntry_of_invStep {table : Nat → Except Fault Byte} {F : Nat → Byte} (ht : ∀ i, i < 256 → table i = .ok (F i))
    {maxOut i : Nat} {c c' : Cursor} (hstep : invStep table maxOut i c = .ok c')
    (hcopy : c.prev = some (invTarget maxOut i) ↔ 0 < i ∧ invTarget maxOut i = invTarget maxOut (i - 1))
    {f e : Nat → Nat} (hf : f i = c.f) (hnext : f (i + 1) = c'.f) (he : e i = c'.entry) (hlast : 0 < i → e (i - 1) = c.entry) :
    InverseEntry (fun j => (F j).toNat) maxOut f e i := by
  simp only [inverseEntry_iff, ← hcopy, hf, hnext, he, ← BitVec.toNat_eq, ne_eq]
  rcases invStep_ok hstep with ⟨hc, rfl⟩ | ⟨hc, hpast, rfl⟩ | ⟨hc, hlt, x, y, hx, hy, hpass⟩
  · rw [if_pos hc, hlast (hcopy.mp hc).1]
    exact ⟨rfl, rfl⟩
  · rw [if_neg hc, if_pos hpast]
    exact ⟨rfl, rfl⟩
  · obtain rfl : F c.f = x := Except.ok.inj ((ht _ (by omega)).symm.trans hx)
    obtain rfl : F (c.f + 1) = y := Except.ok.inj ((ht _ (by omega)).symm.trans hy)
    rw [if_neg hc, if_neg (Nat.not_le.mpr hlt)]
    rcases hpass with ⟨hplateau, last, hwalk, rfl⟩ | ⟨hplateau, hexact, rfl⟩ | ⟨hplateau, hexact, hzero, rfl⟩ |
      ⟨hplateau, hexact, hzero, z, hz, rfl⟩
    · obtain ⟨last', hwalk', hle, hle255, hsame, hend⟩ := plateauEnd_ok ht (255 - c.f) c.f (by omega)
      obtain rfl : last' = last := Except.ok.inj (hwalk'.symm.trans hwalk)
      have hne : c.f ≠ last' := by
        rintro rfl
        exact hend.elim hlt.ne (· hplateau)
      rw [if_pos hplateau]
      exact ⟨last', lt_of_le_of_ne hle hne, hle255, hsame, hend, rfl, rfl⟩
    · rw [if_neg hplateau, if_pos hexact]
      exact ⟨rfl, rfl⟩
    · rw [if_neg hplateau, if_neg hexact, if_pos hzero]
      exact ⟨rfl, rfl⟩
    · obtain rfl : F (c.f - 1) = z := Except.ok.inj ((ht _ (by omega)).symm.trans hz)
      rw [if_neg hplateau, if_neg hexact, if_neg hzero]
      simp only [← distance_cast, Nat.cast_le, and_self]

/-- A pass copies the entry before it, or answers an index of the forward table. -/
theorem inverseEntry_copy_or_le {F : Nat → Nat} {maxOut : Nat} {f e : Nat → Nat} {i : Nat} (h : InverseEntry F maxOut f e i) :
    (0 < i ∧ e i = e (i - 1)) ∨ e i ≤ 255 := by
  rw [inverseEntry_iff] at h
  split at h
  · next hcopy => exact .inl ⟨hcopy.1, h.1⟩
  · right
    split at h
    · exact h.1.le
    · next hlt =>
      split at h
      · obtain ⟨last, -, hlast, -, -, he, -⟩ := h
        omega
      · split at h
        · obtain ⟨he, -⟩ := h
          omega
        · obtain ⟨-, he⟩ := h
          rw [he]
          split_ifs <;> omega

/-- Every entry of an inverse is an index of the forward table (R106). -/
theorem inverseEntry_le {F : Nat → Nat} {maxOut n : Nat} {f e : Nat → Nat} (h : ∀ i, i < n → InverseEntry F maxOut f e i)
    {i : Nat} (hi : i < n) : e i ≤ 255 := by
  induction i with
  | zero => exact (inverseEntry_copy_or_le (h 0 hi)).resolve_left fun hcopy => absurd hcopy.1 (lt_irrefl 0)
  | succ i ih =>
    rcases inverseEntry_copy_or_le (h (i + 1) hi) with ⟨-, hcopy⟩ | hle
    · exact hcopy.trans_le (ih (Nat.lt_of_succ_lt hi))
    · exact hle

/-- The loop over a forward table that holds values answers 256 entries that follow R106. -/
theorem invertTable_follows {table : Nat → Except Fault Byte} {F : Nat → Byte} (ht : ∀ i, i < 256 → table i = .ok (F i))
    (maxOut : Nat) : ∃ l, invertTable table maxOut = .ok l ∧ l.length = 256 ∧ ∃ f e : Nat → Nat, f 0 = 0 ∧
      ∀ i, i < 256 → InverseEntry (fun j => (F j).toNat) maxOut f e i ∧ l[i]? = some (BitVec.ofNat 8 (e i)) := by
  cases hl : invertTable table maxOut with
  | error fault =>
    obtain ⟨i, hi, hfault⟩ := invLoop_error hl
    cases (ht i hi).symm.trans hfault
  | ok l =>
    obtain ⟨cs, hstart, hpass⟩ := invLoop_ok hl
    simp only [Nat.zero_add] at hpass
    refine ⟨l, rfl, invLoop_length hl, fun j => (cs j).f, fun j => (cs (j + 1)).entry, congrArg Cursor.f hstart,
      fun i hi => ⟨?_, (hpass i hi).2⟩⟩
    have hcopy : (cs i).prev = some (invTarget maxOut i) ↔ 0 < i ∧ invTarget maxOut i = invTarget maxOut (i - 1) := by
      cases i with
      | zero => simp [hstart]
      | succ i => simp [invStep_prev (hpass i (by omega)).1, eq_comm]
    refine inverseEntry_of_invStep ht (hpass i hi).1 hcopy rfl rfl rfl fun hpos => ?_
    rw [Nat.sub_add_cancel hpos]

/-- The checks of INVERT but the one on TID (R105). -/
theorem firstFailure_invert {tid : Tid} (htid : tid ≠ 3#2) (maxOut : Byte) (s : State) :
    firstFailure (.invert tid maxOut) s =
      if maxOut = 0#8 then some .badRange else if s.valid tid.toNat then none else some .tableInvalid := by
  cases hv : s.valid tid.toNat <;>
    simp [firstFailure, Instr.wf, pixRangeFails, badRangeFails, gammasNeeded, tablesNeeded, htid, hv]

/-- INVERT stores its table in the table of the channel's inverse and publishes it (R105). -/
theorem invertCommit_effect (tid : Tid) {l : List Byte} (hl : l.length = 256) (s : State) :
    (∀ i, i < 256 → (invertCommit tid l s).mem.read (tblAddr (tid.toNat + 4) i) = l[i]?) ∧
      (∀ a, a < tblAddr (tid.toNat + 4) 0 ∨ tblAddr (tid.toNat + 4) 256 ≤ a →
        (invertCommit tid l s).mem.read a = s.mem.read a) ∧
      ∀ x, x < 8 → (invertCommit tid l s).valid x = if x = tid.toNat + 4 then true else s.valid x :=
  have ⟨entries, outside⟩ := s.storeTable_reads (tid.toNat + 4) hl
  ⟨entries, outside, fun _ hx => (s.storeTable _ l).valid_setValid (by omega) hx true⟩

/-- Settles O28: the loop answers entries that follow R106, and the commit stores them; the failing checks in order; the
opcode's decoder. -/
theorem invertFollowsAlgorithm : Obligations.InvertFollowsAlgorithm := by
  refine ⟨fun tid maxOut s F htid hout hv hF => ?completes, fun tid maxOut s htid hzero => ?badRange,
    fun tid maxOut s htid hout hv => ?tableInvalid, fun w arg hopc => ?encoding⟩
  case completes =>
    obtain ⟨l, hl, hlen, f, e, hstart, hentry⟩ :=
      invertTable_follows (fun i hi => State.entry_ok.mpr (hF i hi)) maxOut.toNat
    obtain ⟨entries, outside, published⟩ := invertCommit_effect tid hlen s
    have hcommit : commitOf (.invert tid maxOut) s = .ok (invertCommit tid l s) := Except.bind_ok.mpr ⟨l, hl, rfl⟩
    refine ⟨_, exec_commit (checks_pass_iff.mpr ?_) hcommit, rfl, ⟨f, e, hstart, fun i hi => ?_⟩, outside, published⟩
    · rw [firstFailure_invert htid, if_neg hout, if_pos hv]
    · exact ⟨(hentry i hi).1, inverseEntry_le (fun j hj => (hentry j hj).1) hi, (entries i hi).trans (hentry i hi).2⟩
  case badRange => exact exec_of_firstFailure (by rw [firstFailure_invert htid, if_pos hzero])
  case tableInvalid => exact exec_of_firstFailure (by simp [firstFailure_invert htid, hout, hv])
  case encoding =>
    rw [(decode_of_opcode w arg).2.1 hopc]
    split
    · next hillegal => exact (decodeInvert_error w).mpr hillegal
    · next hlegal =>
      cases hd : decodeInvert w with
      | error e => exact absurd ((decodeInvert_error w).mp ⟨e, hd⟩) hlegal
      | ok i =>
        obtain ⟨-, -, -, rfl⟩ := decodeInvert_ok hd
        rfl

end Sys2Proof.Machine

/-! SUPPORT. Pixel correction and ranges (41_pixel_correction.md): the checks of the range commands, APPLYF and APPLYI, the
agreement of the two modes, and a range cut in two. -/

namespace Sys2Proof.Machine

open Claim

/-! ### Range commands (30_encoding.md R82) -/

/-- The five commands of format P. -/
def IsRangeCommand (cmd : Index → Index → Instr) : Prop :=
  cmd = .applyf ∨ cmd = .applyi ∨ cmd = .scale ∨ cmd = .scalef ∨ cmd = .floorg

/-- A range past NPIX fails before any other check of the command (60_exceptions.md R202). -/
theorem firstFailure_range_past {cmd : Index → Index → Instr} (hcmd : IsRangeCommand cmd) {base count : Index} {s : State}
    (h : s.npix < base.toNat + count.toNat) : firstFailure (cmd base count) s = some .pixRange := by
  rcases hcmd with rfl | rfl | rfl | rfl | rfl <;> simp [firstFailure, Instr.wf, pixRangeFails, h]

theorem firstFailure_eq_none_iff {i : Instr} {s : State} :
    firstFailure i s = none ↔ i.wf = true ∧ pixRangeFails i s = false ∧ badRangeFails i = false ∧
      (gammasNeeded i s).any (fun t => !positiveFinite (s.gamma.get t)) = false ∧
      (tablesNeeded i s).any (fun w => !s.valid w) = false := by
  simp only [firstFailure, ite_eq_iff, reduceCtorEq, and_false, false_or, and_true, Bool.not_eq_true, Bool.not_eq_false]

/-- The checks of a range command test the end of its range and the registers: where they pass, they pass for every range
that ends no later, and whatever memory holds. -/
theorem firstFailure_range_shorter {cmd : Index → Index → Instr} (hcmd : IsRangeCommand cmd) {base count base' count' : Index}
    {s : State} (h : firstFailure (cmd base count) s = none)
    (hend : base'.toNat + count'.toNat ≤ base.toNat + count.toNat) (m : Memory) :
    firstFailure (cmd base' count') { s with mem := m } = none := by
  rw [firstFailure_eq_none_iff] at h ⊢
  obtain ⟨hwf, hpix, hrange, hgamma, htables⟩ := h
  rcases hcmd with rfl | rfl | rfl | rfl | rfl <;>
    exact ⟨hwf, decide_eq_false fun hlt => of_decide_eq_false hpix (hlt.trans_le hend), hrange, hgamma, htables⟩

/-- A range command commits `f` of each word of its range, and `f` reads no pixel word (41_pixel_correction.md R135). -/
theorem rangeCommand_commit {cmd : Index → Index → Instr} (hcmd : IsRangeCommand cmd) :
    ∃ f : State → Word → Except Fault Word,
      (∀ (base count : Index) (s : State), commitOf (cmd base count) s = s.mapPixels base count (f s)) ∧
        ∀ (s : State) (k : Nat) (ps : List Word) (p : Word), f (s.storePixels k ps) p = f s p := by
  rcases hcmd with rfl | rfl | rfl | rfl | rfl
  · exact ⟨State.applyForward, fun _ _ _ => rfl, State.applyForward_storePixels⟩
  · exact ⟨State.applyInverse, fun _ _ _ => rfl, State.applyInverse_storePixels⟩
  · exact ⟨State.scalePixel, fun _ _ _ => rfl, State.scalePixel_storePixels⟩
  · exact ⟨State.scaleGuardPixel, fun _ _ _ => rfl, State.scaleGuardPixel_storePixels⟩
  · exact ⟨State.guardPixel, fun _ _ _ => rfl, State.guardPixel_storePixels⟩

theorem State.mapPixels_ok_iff {s t : State} {base count : Index} {f : Word → Except Fault Word} :
    s.mapPixels base count f = .ok t ↔
      ∃ qs, s.newPixels f base.toNat count.toNat = .ok qs ∧ s.storePixels base.toNat qs = t := by
  unfold State.mapPixels
  simp only [Except.bind_ok, Except.ok.injEq]

/-! ### One channel at a time -/

theorem exists_pixelOf {a : Byte} {f : Nat → Except Fault Byte} (h : ∀ c, c < 3 → ∃ x, f c = .ok x) :
    ∃ q, pixelOf a f = .ok q := by
  cases hq : pixelOf a f with
  | ok q => exact ⟨q, rfl⟩
  | error e =>
    obtain ⟨c, hc, he⟩ := pixelOf_error hq
    obtain ⟨x, hx⟩ := h c hc
    rw [hx] at he
    cases he

theorem rangeDone_imp {s t : State} {base count : Index} {new new' : Word → Word → Prop} (h : RangeDone s t base count new)
    (hnew : ∀ p q, new p q → new' p q) : RangeDone s t base count new' := by
  obtain ⟨registers, outside, pixels⟩ := h
  refine ⟨registers, outside, fun k p hlo hhi hp => ?_⟩
  obtain ⟨q, hq, hpq⟩ := pixels k p hlo hhi hp
  exact ⟨q, hq, hnew p q hpq⟩

/-- A range command that copies AUXB and maps each channel by `g` completes where every pixel of the range holds a value and
`g` answers for its channels. -/
theorem State.mapPixels_channels {s : State} {base count : Index} {g : Nat → Byte → Except Fault Byte}
    (hp : s.PixelsFilled base.toNat count.toNat)
    (hg : ∀ k p, base.toNat ≤ k → k < base.toNat + count.toNat → s.mem.readWord (pixAddr k) = some p →
      ∀ c, c < 3 → ∃ x, g c (chan p c) = .ok x) :
    ∃ t, s.mapPixels base count (fun p => pixelOf (auxb p) fun c => g c (chan p c)) = .ok t ∧
      RangeDone s t base count (fun p q => auxb q = auxb p ∧ ∀ c, c < 3 → g c (chan p c) = .ok (chan q c)) := by
  obtain ⟨t, ht⟩ := State.mapPixels_completes (s := s) (base := base) (count := count)
    (f := fun p => pixelOf (auxb p) fun c => g c (chan p c)) fun k hlo hhi => by
      obtain ⟨p, hword⟩ := Option.isSome_iff_exists.mp (hp k hlo hhi)
      obtain ⟨q, hq⟩ := exists_pixelOf (a := auxb p) (hg k p hlo hhi hword)
      exact ⟨p, q, State.pixel_ok.mpr hword, hq⟩
  obtain ⟨registers, outside, pixels⟩ := State.mapPixels_ok ht
  refine ⟨t, ht, registers, outside, fun k p hlo hhi hword => ?_⟩
  obtain ⟨p', q, hp', hq, hstored⟩ := pixels k hlo hhi
  obtain rfl : p = p' := Option.some.inj (hword.symm.trans (State.pixel_ok.mp hp'))
  exact ⟨q, State.pixel_ok.mp hstored, pixelOf_ok.mp hq⟩

/-- As `State.mapPixels_channels`, where channel `c` goes through table `w c`. -/
theorem State.mapPixels_entries {s : State} {base count : Index} {w : Nat → Nat}
    (hp : s.PixelsFilled base.toNat count.toNat) (he : EntriesFilled s base count w) :
    ∃ t, s.mapPixels base count (fun p => pixelOf (auxb p) fun c => s.entry (w c) (chan p c).toNat) = .ok t ∧
      RangeDone s t base count (fun p q => auxb q = auxb p ∧
        ∀ c, c < 3 → s.mem.read (tblAddr (w c) (chan p c).toNat) = some (chan q c)) := by
  obtain ⟨t, ht, hdone⟩ := State.mapPixels_channels (g := fun c v => s.entry (w c) v.toNat) hp
    fun k p hlo hhi hword c hc => by
      obtain ⟨x, hx⟩ := Option.isSome_iff_exists.mp (he k p hlo hhi hword c hc)
      exact ⟨x, State.entry_ok.mpr hx⟩
  exact ⟨t, ht, rangeDone_imp hdone fun p q ⟨haux, hchan⟩ => ⟨haux, fun c hc => State.entry_ok.mp (hchan c hc)⟩⟩

/-! ### APPLYF (R130 to R132) -/

theorem State.forwardChannel_lookup {s : State} (hm : s.mode = .lookupTable) (c : Nat) (v : Byte) :
    s.forwardChannel c v = s.entry c v.toNat := by
  cases s
  cases hm
  rfl

theorem State.forwardChannel_closed {s : State} (hm : s.mode = .closedForm) (c : Nat) (v : Byte) :
    s.forwardChannel c v = .ok (closedForm v (s.gamma.get c)) := by
  cases s
  cases hm
  rfl

/-- In lookup mode APPLYF maps each channel through its forward table. -/
theorem State.applyForward_lookup {s : State} (hm : s.mode = .lookupTable) :
    s.applyForward = fun p => pixelOf (auxb p) fun c => s.entry c (chan p c).toNat :=
  funext fun _ => pixelOf_congr fun c _ => State.forwardChannel_lookup hm c _

/-- The closed form is the entry of the rule with both ranges 255, over the reals (R131). -/
theorem closedForm_toNat {b : Word} (hv : gammaValid b = true) (v : Byte) :
    (closedForm v b).toNat = realEntry v.toNat 255 255 ((f32val b : ℚ) : ℝ) :=
  (toNat_ofNat_gammaEntry (maxOut := 255#8) (by decide) v.toNat 255 b).trans
    (gammaEntry_eq_realEntry hv (by decide) (by decide) v.toNat)

/-- The checks of APPLYF in lookup mode. -/
theorem firstFailure_applyf_lookup {s : State} (hm : s.mode = .lookupTable) {base count : Index}
    (h : base.toNat + count.toNat ≤ s.npix) :
    firstFailure (.applyf base count) s =
      if s.valid 0 = false ∨ s.valid 1 = false ∨ s.valid 2 = false then some .tableInvalid else none := by
  have fits : ¬ s.npix < base.toNat + count.toNat := h.not_gt
  simp [firstFailure, Instr.wf, pixRangeFails, badRangeFails, gammasNeeded, tablesNeeded, hm, fits]

theorem applyf_lookup_passes {s : State} (hm : s.mode = .lookupTable) {base count : Index}
    (h : base.toNat + count.toNat ≤ s.npix) (h0 : s.valid 0 = true) (h1 : s.valid 1 = true) (h2 : s.valid 2 = true) :
    firstFailure (.applyf base count) s = none := by
  simp [firstFailure_applyf_lookup hm h, h0, h1, h2]

/-- The checks of APPLYF in closed-form mode. -/
theorem firstFailure_applyf_closed {s : State} (hm : s.mode = .closedForm) {base count : Index}
    (h : base.toNat + count.toNat ≤ s.npix) :
    firstFailure (.applyf base count) s =
      if gammaValid (s.gamma.get 0) = false ∨ gammaValid (s.gamma.get 1) = false ∨ gammaValid (s.gamma.get 2) = false then
        some .badGamma
      else none := by
  have fits : ¬ s.npix < base.toNat + count.toNat := h.not_gt
  simp [firstFailure, Instr.wf, pixRangeFails, badRangeFails, gammasNeeded, tablesNeeded, hm, fits,
    ← gammaValid_eq_positiveFinite]

theorem applyf_closed_passes {s : State} (hm : s.mode = .closedForm) {base count : Index}
    (h : base.toNat + count.toNat ≤ s.npix) (hv : ∀ c, c < 3 → gammaValid (s.gamma.get c) = true) :
    firstFailure (.applyf base count) s = none := by
  simp [firstFailure_applyf_closed hm h, hv]

/-- Settles O29: each mode maps the channels by its own function; the failing checks in order; the opcode's decoder. -/
theorem applyfCorrectsPixels : Obligations.ApplyfCorrectsPixels := by
  refine ⟨fun base count s hm fits h0 h1 h2 hp he => ?lookup, fun base count s hm fits hv hp => ?closed,
    fun base count s past => ?pixRange, fun base count s fits hm hunpublished => ?tableInvalid,
    fun base count s fits hm hbad => ?badGamma, fun w arg hopc => ?encoding⟩
  case lookup =>
    obtain ⟨t, ht, hdone⟩ := State.mapPixels_entries hp he
    rw [← State.applyForward_lookup hm] at ht
    exact ⟨t, exec_commit (checks_pass_iff.mpr (applyf_lookup_passes hm fits h0 h1 h2)) ht, hdone⟩
  case closed =>
    obtain ⟨t, ht, hdone⟩ := State.mapPixels_channels (g := s.forwardChannel) hp
      fun _ p _ _ _ c _ => ⟨_, State.forwardChannel_closed hm c (chan p c)⟩
    refine ⟨t, exec_commit (checks_pass_iff.mpr (applyf_closed_passes hm fits hv)) ht,
      rangeDone_imp hdone fun p q ⟨haux, hchan⟩ => ⟨haux, fun c hc => ?_⟩⟩
    have hform := hchan c hc
    rw [State.forwardChannel_closed hm] at hform
    rw [← Except.ok.inj hform]
    exact closedForm_toNat (hv c hc) (chan p c)
  case pixRange => exact exec_of_firstFailure (firstFailure_range_past (.inl rfl) past)
  case tableInvalid => exact exec_of_firstFailure ((firstFailure_applyf_lookup hm fits).trans (if_pos hunpublished))
  case badGamma =>
    obtain ⟨c, hc, hinvalid⟩ := hbad
    refine exec_of_firstFailure ((firstFailure_applyf_closed hm fits).trans (if_pos ?_))
    interval_cases c <;> simp [hinvalid]
  case encoding =>
    obtain ⟨-, -, applyf, -⟩ := decode_of_opcode w arg
    exact applyf hopc

/-! ### APPLYI (R133) -/

/-- The checks of APPLYI, in either mode. -/
theorem firstFailure_applyi {s : State} {base count : Index} (h : base.toNat + count.toNat ≤ s.npix) :
    firstFailure (.applyi base count) s =
      if s.valid 4 = false ∨ s.valid 5 = false ∨ s.valid 6 = false then some .tableInvalid else none := by
  have fits : ¬ s.npix < base.toNat + count.toNat := h.not_gt
  simp [firstFailure, Instr.wf, pixRangeFails, badRangeFails, gammasNeeded, tablesNeeded, fits]

/-- Settles O30: each channel goes through its inverse table; the failing checks in order; the opcode's decoder. -/
theorem applyiLinearizesPixels : Obligations.ApplyiLinearizesPixels := by
  refine ⟨fun base count s fits h4 h5 h6 hp he => ?completes, fun base count s past => ?pixRange,
    fun base count s fits hunpublished => ?tableInvalid, fun w arg hopc => ?encoding⟩
  case completes =>
    obtain ⟨t, ht, hdone⟩ := State.mapPixels_entries hp he
    exact ⟨t, exec_commit (checks_pass_iff.mpr (by simp [firstFailure_applyi fits, h4, h5, h6])) ht, hdone⟩
  case pixRange => exact exec_of_firstFailure (firstFailure_range_past (.inr (.inl rfl)) past)
  case tableInvalid => exact exec_of_firstFailure ((firstFailure_applyi fits).trans (if_pos hunpublished))
  case encoding =>
    obtain ⟨-, -, -, applyi, -⟩ := decode_of_opcode w arg
    exact applyi hopc

/-! ### The two modes of APPLYF agree (R134) -/

/-- The table BUILD c, 255, 255 makes holds the closed form of each index. -/
theorem read_of_build {c : Nat} (hc : c < 3) {u u' : State} (hv : gammaValid (u.gamma.get c) = true)
    (h : exec (.build (BitVec.ofNat 2 c) 255#8 255#8) u = .next u') (v : Byte) :
    u'.mem.read (tblAddr c v.toNat) = some (closedForm v (u.gamma.get c)) := by
  have htid : (BitVec.ofNat 2 c).toNat = c := by
    rw [BitVec.toNat_ofNat]
    omega
  rw [exec_build (by decide) (by decide) (by rwa [htid])] at h
  cases h
  have hread := buildCommit_read (BitVec.ofNat 2 c) 255#8 255#8 u v.isLt
  rw [htid] at hread
  exact hread

/-- The state with CTRL.MODE set to `m`. -/
def State.withMode (s : State) (m : Mode) : State := { s with mode := m }

theorem State.withMode_eq_iff {s t : State} (m m' : Mode) : s.withMode m = t.withMode m ↔ s.withMode m' = t.withMode m' :=
  ⟨congrArg (State.withMode · m'), congrArg (State.withMode · m)⟩

/-- MODE bears on a range only through the function applied to its words. -/
theorem State.mapPixels_withMode {s t : State} {base count : Index} {f g : Word → Except Fault Word} (hfg : ∀ p, f p = g p)
    (m m' : Mode) : (s.withMode m).mapPixels base count f = .ok (t.withMode m) ↔
      (s.withMode m').mapPixels base count g = .ok (t.withMode m') := by
  rw [State.mapPixels_ok_iff, State.mapPixels_ok_iff,
    State.newPixels_congr (s := s.withMode m) (u := s.withMode m') hfg _ _ fun _ _ _ => rfl]
  exact exists_congr fun qs => and_congr_right fun _ => (State.withMode_eq_iff (s := s.storePixels base.toNat qs) m m')

/-- Settles O31: past NPIX both modes fault alike; otherwise the entry of each channel is its closed form. -/
theorem correctionModesAgree : Obligations.CorrectionModesAgree := by
  intro base count s t h0 h1 h2 hbuilt
  change exec _ (s.withMode .lookupTable) = .next (t.withMode .lookupTable) ↔
    exec _ (s.withMode .closedForm) = .next (t.withMode .closedForm)
  rcases Nat.lt_or_ge s.npix (base.toNat + count.toNat) with past | fits
  · have faults (m : Mode) : exec (.applyf base count) (s.withMode m) =
        .next ((faultState s (.applyf base count) .pixRange).withMode m) :=
      exec_of_firstFailure (firstFailure_range_past (.inl rfl) past)
    rw [faults, faults, Host.Outcome.next.injEq, Host.Outcome.next.injEq]
    exact State.withMode_eq_iff _ _
  · have hlookup := applyf_lookup_passes (s := s.withMode .lookupTable) rfl fits h0 h1 h2
    have hclosed := applyf_closed_passes (s := s.withMode .closedForm) rfl fits fun c hc => (hbuilt c hc).1
    rw [exec_passed (checks_pass_iff.mpr hlookup), exec_passed (checks_pass_iff.mpr hclosed)]
    refine State.mapPixels_withMode (fun p => pixelOf_congr fun c hc => ?_) _ _
    obtain ⟨hv, u, u', hexec, hgamma, hsame⟩ := hbuilt c hc
    have hentry := (hsame _ (chan p c).isLt).trans (read_of_build hc (by rwa [hgamma]) hexec (chan p c))
    rw [State.forwardChannel_lookup rfl, State.forwardChannel_closed rfl]
    exact State.entry_ok.mpr (hgamma ▸ hentry)

/-! ### A range cut in two (R135) -/

/-- The pixels behind a stored block read as before. -/
theorem State.pixel_storePixels_behind (s : State) {k x : Nat} {ps : List Word} (h : k + ps.length ≤ x) :
    (s.storePixels k ps).pixel x = s.pixel x := by
  unfold State.pixel
  rw [State.storePixels_mem, Memory.readWord_storeWords_outside _ (.inr h)]

/-- A range is its first part, then the rest, where the function reads no pixel word. -/
theorem State.mapPixels_split {f : State → Word → Except Fault Word}
    (hf : ∀ (s : State) (k : Nat) (ps : List Word) (p : Word), f (s.storePixels k ps) p = f s p) {base m n : Index}
    (hbase : (base + m).toNat = base.toNat + m.toNat) (hcount : (m + n).toNat = m.toNat + n.toNat) (s t : State) :
    s.mapPixels base (m + n) (f s) = .ok t ↔
      ∃ u, s.mapPixels base m (f s) = .ok u ∧ u.mapPixels (base + m) n (f u) = .ok t := by
  have second : ∀ {q1 : List Word}, q1.length = m.toNat →
      (s.storePixels base.toNat q1).newPixels (f (s.storePixels base.toNat q1)) (base.toNat + m.toNat) n.toNat =
        s.newPixels (f s) (base.toNat + m.toNat) n.toNat := fun hlen =>
    State.newPixels_congr (hf s _ _) _ _ fun _ hlo _ => s.pixel_storePixels_behind (hlen ▸ hlo)
  simp only [State.mapPixels_ok_iff, hbase, hcount, State.newPixels_append]
  constructor
  · rintro ⟨_, ⟨q1, q2, h1, h2, rfl⟩, rfl⟩
    have hlen := (State.newPixels_ok.mp h1).1
    refine ⟨_, ⟨q1, h1, rfl⟩, q2, (second hlen).trans h2, ?_⟩
    rw [← hlen, State.storePixels_append]
  · rintro ⟨_, ⟨q1, h1, rfl⟩, q2, h2, rfl⟩
    have hlen := (State.newPixels_ok.mp h1).1
    refine ⟨_, ⟨q1, q2, h1, (second hlen).symm.trans h2, rfl⟩, ?_⟩
    rw [← hlen, State.storePixels_append]

/-- Settles O38: the checks of both parts pass with those of the whole, and the commit splits. -/
theorem rangeCommandSplits : Obligations.RangeCommandSplits := by
  intro cmd base m n s t hcmd hbm hmn hnone
  obtain ⟨f, hcommit, hf⟩ := rangeCommand_commit hcmd
  have hbase : (base + m).toNat = base.toNat + m.toNat := BitVec.toNat_add_of_lt hbm
  have hcount : (m + n).toNat = m.toNat + n.toNat := BitVec.toNat_add_of_lt hmn
  have hfirst : firstFailure (cmd base m) s = none := firstFailure_range_shorter hcmd hnone (by omega) s.mem
  rw [exec_passed (checks_pass_iff.mpr hnone), hcommit, State.mapPixels_split hf hbase hcount]
  refine exists_congr fun u => ?_
  rw [exec_passed (checks_pass_iff.mpr hfirst), hcommit]
  refine and_congr_right fun hu => ?_
  have hsecond : firstFailure (cmd (base + m) n) u = none := by
    rw [(State.mapPixels_ok hu).1]
    exact firstFailure_range_shorter hcmd hnone (by omega) u.mem
  rw [exec_passed (checks_pass_iff.mpr hsecond), hcommit]

end Sys2Proof.Machine

/-! SUPPORT. Brightness and floors (42_brightness_floor.md): the functions of R150, R152 and R154 as numbers, FLOOR as the
register that follows CC, SCALE, SCALEF and FLOORG, and how range commands over one range compose. -/

namespace Sys2Proof.Machine

open Claim

/-! ### The floor of a factor (R150) -/

/-- A nonzero factor keeps a value nonzero under a truncating multiplication just from its floor on. -/
theorem floorOf_le_iff {f : Byte} (h : f ≠ 0#8) (m : Nat) : (floorOf f).toNat ≤ m ↔ 1 ≤ m * f.toNat / 255 := by
  have hpos : 0 < f.toNat := Nat.pos_of_ne_zero fun e => h (BitVec.eq_of_toNat_eq e)
  rw [floorOf_toNat h, ← Nat.ceilDiv_eq_add_pred_div, ceilDiv_le_iff_le_mul hpos, Nat.le_div_iff_mul_le (by decide), one_mul,
    Nat.mul_comm]

/-- Settles O24: at f = 0 by evaluation; else the floor is the least m with the property, which 255 has and 0 has not. -/
theorem floorIsSmallestSurvivor : Obligations.FloorIsSmallestSurvivor := by
  refine ⟨rfl, fun f => ?_⟩
  by_cases h : f = 0#8
  · subst h
    exact ⟨le_rfl, by decide, fun hne => absurd rfl hne⟩
  · have least := floorOf_le_iff h
    have hpos : 1 ≤ f.toNat := Nat.pos_of_ne_zero fun e => h (BitVec.eq_of_toNat_eq e)
    refine ⟨?_, (least 255).mpr ?_, fun _ => ⟨floorOf_toNat h, (least _).mp le_rfl, fun m _ => (least m).mpr⟩⟩
    · by_contra hzero
      have kept := (least 0).mp (by omega)
      simp at kept
    · rwa [Nat.mul_div_cancel_left _ (by decide)]

/-! ### Division by 255, rounded (R152) -/

theorem roundHalfUp_div_255 (n : Nat) : roundHalfUp ((n : ℝ) / 255) = (2 * n + 255) / 510 := by
  rw [roundHalfUp, ← Nat.floor_div_eq_div (K := ℝ)]
  congr 1
  push_cast
  ring

/-- 255 is odd, so no quotient by it lies halfway between two integers. -/
theorem div_255_ne_half (n k : Nat) : (n : ℝ) / 255 ≠ k + 1 / 2 := by
  intro h
  have hreal : (2 * n : ℝ) = 510 * k + 255 := by
    field_simp at h
    linarith
  have hnat : 2 * n = 510 * k + 255 := by exact_mod_cast hreal
  omega

/-- Settles O32: the rounded quotient of the product v * f by 255, which is never halfway; the identities by numbers. -/
theorem scaleRoundsToNearest : Obligations.ScaleRoundsToNearest := by
  refine ⟨fun v f => ⟨?_, scale8_toNat v f⟩, fun v f k => ?_, fun v => ⟨?_, ?_, ?_⟩⟩
  · rw [scale8_toNat, ← Nat.cast_mul, roundHalfUp_div_255, Nat.mul_assoc]
  · rw [← Nat.cast_mul]
    exact div_255_ne_half _ k
  · refine BitVec.eq_of_toNat_eq ((scale8_toNat v 255#8).trans ?_)
    rw [show (255#8).toNat = 255 from rfl]
    omega
  · refine BitVec.eq_of_toNat_eq ((scale8_toNat v 0#8).trans ?_)
    rw [show (0#8).toNat = 0 from rfl, Nat.mul_zero]
  · refine BitVec.eq_of_toNat_eq ((scale8_toNat 0#8 v).trans ?_)
    rw [show (0#8).toNat = 0 from rfl, Nat.mul_zero, Nat.zero_mul]

/-! ### FLOOR follows CC (R151) -/

/-- Of the aligned register offsets only 0x01C decodes to CC (20_memory.md R52). -/
theorem registerAt_cc : ∀ a < 0x40, a % 4 = 0 → registerAt a = .cc → a = 0x1C := by decide

theorem region_eq_cc {n a : Nat} (ha : a % 4 = 0) (h : region n a = .cc) : a = 0x1C := by
  unfold region at h
  split_ifs at h with hreg
  exact registerAt_cc a hreg ha h

theorem State.target_cc {s : State} {size : Size} {addr : Addr} (h : s.target size addr = .cc) :
    size = .word ∧ addr = 0x001C#16 := by
  rcases s.target_cases size addr with hr | ⟨hsize, ha, hr⟩
  · rw [hr] at h
    cases h
  · exact ⟨hsize, BitVec.eq_of_toNat_eq (region_eq_cc ha (hr.symm.trans h))⟩

/-- CC and FLOOR are the same in both states. -/
def State.SameFactors (s t : State) : Prop := t.floor = s.floor ∧ t.cc = s.cc

theorem exec_sameFactors {i : Instr} {s t : State} (h : exec i s = .next t) : s.SameFactors t := by
  rw [(commandsKeepRegisters i s t h).1]
  exact ⟨rfl, rfl⟩

theorem State.onCmdWrite_sameFactors {s t : State} {w : Word} (h : s.onCmdWrite w = .next t) : s.SameFactors t := by
  rcases State.onCmdWrite_next h with ⟨-, rfl⟩ | ⟨-, -, rfl⟩ | ⟨-, i, -, hexec⟩
  · exact ⟨rfl, rfl⟩
  · exact ⟨rfl, rfl⟩
  · exact exec_sameFactors hexec

theorem State.writeStatus_sameFactors (s : State) (v : Word) : s.SameFactors (s.writeStatus v) := by
  unfold State.writeStatus
  split <;> exact ⟨rfl, rfl⟩

/-- A host write sets FLOOR from CC at CC's address, and elsewhere keeps both. -/
theorem State.hostWrite_factors {s t : State} {size : Size} {addr : Addr} {v : Word} (h : s.hostWrite size addr v = .next t) :
    s.SameFactors t ∨ (size = .word ∧ addr = 0x001C#16 ∧ t.floor = floorsOf t.cc) := by
  rcases State.hostWrite_next h with ⟨-, u, hcmd, rfl⟩ | ⟨-, rfl⟩ | ⟨-, rfl⟩ | ⟨-, rfl⟩ | ⟨-, rfl⟩ | ⟨hcc, rfl⟩ | ⟨-, rfl⟩ |
    ⟨n, -, rfl⟩ | ⟨w, j, -, rfl⟩ | ⟨k, -, rfl⟩ | ⟨r, rfl⟩
  · exact .inl (State.onCmdWrite_sameFactors (t := u) hcmd :)
  · exact .inl ⟨rfl, rfl⟩
  · exact .inl (s.writeStatus_sameFactors v :)
  · exact .inl ⟨rfl, rfl⟩
  · exact .inl ⟨rfl, rfl⟩
  · obtain ⟨hsize, haddr⟩ := State.target_cc hcc
    exact .inr ⟨hsize, haddr, rfl⟩
  · exact .inl ⟨rfl, rfl⟩
  · exact .inl ⟨rfl, rfl⟩
  · exact .inl ⟨rfl, rfl⟩
  · exact .inl ⟨rfl, rfl⟩
  · exact .inl ⟨rfl, rfl⟩

/-- What a step does to CC and FLOOR: it keeps both, or it is a CC write or a reset and FLOOR is the function of CC after it. -/
theorem step_factors {s t : State} (h : step s = .next t) :
    s.SameFactors t ∨
      ((∃ v, s.host.head? = some (.write .word 0x001C#16 v)) ∨ s.host.head? = some .rst) ∧ t.floor = floorsOf t.cc := by
  rcases step_next h with ⟨-, rfl⟩ | ⟨rest, size, addr, -, rfl⟩ | ⟨rest, size, addr, v, hh, hw⟩ | ⟨rest, hh, rfl⟩
  · exact .inl ⟨rfl, rfl⟩
  · obtain ⟨r, hr⟩ := State.hostRead_eq { s with host := rest } size addr
    rw [hr]
    exact .inl ⟨rfl, rfl⟩
  · rcases State.hostWrite_factors hw with hsame | ⟨rfl, rfl, hfloor⟩
    · exact .inl hsame
    · exact .inr ⟨.inl ⟨v, by rw [hh, List.head?_cons]⟩, hfloor⟩
  · exact .inr ⟨.inr (by rw [hh, List.head?_cons]), floorsOf_full.symm⟩

/-- The state with CC, and CC alone, set to `x`. -/
def State.withCc (s : State) (x : Rgb) : State := { s with cc := x }

/-- A range command whose function does not read CC does not read CC. -/
theorem State.mapPixels_withCc {s t : State} {base count : Index} {f : Word → Except Fault Word}
    (h : s.mapPixels base count f = .ok t) (x : Rgb) : (s.withCc x).mapPixels base count f = .ok (t.withCc x) := by
  obtain ⟨qs, hqs, rfl⟩ := State.mapPixels_ok_iff.mp h
  have same : (s.withCc x).newPixels f base.toNat count.toNat = s.newPixels f base.toNat count.toNat :=
    State.newPixels_congr (fun _ => rfl) _ _ fun _ _ _ => rfl
  exact State.mapPixels_ok_iff.mpr ⟨qs, same.trans hqs, rfl⟩

/-- No check reads CC. -/
theorem checksOf_withCc (i : Instr) (s : State) (x : Rgb) : checksOf i (s.withCc x) = checksOf i s := by
  cases i <;> rfl

theorem commitOf_withCc {i : Instr} {s t : State} (h : commitOf i s = .ok t) (x : Rgb) :
    commitOf i (s.withCc x) = .ok (t.withCc x) := by
  cases i with
  | build tid maxIn maxOut => cases h; rfl
  | invert tid maxOut =>
    obtain ⟨l, hl, ht⟩ := Except.bind_ok.mp h
    cases ht
    exact Except.bind_ok.mpr ⟨l, hl, rfl⟩
  | applyf base count => exact State.mapPixels_withCc h x
  | applyi base count => exact State.mapPixels_withCc h x
  | scale base count => exact State.mapPixels_withCc h x
  | scalef base count => exact State.mapPixels_withCc h x
  | floorg base count => exact State.mapPixels_withCc h x
  | blend dst a b amt =>
    obtain ⟨pa, ha, h⟩ := Except.bind_ok.mp h
    obtain ⟨pb, hb, h⟩ := Except.bind_ok.mp h
    obtain ⟨q, hq, ht⟩ := Except.bind_ok.mp h
    cases ht
    exact Except.bind_ok.mpr ⟨pa, ha, Except.bind_ok.mpr ⟨pb, hb, Except.bind_ok.mpr ⟨q, hq, rfl⟩⟩⟩

theorem exec_withCc {i : Instr} {s t : State} (h : exec i s = .next t) (x : Rgb) :
    exec i (s.withCc x) = .next (t.withCc x) := by
  rcases exec_next h with ⟨c, hc, rfl⟩ | ⟨hc, hcommit⟩
  · exact exec_raise ((checksOf_withCc i s x).symm ▸ hc)
  · exact exec_commit ((checksOf_withCc i s x).symm ▸ hc) (commitOf_withCc hcommit x)

/-- Settles O23: the CC write by its event, the other events by what a step does to CC and FLOOR, reset by evaluation. -/
theorem floorFollowsCc : Obligations.FloorFollowsCc := by
  refine ⟨fun s v rest hh => ?write, fun s t ht hcc hrst => ?others, fun i s t x h => exec_withCc h x,
    fun s t ht hfloor => ?keeps, fun n => floorsOf_full.symm⟩
  case write =>
    have reaches : ({ s with host := rest } : State).target .word 0x001C#16 = .cc := State.target_word (by decide)
    rw [step_event hh, State.onEvent, State.hostWrite, reaches]
    rfl
  case others =>
    rcases step_factors ht with hsame | ⟨⟨v, hv⟩ | hr, -⟩
    · exact hsame
    · exact absurd hv (hcc v)
    · exact absurd hr hrst
  case keeps =>
    rcases step_factors ht with ⟨hf, hc⟩ | ⟨-, hnew⟩
    · rw [hf, hc, hfloor]
    · exact hnew

/-! ### The checks of SCALE, SCALEF and FLOORG (60_exceptions.md R202) -/

/-- SCALE and SCALEF check their range, then that DIM and AUX are published. -/
theorem firstFailure_scale {cmd : Index → Index → Instr} (hcmd : cmd = .scale ∨ cmd = .scalef) {base count : Index} {s : State}
    (h : base.toNat + count.toNat ≤ s.npix) :
    firstFailure (cmd base count) s = if s.valid 3 = false ∨ s.valid 7 = false then some .tableInvalid else none := by
  have fits : ¬ s.npix < base.toNat + count.toNat := h.not_gt
  rcases hcmd with rfl | rfl <;>
    simp [firstFailure, Instr.wf, pixRangeFails, badRangeFails, gammasNeeded, tablesNeeded, fits]

theorem firstFailure_scale_passes {cmd : Index → Index → Instr} (hcmd : cmd = .scale ∨ cmd = .scalef) {base count : Index}
    {s : State} (h : base.toNat + count.toNat ≤ s.npix) (h3 : s.valid 3 = true) (h7 : s.valid 7 = true) :
    firstFailure (cmd base count) s = none := by
  simp [firstFailure_scale hcmd h, h3, h7]

/-- FLOORG checks its range alone. -/
theorem firstFailure_floorg {base count : Index} {s : State} (h : base.toNat + count.toNat ≤ s.npix) :
    firstFailure (.floorg base count) s = none := by
  have fits : ¬ s.npix < base.toNat + count.toNat := h.not_gt
  simp [firstFailure, Instr.wf, pixRangeFails, badRangeFails, gammasNeeded, tablesNeeded, fits]

/-! ### SCALE, SCALEF and FLOORG (R153 to R157) -/

/-- A range command completes where every pixel of its range holds a value, if for every word `p` its function answers the
word with auxiliary byte `a p` and channels `g p`. -/
theorem State.mapPixels_fields {s : State} {base count : Index} {f : Word → Except Fault Word} {a : Word → Byte}
    {g : Word → Nat → Byte} (hp : s.PixelsFilled base.toNat count.toNat)
    (hf : ∀ p q, f p = .ok q ↔ auxb q = a p ∧ ∀ c, c < 3 → chan q c = g p c) :
    ∃ t, s.mapPixels base count f = .ok t ∧
      RangeDone s t base count (fun p q => auxb q = a p ∧ ∀ c, c < 3 → chan q c = g p c) := by
  obtain ⟨t, ht⟩ := State.mapPixels_completes (s := s) (base := base) (count := count) (f := f) fun k hlo hhi => by
    obtain ⟨p, hword⟩ := Option.isSome_iff_exists.mp (hp k hlo hhi)
    obtain ⟨q, hq⟩ := exists_pixelWord (a p) (g p)
    exact ⟨p, q, State.pixel_ok.mpr hword, (hf p q).mpr hq⟩
  obtain ⟨registers, outside, pixels⟩ := State.mapPixels_ok ht
  refine ⟨t, ht, registers, outside, fun k p hlo hhi hword => ?_⟩
  obtain ⟨p', q, hp', hq, hstored⟩ := pixels k hlo hhi
  obtain rfl : p = p' := Option.some.inj (hword.symm.trans (State.pixel_ok.mp hp'))
  exact ⟨q, State.pixel_ok.mp hstored, (hf p q).mp hq⟩

/-- The auxiliary byte of the level, from the entry it rests on (R153). -/
theorem State.auxOf_of_entry {s : State} {l x : Byte} (hzero : l = 0#8 → x = 0#8)
    (hentry : l ≠ 0#8 → ∃ y, s.mem.read (tblAddr 7 l.toNat) = some y ∧ x = if y = 0#8 then 1#8 else y) :
    s.auxOf l = .ok x := by
  rw [State.auxOf_ok]
  by_cases h : l = 0#8
  · exact .inl ⟨h, hzero h⟩
  · obtain ⟨y, hy, hx⟩ := hentry h
    exact .inr ⟨h, y, State.entry_ok.mpr hy, hx⟩

section
variable {s : State} {f x : Byte} (hf : s.mem.read (tblAddr 3 s.level.toNat) = some f) (hx : s.auxOf s.level = .ok x)
include hf hx

/-- With DIM[LEVEL] and the auxiliary byte there, SCALE answers one word for each pixel word. -/
theorem State.scalePixel_iff {p q : Word} :
    s.scalePixel p = .ok q ↔ auxb q = x ∧ ∀ c, c < 3 → chan q c = scale8 (chan p c) f := by
  rw [State.scalePixel_ok, State.entry_ok.mpr hf, hx]
  simp [eq_comm]

theorem State.scaleGuardPixel_iff {p q : Word} :
    s.scaleGuardPixel p = .ok q ↔ auxb q = x ∧ ∀ c, c < 3 → chan q c = floorGuard (scale8 (chan p c) f) (s.floor.get c) := by
  rw [State.scaleGuardPixel_ok, State.entry_ok.mpr hf, hx]
  simp [eq_comm]

end

/-- The guard of channel `c` by its field of FLOOR, as numbers (R154). -/
theorem floorGuard_get (v : Byte) (m : Rgb) (c : Nat) :
    floorGuard v (m.get c) =
      let n := if c = 0 then m.r else if c = 1 then m.g else m.b
      if 0 < v.toNat ∧ v.toNat < n.toNat then n else v := by
  rw [floorGuard_eq]
  rcases c with _ | _ | c <;> rfl

/-- Settles O33: the word SCALE stores is the one with the fields of the rule; the failing checks in order; the decoder. -/
theorem scaleDimsPixels : Obligations.ScaleDimsPixels := by
  refine ⟨fun base count s f x fits h3 h7 hp hf hzero hentry => ?completes, fun base count s past => ?pixRange,
    fun base count s fits hunpublished => ?tableInvalid, fun w arg hopc => ?encoding⟩
  case completes =>
    obtain ⟨t, ht, hdone⟩ := State.mapPixels_fields hp fun _ _ =>
      State.scalePixel_iff hf (State.auxOf_of_entry hzero hentry)
    exact ⟨t, exec_commit (checks_pass_iff.mpr (firstFailure_scale_passes (.inl rfl) fits h3 h7)) ht, hdone⟩
  case pixRange => exact exec_of_firstFailure (firstFailure_range_past (.inr (.inr (.inl rfl))) past)
  case tableInvalid => exact exec_of_firstFailure ((firstFailure_scale (.inl rfl) fits).trans (if_pos hunpublished))
  case encoding =>
    obtain ⟨-, -, -, -, scale, -⟩ := decode_of_opcode w arg
    exact scale hopc

/-- Settles O34: as SCALE, each channel of the stored word guarded by its field of FLOOR. -/
theorem scalefDimsAndGuardsPixels : Obligations.ScalefDimsAndGuardsPixels := by
  refine ⟨fun base count s f x fits h3 h7 hp hf hzero hentry => ?completes, fun base count s past => ?pixRange,
    fun base count s fits hunpublished => ?tableInvalid, fun w arg hopc => ?encoding⟩
  case completes =>
    obtain ⟨t, ht, hdone⟩ := State.mapPixels_fields hp fun _ _ =>
      State.scaleGuardPixel_iff hf (State.auxOf_of_entry hzero hentry)
    exact ⟨t, exec_commit (checks_pass_iff.mpr (firstFailure_scale_passes (.inr rfl) fits h3 h7)) ht,
      rangeDone_imp hdone fun p q ⟨haux, hchan⟩ => ⟨haux, fun c hc => (hchan c hc).trans (floorGuard_get _ s.floor c)⟩⟩
  case pixRange => exact exec_of_firstFailure (firstFailure_range_past (.inr (.inr (.inr (.inl rfl)))) past)
  case tableInvalid => exact exec_of_firstFailure ((firstFailure_scale (.inr rfl) fits).trans (if_pos hunpublished))
  case encoding =>
    obtain ⟨-, -, -, -, -, scalef, -⟩ := decode_of_opcode w arg
    exact scalef hopc

/-- Settles O35: FLOORG guards each channel by its field of FLOOR and reads no table; its range check; the decoder. -/
theorem floorgRaisesToFloor : Obligations.FloorgRaisesToFloor := by
  refine ⟨fun base count s fits hp => ?completes, fun base count s past => ?pixRange, fun w arg hopc => ?encoding⟩
  case completes =>
    obtain ⟨t, ht, hdone⟩ := State.mapPixels_fields hp fun _ _ => State.guardPixel_ok
    exact ⟨t, exec_commit (checks_pass_iff.mpr (firstFailure_floorg fits)) ht,
      rangeDone_imp hdone fun p q ⟨haux, hchan⟩ => ⟨haux, fun c hc => (hchan c hc).trans (floorGuard_get _ s.floor c)⟩⟩
  case pixRange => exact exec_of_firstFailure (firstFailure_range_past (.inr (.inr (.inr (.inr rfl)))) past)
  case encoding =>
    obtain ⟨-, -, -, -, -, -, floorg, -⟩ := decode_of_opcode w arg
    exact floorg hopc

/-! ### Two range commands over one range (R158) -/

theorem State.pixel_storePixels_inside (s : State) (k : Nat) {ps : List Word} {j : Nat} {q : Word} (h : ps[j]? = some q) :
    (s.storePixels k ps).pixel (k + j) = .ok q := by
  obtain ⟨hj, -⟩ := List.getElem?_eq_some_iff.mp h
  rw [State.pixel_ok, State.storePixels_mem, Memory.readWord_storeWords s.mem k ps hj, h]

/-- The new words of `f` then `g` are those of `g` over the stored new words of `f`. -/
theorem State.newPixels_bind {s : State} {f g : Word → Except Fault Word} {n k : Nat} {qs : List Word} :
    s.newPixels (fun p => f p >>= g) k n = .ok qs ↔
      ∃ ps, s.newPixels f k n = .ok ps ∧ (s.storePixels k ps).newPixels g k n = .ok qs := by
  simp only [State.newPixels_ok (f := fun p => f p >>= g), Except.bind_ok]
  constructor
  · rintro ⟨hlen, hwords⟩
    cases hps : s.newPixels f k n with
    | ok ps =>
      refine ⟨ps, rfl, State.newPixels_ok.mpr ⟨hlen, fun j hj => ?_⟩⟩
      obtain ⟨p, q, hp, ⟨r, hr, hq⟩, hqs⟩ := hwords j hj
      obtain ⟨p', r', hp', hr', hstored⟩ := (State.newPixels_ok.mp hps).2 j hj
      cases hp.symm.trans hp'
      cases hr.symm.trans hr'
      exact ⟨r, q, s.pixel_storePixels_inside k hstored, hq, hqs⟩
    | error e =>
      obtain ⟨j, hj, hstop⟩ := State.newPixels_error hps
      obtain ⟨p, q, hp, ⟨r, hr, -⟩, -⟩ := hwords j hj
      rcases hstop with hpix | ⟨p', hp', he⟩
      · cases hp.symm.trans hpix
      · cases hp.symm.trans hp'
        cases hr.symm.trans he
  · rintro ⟨ps, hps, hqs⟩
    obtain ⟨hlen, hwords⟩ := State.newPixels_ok.mp hqs
    refine ⟨hlen, fun j hj => ?_⟩
    obtain ⟨p, r, hp, hr, hstored⟩ := (State.newPixels_ok.mp hps).2 j hj
    obtain ⟨r', q, hr', hq, hget⟩ := hwords j hj
    cases (s.pixel_storePixels_inside k hstored).symm.trans hr'
    exact ⟨p, q, hp, ⟨r, hr, hq⟩, hget⟩

/-- A range command with `f`, then one over the same range with `g`, is one with `f` then `g`. -/
theorem State.mapPixels_bind {s t : State} {base count : Index} {f g : Word → Except Fault Word} :
    s.mapPixels base count (fun p => f p >>= g) = .ok t ↔
      ∃ u, s.mapPixels base count f = .ok u ∧ u.mapPixels base count g = .ok t := by
  simp only [State.mapPixels_ok_iff, State.newPixels_bind]
  have overwrite {ps qs : List Word} (hps : s.newPixels f base.toNat count.toNat = .ok ps)
      (hqs : (s.storePixels base.toNat ps).newPixels g base.toNat count.toNat = .ok qs) :
      (s.storePixels base.toNat ps).storePixels base.toNat qs = s.storePixels base.toNat qs :=
    s.storePixels_twice _ ((State.newPixels_ok.mp hps).1.trans (State.newPixels_ok.mp hqs).1.symm)
  constructor
  · rintro ⟨qs, ⟨ps, hps, hqs⟩, rfl⟩
    exact ⟨_, ⟨ps, hps, rfl⟩, qs, hqs, overwrite hps hqs⟩
  · rintro ⟨_, ⟨ps, hps, rfl⟩, qs, hqs, rfl⟩
    exact ⟨qs, ⟨ps, hps, hqs⟩, (overwrite hps hqs).symm⟩

/-- A value at its floor or above, or 0, is not raised again. -/
theorem floorGuard_idem (v m : Byte) : floorGuard (floorGuard v m) m = floorGuard v m := by
  simp only [floorGuard_eq]
  split_ifs <;> rfl

theorem State.guardPixel_eq (s : State) (p : Word) :
    s.guardPixel p = .ok (pixelWord (auxb p) (floorGuard (chan p 0) s.floor.r) (floorGuard (chan p 1) s.floor.g)
      (floorGuard (chan p 2) s.floor.b)) :=
  rfl

/-- The guard of a word given by its fields. -/
theorem State.guardPixel_pixelWord (s : State) (a r g b : Byte) :
    s.guardPixel (pixelWord a r g b) =
      .ok (pixelWord a (floorGuard r s.floor.r) (floorGuard g s.floor.g) (floorGuard b s.floor.b)) := by
  obtain ⟨hr, hg, hb, ha⟩ := chan_pixelWord a r g b
  rw [State.guardPixel_eq, hr, hg, hb, ha]

theorem State.guardPixel_idem (s : State) (p : Word) : (s.guardPixel p >>= s.guardPixel) = s.guardPixel p := by
  simp only [s.guardPixel_eq p, bind, Except.bind, State.guardPixel_pixelWord, floorGuard_idem]

/-- The word of SCALEF is the word of SCALE, guarded (R156). -/
theorem State.scaleGuardPixel_eq_bind (s : State) (p : Word) : s.scaleGuardPixel p = s.scalePixel p >>= s.guardPixel := by
  unfold State.scaleGuardPixel State.scalePixel
  cases s.entry 3 s.level.toNat with
  | error e => rfl
  | ok f =>
    cases s.auxOf s.level with
    | error e => rfl
    | ok x => exact (s.guardPixel_pixelWord x _ _ _).symm

/-- With its range inside NPIX, FLOORG is its commit. -/
theorem exec_floorg_iff {base count : Index} {s t : State} (h : base.toNat + count.toNat ≤ s.npix) :
    exec (.floorg base count) s = .next t ↔ s.mapPixels base count s.guardPixel = .ok t :=
  exec_passed (checks_pass_iff.mpr (firstFailure_floorg h))

/-- After a range command FLOORG over a range inside NPIX guards by the floors of before. -/
theorem exec_floorg_after {base count : Index} {f : Word → Except Fault Word} {s u t : State}
    (h : base.toNat + count.toNat ≤ s.npix) (hu : s.mapPixels base count f = .ok u) :
    exec (.floorg base count) u = .next t ↔ u.mapPixels base count s.guardPixel = .ok t := by
  obtain ⟨qs, -, rfl⟩ := State.mapPixels_eq_storePixels hu
  exact exec_floorg_iff h

/-- Settles O36: FLOORG run twice is one range command with the guard applied twice, which is the guard. -/
theorem floorgIdempotent : Obligations.FloorgIdempotent := by
  intro base count s t fits h
  have once : s.mapPixels base count s.guardPixel = .ok t := (exec_floorg_iff fits).mp h
  have twice : s.mapPixels base count (fun p => s.guardPixel p >>= s.guardPixel) = .ok t := by
    rw [funext s.guardPixel_idem]
    exact once
  obtain ⟨u, hu, ht⟩ := State.mapPixels_bind.mp twice
  obtain rfl : u = t := Except.ok.inj (hu.symm.trans once)
  exact (exec_floorg_after fits once).mpr ht

/-- Settles O37: all three commands pass their checks, and the word of SCALEF is that of SCALE, guarded. -/
theorem scalefIsScaleThenFloorg : Obligations.ScalefIsScaleThenFloorg := by
  intro base count s t fits h3 h7
  calc exec (.scalef base count) s = .next t
      ↔ s.mapPixels base count s.scaleGuardPixel = .ok t :=
        exec_passed (checks_pass_iff.mpr (firstFailure_scale_passes (.inr rfl) fits h3 h7))
    _ ↔ s.mapPixels base count (fun p => s.scalePixel p >>= s.guardPixel) = .ok t := by
        rw [funext s.scaleGuardPixel_eq_bind]
    _ ↔ ∃ u, s.mapPixels base count s.scalePixel = .ok u ∧ u.mapPixels base count s.guardPixel = .ok t :=
        State.mapPixels_bind
    _ ↔ ∃ u, exec (.scale base count) s = .next u ∧ exec (.floorg base count) u = .next t :=
        exists_congr fun u => by
          rw [exec_passed (checks_pass_iff.mpr (firstFailure_scale_passes (.inl rfl) fits h3 h7))]
          exact and_congr_right fun hu => (exec_floorg_after fits hu).symm

end Sys2Proof.Machine

/-! SUPPORT. Blend (43_blend.md): the rounded interpolation of R180, the pixel BLEND stores, and the laws of R182 and R183. -/

namespace Sys2Proof.Machine

open Claim

/-! ### The rounded interpolation (R180) -/

/-- The two weights of an interpolation add up to 255. -/
theorem weights_mul (m : Nat) (t : Byte) : m * (255 - t.toNat) + m * t.toNat = m * 255 := by
  rw [← Nat.mul_add, Nat.sub_add_cancel (Nat.le_of_lt_succ t.isLt)]

/-- The interpolation sum as a real number. -/
theorem weightedSum_cast (la lb t : Byte) : (la.toNat : ℝ) * (255 - t.toNat) + lb.toNat * t.toNat =
    ((la.toNat * (255 - t.toNat) + lb.toNat * t.toNat : Nat) : ℝ) := by
  rw [Nat.cast_add, Nat.cast_mul, Nat.cast_mul, Nat.cast_sub (Nat.le_of_lt_succ t.isLt), Nat.cast_ofNat]

/-- A bound below both ends is below the interpolation. -/
theorem le_lerp {m : Nat} {la lb : Byte} (ha : m ≤ la.toNat) (hb : m ≤ lb.toNat) (t : Byte) : m ≤ (lerp la lb t).toNat := by
  have hla := Nat.mul_le_mul_right (255 - t.toNat) ha
  have hlb := Nat.mul_le_mul_right t.toNat hb
  have hm := weights_mul m t
  rw [lerp_toNat]
  omega

/-- A bound above both ends is above the interpolation. -/
theorem lerp_le {m : Nat} {la lb : Byte} (ha : la.toNat ≤ m) (hb : lb.toNat ≤ m) (t : Byte) : (lerp la lb t).toNat ≤ m := by
  have hla := Nat.mul_le_mul_right (255 - t.toNat) ha
  have hlb := Nat.mul_le_mul_right t.toNat hb
  have hm := weights_mul m t
  rw [lerp_toNat]
  omega

theorem lerp_self (l t : Byte) : lerp l l t = l :=
  BitVec.eq_of_toNat_eq (Nat.le_antisymm (lerp_le le_rfl le_rfl t) (le_lerp le_rfl le_rfl t))

/-- Exchanging the ends and the weights changes nothing. -/
theorem lerp_swap (la lb t : Byte) : lerp lb la (255#8 - t) = lerp la lb t := by
  have ht : t.toNat ≤ 255 := Nat.le_of_lt_succ t.isLt
  have hsub : (255#8 - t).toNat = 255 - t.toNat := BitVec.toNat_sub_of_le ht
  apply BitVec.eq_of_toNat_eq
  rw [lerp_toNat, lerp_toNat, hsub, Nat.sub_sub_self ht, Nat.add_comm (lb.toNat * t.toNat)]

theorem lerp_zero (la lb : Byte) : lerp la lb 0#8 = la := by
  apply BitVec.eq_of_toNat_eq
  rw [lerp_toNat, show (0#8).toNat = 0 from rfl]
  omega

theorem lerp_full (la lb : Byte) : lerp la lb 255#8 = lb :=
  (lerp_swap lb la 0#8).trans (lerp_zero lb la)

/-- Settles O40: the sum is a natural number, so its quotient by 255 is rounded without ties; the ends and the bounds by the
lemmas above. -/
theorem lerpInterpolates : Obligations.LerpInterpolates := by
  refine ⟨fun la lb t => ⟨?_, lerp_toNat la lb t⟩, fun la lb t k => ?_, fun la lb t => ⟨lerp_zero la lb, lerp_full la lb,
    le_lerp (min_le_left _ _) (min_le_right _ _) t, lerp_le (le_max_left _ _) (le_max_right _ _) t⟩⟩
  · rw [weightedSum_cast, roundHalfUp_div_255, lerp_toNat]
  · rw [weightedSum_cast]
    exact div_255_ne_half _ k

/-! ### The checks and the commit of BLEND (R181) -/

/-- BLEND checks its three indices, then that the six color tables are published (60_exceptions.md R202). -/
theorem firstFailure_blend (dst a b : Index) (amt : Byte) (s : State) : firstFailure (.blend dst a b amt) s =
    if s.npix ≤ dst.toNat ∨ s.npix ≤ a.toNat ∨ s.npix ≤ b.toNat then some .pixRange
    else if s.valid 0 = false ∨ s.valid 1 = false ∨ s.valid 2 = false ∨ s.valid 4 = false ∨ s.valid 5 = false ∨
      s.valid 6 = false then some .tableInvalid
    else none := by
  simp [firstFailure, Instr.wf, pixRangeFails, badRangeFails, gammasNeeded, tablesNeeded]

theorem firstFailure_blend_inRange {dst a b : Index} {amt : Byte} {s : State} (hd : dst.toNat < s.npix) (ha : a.toNat < s.npix)
    (hb : b.toNat < s.npix) : firstFailure (.blend dst a b amt) s =
      if s.valid 0 = false ∨ s.valid 1 = false ∨ s.valid 2 = false ∨ s.valid 4 = false ∨ s.valid 5 = false ∨
        s.valid 6 = false then some .tableInvalid
      else none := by
  rw [firstFailure_blend, if_neg (by omega)]

/-- The checks bear on neither the order of the two inputs nor the amount. -/
theorem firstFailure_blend_swap (dst a b : Index) (x y : Byte) (s : State) :
    firstFailure (.blend dst b a y) s = firstFailure (.blend dst a b x) s := by
  rw [firstFailure_blend, firstFailure_blend]
  exact if_congr (or_congr_right or_comm) rfl rfl

theorem commitOf_blend_iff {dst a b : Index} {amt : Byte} {s t : State} : commitOf (.blend dst a b amt) s = .ok t ↔
    ∃ pa pb q, s.pixel a.toNat = .ok pa ∧ s.pixel b.toNat = .ok pb ∧ s.blendPixels amt pa pb = .ok q ∧
      s.storePixels dst.toNat [q] = t := by
  simp only [commitOf, Except.bind_ok, Except.ok.injEq, ← exists_and_left]

/-- With its checks passed, BLEND reads two pixels and stores the blended word. -/
theorem exec_blend_iff {dst a b : Index} {amt : Byte} {s t : State} (h : firstFailure (.blend dst a b amt) s = none) :
    exec (.blend dst a b amt) s = .next t ↔
      ∃ pa pb q, s.pixel a.toNat = .ok pa ∧ s.pixel b.toNat = .ok pb ∧ s.blendPixels amt pa pb = .ok q ∧
        s.storePixels dst.toNat [q] = t :=
  (exec_passed (checks_pass_iff.mpr h)).trans commitOf_blend_iff

theorem State.blendChannel_ok {s : State} {amt x : Byte} {pa pb : Word} {c : Nat} : s.blendChannel amt pa pb c = .ok x ↔
    ∃ la lb, s.entry (c + 4) (chan pa c).toNat = .ok la ∧ s.entry (c + 4) (chan pb c).toNat = .ok lb ∧
      s.entry c (lerp la lb amt).toNat = .ok x := by
  simp only [State.blendChannel, Except.bind_ok, ← exists_and_left]

/-- Where the entries that BLEND reads hold values, there is a blended word. -/
theorem State.exists_blendPixels {s : State} {amt : Byte} {pa pb : Word}
    (h : ∀ c, c < 3 → ∃ la lb, s.mem.read (tblAddr (c + 4) (chan pa c).toNat) = some la ∧
      s.mem.read (tblAddr (c + 4) (chan pb c).toNat) = some lb ∧ (s.mem.read (tblAddr c (lerp la lb amt).toNat)).isSome) :
    ∃ q, s.blendPixels amt pa pb = .ok q :=
  exists_pixelOf fun c hc => by
    obtain ⟨la, lb, ha, hb, hforward⟩ := h c hc
    obtain ⟨x, hx⟩ := Option.isSome_iff_exists.mp hforward
    refine ⟨x, ?_⟩
    rw [State.blendChannel_ok]
    exact ⟨la, lb, State.entry_ok.mpr ha, State.entry_ok.mpr hb, State.entry_ok.mpr hx⟩

/-- Settles O41: the blended word is stored as one pixel; the failing checks in order; the opcode's decoder. -/
theorem blendStoresOnePixel : Obligations.BlendStoresOnePixel := by
  refine ⟨fun dst a b amt s pa pb hd ha hb h0 h1 h2 h4 h5 h6 hpa hpb hentries => ?completes,
    fun dst a b amt s past => ?pixRange, fun dst a b amt s hd ha hb hunpublished => ?tableInvalid,
    fun w arg hopc => ?encoding⟩
  case completes =>
    have passes : firstFailure (.blend dst a b amt) s = none := by
      simp [firstFailure_blend_inRange hd ha hb, h0, h1, h2, h4, h5, h6]
    obtain ⟨q, hq⟩ := State.exists_blendPixels hentries
    obtain ⟨stored, outside⟩ := s.storePixel_reads dst.toNat q
    obtain ⟨haux, hchan⟩ := State.blendPixels_ok.mp hq
    refine ⟨_, q, (exec_blend_iff passes).mpr ⟨pa, pb, q, State.pixel_ok.mpr hpa, State.pixel_ok.mpr hpb, hq, rfl⟩, rfl,
      outside, stored, haux, fun c hc => ?_⟩
    simpa only [State.entry_ok] using hchan c hc
  case pixRange => exact exec_of_firstFailure ((firstFailure_blend dst a b amt s).trans (if_pos past))
  case tableInvalid => exact exec_of_firstFailure ((firstFailure_blend_inRange hd ha hb).trans (if_pos hunpublished))
  case encoding =>
    obtain ⟨-, -, -, -, -, -, -, blend, -⟩ := decode_of_opcode w arg
    rw [blend hopc]
    split_ifs with hreserved
    · exact (decodeBlend_error w arg).mpr hreserved
    · obtain ⟨hres, hresa⟩ := not_or.mp hreserved
      exact (if_neg hres).trans (if_neg hresa)

/-! ### The in-place form (R182) -/

/-- The command word of BLEND as a number (30_encoding.md R83). -/
theorem toNat_encode_blend (dst a b : Index) (amt : Byte) :
    (encode (.blend dst a b amt)).toNat = 0x30000000 + amt.toNat * 2 ^ 16 + dst.toNat := by
  rw [encode, formatB, toNat_append_eq, toNat_append_eq, toNat_append_eq, BitVec.toNat_ofNat, BitVec.toNat_ofNat]
  omega

/-- BLEND changes no pixel but DST, whether it completes or faults. -/
theorem exec_blend_other {dst a b : Index} {amt : Byte} {s t : State} (h : exec (.blend dst a b amt) s = .next t) {k : Nat}
    (hk : k ≠ dst.toNat) : t.mem.readWord (pixAddr k) = s.mem.readWord (pixAddr k) := by
  rcases exec_next h with ⟨c, -, rfl⟩ | ⟨-, hcommit⟩
  · rfl
  · rw [commitOf_blend_iff] at hcommit
    obtain ⟨-, -, q, -, -, -, rfl⟩ := hcommit
    exact Memory.readWord_storeWords_outside s.mem (ps := [q]) hk.lt_or_gt

/-- Settles O42: the fields of the two words added up; pixel b is not DST. -/
theorem blendInPlaceKeepsB : Obligations.BlendInPlaceKeepsB := by
  refine ⟨fun a b amt => ⟨toNat_encode_blend a a b amt, _, rfl, ?_⟩, fun a b amt s t hab h => ?_⟩
  · rw [toNat_append_eq, toNat_zero_append]
  · exact exec_blend_other h (BitVec.toNat_ne_iff_ne.mpr hab.symm)

/-! ### The laws of BLEND (R183) -/

/-- R183 (b): a channel blended with itself goes through the two tables, whatever the amount. -/
theorem State.blendChannel_self (s : State) (amt : Byte) (p : Word) (c : Nat) :
    s.blendChannel amt p p c = s.entry (c + 4) (chan p c).toNat >>= fun l => s.entry c l.toNat := by
  unfold State.blendChannel
  cases s.entry (c + 4) (chan p c).toNat with
  | error e => rfl
  | ok l => exact congrArg (fun x : Byte => s.entry c x.toNat) (lerp_self l amt)

theorem State.blendPixels_self (s : State) (x y : Byte) (p : Word) : s.blendPixels x p p = s.blendPixels y p p :=
  pixelOf_congr fun c _ => (s.blendChannel_self x p c).trans (s.blendChannel_self y p c).symm

/-- Settles O43: both amounts pass the same checks and blend the pixel with itself to the same word. -/
theorem blendWithItselfIgnoresAmount : Obligations.BlendWithItselfIgnoresAmount := by
  intro dst a x y s t hnone h
  obtain ⟨p, p', q, hp, hp', hq, hstored⟩ := (exec_blend_iff hnone).mp h
  obtain rfl : p = p' := Except.ok.inj (hp.symm.trans hp')
  exact (exec_blend_iff ((firstFailure_blend_swap dst a a x y s).trans hnone)).mpr
    ⟨p, p, q, hp, hp, (s.blendPixels_self y x p).trans hq, hstored⟩

/-- R183 (d): a channel of the swapped blend at the complementary amount. -/
theorem State.blendChannel_swap {s : State} {amt x : Byte} {pa pb : Word} {c : Nat} (h : s.blendChannel amt pa pb c = .ok x) :
    s.blendChannel (255#8 - amt) pb pa c = .ok x := by
  rw [State.blendChannel_ok] at h ⊢
  obtain ⟨la, lb, ha, hb, hx⟩ := h
  exact ⟨lb, la, hb, ha, by rwa [lerp_swap]⟩

/-- The pixel DST after BLEND, its checks passed, is the blend of the two pixels before it. -/
theorem exec_blend_stored {dst a b : Index} {amt : Byte} {s t : State} {q : Word}
    (hnone : firstFailure (.blend dst a b amt) s = none) (h : exec (.blend dst a b amt) s = .next t)
    (hq : t.mem.readWord (pixAddr dst.toNat) = some q) :
    ∃ pa pb, s.pixel a.toNat = .ok pa ∧ s.pixel b.toNat = .ok pb ∧ s.blendPixels amt pa pb = .ok q := by
  obtain ⟨pa, pb, q', ha, hb, hblend, rfl⟩ := (exec_blend_iff hnone).mp h
  obtain rfl : q' = q := Option.some.inj ((s.storePixel_reads dst.toNat q').1.symm.trans hq)
  exact ⟨pa, pb, ha, hb, hblend⟩

/-- Settles O44: both runs pass the same checks and read the same two pixels; each channel by `State.blendChannel_swap`. -/
theorem blendSwapKeepsChannels : Obligations.BlendSwapKeepsChannels := by
  intro dst a b amt s t u p q hnone ht hu hp hq c hc
  obtain ⟨pa, pb, ha, hb, hblend⟩ := exec_blend_stored hnone ht hp
  obtain ⟨pb', pa', hb', ha', hblend'⟩ := exec_blend_stored ((firstFailure_blend_swap dst a b _ _ s).trans hnone) hu hq
  obtain rfl : pa = pa' := Except.ok.inj (ha.symm.trans ha')
  obtain rfl : pb = pb' := Except.ok.inj (hb.symm.trans hb')
  have hswap := State.blendChannel_swap ((pixelOf_ok.mp hblend).2 c hc)
  exact Except.ok.inj (hswap.symm.trans ((pixelOf_ok.mp hblend').2 c hc))

end Sys2Proof.Machine

/-! SUPPORT. Faults (60_exceptions.md): a CMD write while ERR = 1 and the write that clears the fault, the fault of the first
failing check and its causes, the run-wide mark, and where a command meets the model-only fault. -/

namespace Sys2Proof.Machine

open Claim

/-! ### Writes to CMD and STATUS (R206, R207) -/

/-- Of the aligned addresses only 0x0000 decodes to CMD (20_memory.md R51, R52). -/
theorem region_eq_cmd {n a : Nat} (ha : a % 4 = 0) (h : region n a = .cmd) : a = 0 := by
  have offsets : ∀ a < 0x40, a % 4 = 0 → registerAt a = .cmd → a = 0 := by decide
  unfold region at h
  split_ifs at h with hreg
  exact offsets a hreg ha h

/-- CMD is reached by a 32-bit access to address 0 and by no other access. -/
theorem State.target_cmd_iff {s : State} {size : Size} {addr : Addr} :
    s.target size addr = .cmd ↔ size = .word ∧ addr = 0x0000#16 := by
  constructor
  · intro h
    rcases s.target_cases size addr with hr | ⟨hsize, ha, hr⟩
    · rw [hr] at h
      cases h
    · exact ⟨hsize, BitVec.eq_of_toNat_eq (region_eq_cmd ha (hr.symm.trans h))⟩
  · rintro ⟨rfl, rfl⟩
    exact State.target_word (by decide)

/-- A write that reaches CMD delivers a command word (60_exceptions.md R200). -/
theorem State.hostWrite_cmd {s : State} {size : Size} {addr : Addr} (h : s.target size addr = .cmd) (w : Word) :
    s.hostWrite size addr w = writeDone (s.onCmdWrite w) := by
  unfold State.hostWrite
  rw [h]

/-- While ERR = 1 a command word is dropped, whatever it is (R206). -/
theorem State.onCmdWrite_dropped {s : State} (h : s.err = true) (w : Word) : s.onCmdWrite w = .next s.dropCommand :=
  if_pos h

/-- Settles O15: the write reaches CMD, and with ERR = 1 the word is dropped. -/
theorem commandsDropWhileErr : Obligations.CommandsDropWhileErr := by
  intro s w rest herr hh
  have delivered := State.hostWrite_cmd (s := { s with host := rest }) (Iff.mpr State.target_cmd_iff ⟨rfl, rfl⟩) w
  rw [State.onCmdWrite_dropped (s := { s with host := rest }) herr] at delivered
  exact (step_event hh).trans delivered

/-- Settles O16: the write reaches STATUS, where bit 0 decides. -/
theorem statusWriteClearsFault : Obligations.StatusWriteClearsFault := by
  intro s v rest hh
  have reaches : ({ s with host := rest } : State).target .word 0x0008#16 = .status := State.target_word (by decide)
  rw [step_event hh, State.onEvent, State.hostWrite, reaches]
  cases hbit : v.getLsbD 0
  · simp only [State.writeStatus, hbit, Bool.false_eq_true, if_false]
    rfl
  · simp only [State.writeStatus, hbit, if_true]
    rfl

/-! ### The fault of a command (R202 to R204) -/

/-- A command ends in a next state or stops with the model-only fault (60_exceptions.md R219). -/
theorem exec_next_or_fault (i : Instr) (s : State) : (∃ t, exec i s = .next t) ∨ ∃ f, exec i s = .fault f := by
  cases h : exec i s with
  | next t => exact .inl ⟨t, rfl⟩
  | fault f => exact .inr ⟨f, rfl⟩
  | refused r => exact absurd h (exec_ne_refused i s r)

/-- Settles O13: a failing check is the fault, by `exec_of_firstFailure`; with none, what every command keeps. -/
theorem firstFailingCheckFaults : Obligations.FirstFailingCheckFaults := by
  refine ⟨fun s w e herr hd => State.onCmdWrite_illegal herr hd, fun i s => ⟨fun c => exec_of_firstFailure, fun hnone => ?_⟩⟩
  rcases exec_next_or_fault i s with ⟨t, ht⟩ | hfault
  · obtain ⟨-, kept, -⟩ := commandsKeepRegisters i s t ht
    exact .inl ⟨t, ht, kept hnone⟩
  · exact .inr hfault

/-- A command that leaves ERR = 1 where ERR was 0 has made the fault entry of its first failing check. -/
theorem firstFailure_of_exec_err {i : Instr} {s t : State} (herr : s.err = false) (h : exec i s = .next t) (ht : t.err = true) :
    ∃ c, firstFailure i s = some c ∧ t = faultState s i c := by
  cases hf : firstFailure i s with
  | some c => exact ⟨c, rfl, Host.Outcome.next.inj (h.symm.trans (exec_of_firstFailure hf))⟩
  | none =>
    obtain ⟨-, kept, -⟩ := commandsKeepRegisters i s t h
    obtain ⟨same, -⟩ := kept hf
    rw [same, herr] at ht
    cases ht

/-- A failing check of a well-formed command has a cause of the command's row (R203). -/
theorem checksOf_cause_mem {i : Instr} {s : State} (hwf : i.wf = true) {check : Bool × Cause} (hmem : check ∈ checksOf i s)
    (hfail : check.1 = true) : check.2 ∈ causesOf i s.mode := by
  cases i with
  | applyf base count =>
    simp only [checksOf, List.mem_cons, List.not_mem_nil, or_false] at hmem
    cases hm : s.mode <;> rcases hmem with rfl | rfl <;> simp [State.applyfCheck, causesOf, hm]
  | invert tid maxOut =>
    simp only [checksOf, List.mem_cons, List.not_mem_nil, or_false] at hmem
    rcases hmem with rfl | rfl | rfl
    · exact absurd (beq_iff_eq.mp hfail) (bne_iff_ne.mp hwf)
    · simp [causesOf]
    · simp [causesOf]
  | floorg base count =>
    obtain rfl := List.mem_singleton.mp hmem
    simp [causesOf]
  | _ =>
    simp only [checksOf, List.mem_cons, List.not_mem_nil, or_false] at hmem
    rcases hmem with rfl | rfl <;> simp [causesOf]

theorem firstFailure_mem_causesOf {i : Instr} {s : State} {c : Cause} (hwf : i.wf = true) (h : firstFailure i s = some c) :
    c ∈ causesOf i s.mode := by
  obtain ⟨check, hfind, rfl⟩ := Option.map_eq_some_iff.mp (find_checksOf i s ▸ h)
  exact checksOf_cause_mem hwf (List.mem_of_find?_eq_some hfind) (List.find?_some hfind)

/-- No check reads memory. -/
theorem firstFailure_set_mem (i : Instr) (s : State) (m : Memory) : firstFailure i { s with mem := m } = firstFailure i s := by
  cases i <;> rfl

/-- Settles O14: ERR = 1 after it is the fault of the first failing check, whose cause is of the row and which reads no
memory. -/
theorem causesByCommand : Obligations.CausesByCommand := by
  refine fun i s hwf => ⟨fun t herr h ht => ?_, fun m c h herr => ?_⟩
  · obtain ⟨c, hc, rfl⟩ := firstFailure_of_exec_err herr h ht
    exact firstFailure_mem_causesOf hwf hc
  · obtain ⟨c', hc, hsame⟩ := firstFailure_of_exec_err herr h rfl
    obtain rfl : c = c' := congrArg State.cause hsame
    exact exec_of_firstFailure ((firstFailure_set_mem i s m).trans hc)

/-! ### The run-wide mark (R219) -/

/-- Delivering `w` loses a command: it is dropped, it is illegal, or a check of it fails. -/
def State.LosesCommand (s : State) (w : Word) : Prop :=
  s.err = true ∨ (∃ e, decode w s.arg = .error e) ∨ ∃ i c, decode w s.arg = .ok i ∧ firstFailure i s = some c

/-- A command sets the mark just if one of its checks fails. -/
theorem exec_commandLost {i : Instr} {s t : State} (h : exec i s = .next t) :
    t.commandLost = true ↔ s.commandLost = true ∨ ∃ c, firstFailure i s = some c := by
  cases hf : firstFailure i s with
  | some c =>
    obtain rfl := Host.Outcome.next.inj (h.symm.trans (exec_of_firstFailure hf))
    exact iff_of_true rfl (.inr ⟨c, rfl⟩)
  | none =>
    obtain ⟨-, kept, -⟩ := commandsKeepRegisters i s t h
    obtain ⟨-, -, -, -, -, same⟩ := kept hf
    simp [same]

theorem State.onCmdWrite_commandLost {s t : State} {w : Word} (h : s.onCmdWrite w = .next t) :
    t.commandLost = true ↔ s.commandLost = true ∨ s.LosesCommand w := by
  rcases State.onCmdWrite_next h with ⟨herr, rfl⟩ | ⟨-, hillegal, rfl⟩ | ⟨herr, i, hd, hexec⟩
  · exact iff_of_true rfl (.inr (.inl herr))
  · exact iff_of_true rfl (.inr (.inr (.inl hillegal)))
  · rw [exec_commandLost hexec]
    simp [State.LosesCommand, herr, hd]

theorem State.writeStatus_commandLost (s : State) (v : Word) : (s.writeStatus v).commandLost = s.commandLost := by
  unfold State.writeStatus
  split <;> rfl

/-- A host write that does not reach CMD leaves the mark alone. -/
theorem State.hostWrite_commandLost {s t : State} {size : Size} {addr : Addr} {v : Word} (hne : s.target size addr ≠ .cmd)
    (h : s.hostWrite size addr v = .next t) : t.commandLost = s.commandLost := by
  rcases State.hostWrite_next h with ⟨hcmd, -⟩ | ⟨-, rfl⟩ | ⟨-, rfl⟩ | ⟨-, rfl⟩ | ⟨-, rfl⟩ | ⟨-, rfl⟩ | ⟨-, rfl⟩ |
    ⟨n, -, rfl⟩ | ⟨w, j, -, rfl⟩ | ⟨k, -, rfl⟩ | ⟨r, rfl⟩
  · exact absurd hcmd hne
  · rfl
  · exact s.writeStatus_commandLost v
  all_goals rfl

theorem writeDone_next {o : Out} {t : State} (h : writeDone o = .next t) : ∃ u, o = .next u ∧ t = u.respond .ok := by
  cases o with
  | next u => cases h; exact ⟨u, rfl, rfl⟩
  | fault f => cases h
  | refused r => cases h

/-- A step sets the mark just if the event it takes is a CMD write that loses its command. -/
theorem step_commandLost {s t : State} (h : step s = .next t) :
    t.commandLost = true ↔ s.commandLost = true ∨
      ∃ w rest, s.host = .write .word 0x0000#16 w :: rest ∧ ({ s with host := rest } : State).LosesCommand w := by
  rcases step_next h with ⟨hh, rfl⟩ | ⟨rest, size, addr, hh, rfl⟩ | ⟨rest, size, addr, v, hh, hw⟩ | ⟨rest, hh, rfl⟩
  · simp [hh]
  · obtain ⟨r, hr⟩ := State.hostRead_eq { s with host := rest } size addr
    rw [hr]
    simp [hh]
  · by_cases hcmd : ({ s with host := rest } : State).target size addr = .cmd
    · rw [State.hostWrite_cmd hcmd] at hw
      obtain ⟨u, hu, rfl⟩ := writeDone_next hw
      obtain ⟨rfl, rfl⟩ := Iff.mp State.target_cmd_iff hcmd
      simp [hh, State.onCmdWrite_commandLost hu]
    · have hother := mt (Iff.mpr State.target_cmd_iff) hcmd
      rw [State.hostWrite_commandLost hcmd hw]
      simp only [hh, List.cons.injEq, HostEvent.write.injEq]
      refine (or_iff_left ?_).symm
      rintro ⟨w, rest', ⟨⟨hsize, haddr, -⟩, -⟩, -⟩
      exact hother ⟨hsize, haddr⟩
  · simp [hh, State.resetBlock]

/-- Settles O12: both clauses are what a step does to the mark. -/
theorem markRecordsLostCommands : Obligations.MarkRecordsLostCommands := by
  intro s t h
  have mark := step_commandLost h
  refine ⟨fun hset => mark.mpr (.inl hset), fun hclear => ?_⟩
  rw [mark, hclear]
  simp [State.LosesCommand]

/-! ### Where a command meets the model-only fault (R218) -/

/-- The model-only fault names an entry of a table, or a pixel, that holds no value in `m`. -/
def Memory.Lacks (m : Memory) : Fault → Prop
  | .tableNoValue w i => w < 8 ∧ i < 256 ∧ m.read (tblAddr w i) = none
  | .pixelNoValue k => m.readWord (pixAddr k) = none

section
variable {s : State} {f : Fault}

theorem State.entry_lacks {w i : Nat} (hw : w < 8) (hi : i < 256) (h : s.entry w i = .error f) : s.mem.Lacks f := by
  obtain ⟨rfl, hnone⟩ := State.entry_error h
  exact ⟨hw, hi, hnone⟩

theorem State.pixel_lacks {k : Nat} (h : s.pixel k = .error f) : s.mem.Lacks f := by
  obtain ⟨rfl, hnone⟩ := State.pixel_error h
  exact hnone

theorem State.mapPixels_lacks {base count : Index} {g : Word → Except Fault Word}
    (hg : ∀ p, g p = .error f → s.mem.Lacks f) (h : s.mapPixels base count g = .error f) : s.mem.Lacks f := by
  obtain ⟨k, -, -, hpix | ⟨p, -, hp⟩⟩ := State.mapPixels_error h
  · exact State.pixel_lacks hpix
  · exact hg p hp

/-- A fault of a pixel word's function is that of one of its channels. -/
theorem pixelOf_lacks {a : Byte} {g : Nat → Except Fault Byte} (hg : ∀ c, c < 3 → g c = .error f → s.mem.Lacks f)
    (h : pixelOf a g = .error f) : s.mem.Lacks f := by
  obtain ⟨c, hc, hf⟩ := pixelOf_error h
  exact hg c hc hf

theorem State.applyForward_lacks (p : Word) (h : s.applyForward p = .error f) : s.mem.Lacks f := by
  refine pixelOf_lacks (fun c hc hf => ?_) h
  cases hm : s.mode with
  | lookupTable =>
    rw [State.forwardChannel_lookup hm] at hf
    exact State.entry_lacks (by omega) (chan p c).isLt hf
  | closedForm =>
    rw [State.forwardChannel_closed hm] at hf
    cases hf

theorem State.applyInverse_lacks (p : Word) (h : s.applyInverse p = .error f) : s.mem.Lacks f :=
  pixelOf_lacks (fun c _ hf => State.entry_lacks (by omega) (chan p c).isLt hf) h

theorem State.auxOf_lacks {l : Byte} (h : s.auxOf l = .error f) : s.mem.Lacks f := by
  unfold State.auxOf at h
  split at h
  · cases h
  · rcases Except.bind_error.mp h with h | ⟨_, _, h⟩
    · exact State.entry_lacks (by decide) l.isLt h
    · cases h

theorem State.guardPixel_ne_error (p : Word) : s.guardPixel p ≠ .error f := by
  rw [State.guardPixel_eq]
  exact nofun

theorem State.scalePixel_lacks (p : Word) (h : s.scalePixel p = .error f) : s.mem.Lacks f := by
  unfold State.scalePixel at h
  simp only [Except.bind_error] at h
  rcases h with h | ⟨v, -, h | ⟨x, -, h⟩⟩
  · exact State.entry_lacks (by decide) s.level.isLt h
  · exact State.auxOf_lacks h
  · cases h

theorem State.scaleGuardPixel_lacks (p : Word) (h : s.scaleGuardPixel p = .error f) : s.mem.Lacks f := by
  rw [State.scaleGuardPixel_eq_bind] at h
  rcases Except.bind_error.mp h with h | ⟨q, -, h⟩
  · exact State.scalePixel_lacks p h
  · exact absurd h (State.guardPixel_ne_error q)

theorem State.blendPixels_lacks {amt : Byte} {pa pb : Word} (h : s.blendPixels amt pa pb = .error f) : s.mem.Lacks f := by
  refine pixelOf_lacks (fun c hc hf => ?_) h
  unfold State.blendChannel at hf
  simp only [Except.bind_error] at hf
  rcases hf with hf | ⟨la, -, hf | ⟨lb, -, hf⟩⟩
  · exact State.entry_lacks (by omega) (chan pa c).isLt hf
  · exact State.entry_lacks (by omega) (chan pb c).isLt hf
  · exact State.entry_lacks (by omega) (lerp la lb amt).isLt hf

/-- Where a commit stops, the entry or pixel its fault names holds no value. -/
theorem commit_lacks {i : Instr} (h : commitOf i s = .error f) : s.mem.Lacks f := by
  cases i with
  | build tid maxIn maxOut => cases h
  | invert tid maxOut =>
    rcases Except.bind_error.mp h with h | ⟨_, _, h⟩
    · obtain ⟨j, hj, hf⟩ := invLoop_error h
      exact State.entry_lacks (by omega) hj hf
    · cases h
  | applyf base count => exact State.mapPixels_lacks State.applyForward_lacks h
  | applyi base count => exact State.mapPixels_lacks State.applyInverse_lacks h
  | scale base count => exact State.mapPixels_lacks State.scalePixel_lacks h
  | scalef base count => exact State.mapPixels_lacks State.scaleGuardPixel_lacks h
  | floorg base count => exact State.mapPixels_lacks (fun p hp => absurd hp (State.guardPixel_ne_error p)) h
  | blend dst a b amt =>
    simp only [commitOf, Except.bind_error] at h
    rcases h with h | ⟨pa, -, h | ⟨pb, -, h | ⟨q, -, h⟩⟩⟩
    · exact State.pixel_lacks h
    · exact State.pixel_lacks h
    · exact State.blendPixels_lacks h
    · cases h

end

/-- A step answers a next state, or stops where an entry or a pixel holds no value (R218); it is never refused (R219). -/
theorem step_next_or_lacks (s : State) : (∃ t, step s = .next t) ∨ ∃ f, step s = .fault f ∧ s.mem.Lacks f := by
  by_cases h : ∃ t, step s = .next t
  · exact .inl h
  · obtain ⟨rest, size, addr, w, i, -, -, hstep⟩ := step_stops (not_exists.mp h)
    rw [hstep]
    rcases exec_next_or_fault i { s with host := rest } with ⟨t, ht⟩ | ⟨f, hf⟩
    · exact .inl ⟨_, congrArg writeDone ht⟩
    · exact .inr ⟨f, congrArg writeDone hf, commit_lacks (s := { s with host := rest }) (exec_fault hf)⟩

theorem step_fault_lacks {s : State} {f : Fault} (h : step s = .fault f) : s.mem.Lacks f := by
  rcases step_next_or_lacks s with ⟨t, ht⟩ | ⟨g, hg, hlacks⟩
  · cases h.symm.trans ht
  · cases h.symm.trans hg
    exact hlacks

/-! ### Where a command completes (R218) -/

section
variable {s : State}

theorem State.entry_completes {w i : Nat} : (∃ x, s.entry w i = .ok x) ↔ EntryHeld s w i :=
  (exists_congr fun _ => State.entry_ok).trans Option.isSome_iff_exists.symm

theorem pixelOf_completes {a : Byte} {f : Nat → Except Fault Byte} :
    (∃ q, pixelOf a f = .ok q) ↔ ∀ c, c < 3 → ∃ x, f c = .ok x := by
  refine ⟨?_, exists_pixelOf⟩
  rintro ⟨q, hq⟩ c hc
  exact ⟨_, (pixelOf_ok.mp hq).2 c hc⟩

/-- A range command completes just if every pixel of its range holds a value and its function answers for each. -/
theorem State.mapPixels_completes_iff {base count : Index} {f : Word → Except Fault Word} {need : Word → Prop}
    (hneed : ∀ p, (∃ q, f p = .ok q) ↔ need p) : (∃ t, s.mapPixels base count f = .ok t) ↔ RangeHeld s base count need := by
  constructor
  · rintro ⟨t, ht⟩ k hlo hhi
    obtain ⟨-, -, pixels⟩ := State.mapPixels_ok ht
    obtain ⟨p, q, hp, hq, -⟩ := pixels k hlo hhi
    exact ⟨p, State.pixel_ok.mp hp, (hneed p).mp ⟨q, hq⟩⟩
  · intro held
    refine State.mapPixels_completes fun k hlo hhi => ?_
    obtain ⟨p, hp, hn⟩ := held k hlo hhi
    obtain ⟨q, hq⟩ := (hneed p).mpr hn
    exact ⟨p, q, State.pixel_ok.mpr hp, hq⟩

theorem State.applyForward_completes (p : Word) : (∃ q, s.applyForward p = .ok q) ↔
    (s.mode = .lookupTable → ∀ c, c < 3 → EntryHeld s c (chan p c).toNat) := by
  rw [State.applyForward, pixelOf_completes]
  cases hm : s.mode with
  | lookupTable => simp only [State.forwardChannel_lookup hm, State.entry_completes, forall_const]
  | closedForm => simp [State.forwardChannel_closed hm]

theorem State.applyInverse_completes (p : Word) : (∃ q, s.applyInverse p = .ok q) ↔
    ∀ c, c < 3 → EntryHeld s (c + 4) (chan p c).toNat := by
  simp only [State.applyInverse, pixelOf_completes, State.entry_completes]

theorem State.auxOf_completes (l : Byte) : (∃ x, s.auxOf l = .ok x) ↔ (l ≠ 0#8 → EntryHeld s 7 l.toNat) := by
  rw [← State.entry_completes]
  unfold State.auxOf
  split
  · next h => simp [h]
  · next h => simp [h, Except.bind_ok]

theorem State.scalePixel_completes (p : Word) : (∃ q, s.scalePixel p = .ok q) ↔ LevelHeld s := by
  rw [LevelHeld, ← State.entry_completes, ← State.auxOf_completes]
  constructor
  · rintro ⟨q, hq⟩
    obtain ⟨f, hf, hx, -⟩ := State.scalePixel_ok.mp hq
    exact ⟨⟨f, hf⟩, _, hx⟩
  · rintro ⟨⟨f, hf⟩, x, hx⟩
    obtain ⟨q, hq⟩ := exists_pixelWord x fun c => scale8 (chan p c) f
    exact ⟨q, (State.scalePixel_iff (State.entry_ok.mp hf) hx).mpr hq⟩

theorem State.scaleGuardPixel_completes (p : Word) : (∃ q, s.scaleGuardPixel p = .ok q) ↔ LevelHeld s := by
  rw [← State.scalePixel_completes p, State.scaleGuardPixel_eq_bind]
  simp only [Except.bind_ok]
  exact ⟨fun ⟨_, r, hr, _⟩ => ⟨r, hr⟩, fun ⟨r, hr⟩ => ⟨_, r, hr, s.guardPixel_eq r⟩⟩

theorem State.blendPixels_completes {amt : Byte} {pa pb : Word} : (∃ q, s.blendPixels amt pa pb = .ok q) ↔
    ∀ c, c < 3 → ∃ la lb, s.mem.read (tblAddr (c + 4) (chan pa c).toNat) = some la ∧
      s.mem.read (tblAddr (c + 4) (chan pb c).toNat) = some lb ∧ EntryHeld s c (lerp la lb amt).toNat := by
  refine ⟨?_, State.exists_blendPixels⟩
  rintro ⟨q, hq⟩ c hc
  obtain ⟨la, lb, ha, hb, hx⟩ := (State.blendPixels_ok.mp hq).2 c hc
  exact ⟨la, lb, State.entry_ok.mp ha, State.entry_ok.mp hb, Iff.mp State.entry_completes ⟨_, hx⟩⟩

/-! ### INVERT -/

/-- An entry holds a value, which is its number, or reading it is a fault and its number is 0. -/
theorem State.entry_cases (s : State) (w i : Nat) :
    (∃ x, s.entry w i = .ok x ∧ EntryHeld s w i ∧ entryNat s w i = x.toNat) ∨
      (∃ e, s.entry w i = .error e) ∧ ¬ EntryHeld s w i ∧ entryNat s w i = 0 := by
  unfold State.entry EntryHeld entryNat
  cases s.mem.read (tblAddr w i) with
  | some x => exact .inl ⟨x, rfl, rfl, rfl⟩
  | none => exact .inr ⟨⟨_, rfl⟩, Bool.false_ne_true, rfl⟩

/-- Reading an entry answers its number as a byte, where the entry holds a value. -/
theorem State.entry_bind_ok {α : Type} {w i : Nat} {k : Byte → Except Fault α} {a : α} :
    (s.entry w i >>= k) = .ok a ↔ EntryHeld s w i ∧ k (BitVec.ofNat 8 (entryNat s w i)) = .ok a := by
  rcases s.entry_cases w i with ⟨x, hx, held, hnat⟩ | ⟨⟨e, he⟩, hnone, -⟩
  · simp [hx, held, hnat, bind, Except.bind]
  · simp [he, hnone, bind, Except.bind]

theorem toNat_ofNat_entryNat (w i : Nat) : (BitVec.ofNat 8 (entryNat s w i)).toNat = entryNat s w i := by
  rcases s.entry_cases w i with ⟨x, -, -, hnat⟩ | ⟨-, -, hnat⟩
  · rw [hnat, BitVec.ofNat_toNat, BitVec.setWidth_eq]
  · rw [hnat, BitVec.toNat_ofNat]

theorem ofNat_entryNat_inj {w i j : Nat} :
    BitVec.ofNat 8 (entryNat s w i) = BitVec.ofNat 8 (entryNat s w j) ↔ entryNat s w i = entryNat s w j := by
  rw [← BitVec.toNat_inj, toNat_ofNat_entryNat, toNat_ofNat_entryNat]

/-- From an entry `k` that holds a value, the plateau walk ends on `last` just if the entries up to `last` are equal, the next
one differs, and all of them hold values. -/
theorem plateauEnd_iff {w last : Nat} : ∀ {fuel k : Nat}, k + fuel = 255 → EntryHeld s w k →
    (plateauEnd (s.entry w) fuel k = .ok last ↔ k ≤ last ∧ last ≤ 255 ∧
      (∀ j, k ≤ j → j < last → entryNat s w j = entryNat s w (j + 1)) ∧
      (last = 255 ∨ entryNat s w last ≠ entryNat s w (last + 1)) ∧
      ∀ j, k ≤ j → j ≤ last + 1 → j < 256 → EntryHeld s w j)
  | 0, k, hk, held => by
    obtain rfl : k = 255 := hk
    rw [plateauEnd, Except.ok.injEq]
    constructor
    · rintro rfl
      refine ⟨le_rfl, le_rfl, fun j hlo hhi => by omega, .inl rfl, fun j hlo _ hhi => ?_⟩
      obtain rfl : j = 255 := by omega
      exact held
    · rintro ⟨hlo, hhi, -⟩
      exact Nat.le_antisymm hlo hhi
  | fuel + 1, k, hk, held => by
    rw [plateauEnd]
    simp only [State.entry_bind_ok, ofNat_entryNat_inj, and_iff_right held]
    by_cases first : entryNat s w k = entryNat s w (k + 1)
    · rw [if_pos first]
      constructor
      · rintro ⟨held', h⟩
        obtain ⟨hlo, hhi, equal, stop, all⟩ := (plateauEnd_iff (by omega) held').mp h
        refine ⟨by omega, hhi, fun j hj hlast => ?_, stop, fun j hj => ?_⟩
        · rcases hj.eq_or_lt with rfl | hlt
          · exact first
          · exact equal j hlt hlast
        · rcases hj.eq_or_lt with rfl | hlt
          · exact fun _ _ => held
          · exact all j hlt
      · rintro ⟨hlo, hhi, equal, stop, all⟩
        have hne : k ≠ last := by
          rintro rfl
          exact stop.elim (by omega) (· first)
        have held' := all (k + 1) (by omega) (by omega) (by omega)
        exact ⟨held', (plateauEnd_iff (by omega) held').mpr
          ⟨by omega, hhi, fun j hj => equal j (by omega), stop, fun j hj => all j (by omega)⟩⟩
    · rw [if_neg first, Except.ok.injEq]
      constructor
      · rintro ⟨held', rfl⟩
        refine ⟨le_rfl, by omega, fun j hj hlast => by omega, .inr first, fun j hj hlast _ => ?_⟩
        obtain rfl | rfl : j = k ∨ j = k + 1 := by omega
        · exact held
        · exact held'
      · rintro ⟨hlo, -, equal, -, all⟩
        have hlast : k = last := by
          by_contra hne
          exact first (equal k le_rfl (by omega))
        exact ⟨all (k + 1) (by omega) (by omega) (by omega), hlast⟩

/-- The plateau branch of a pass: the walk answers, and with it the next cursor `n` and the entry `v`, just if the plateau of
R106 gives them and its entries and the one after it hold values. -/
theorem plateau_iff {w k n v : Nat} (hk : k < 255) (held : EntryHeld s w k) (first : entryNat s w k = entryNat s w (k + 1)) :
    (∃ last, plateauEnd (s.entry w) (255 - k) k = .ok last ∧ n = last + 1 ∧ v = (k + last) / 2) ↔
      (∃ last, k < last ∧ last ≤ 255 ∧ (∀ j, k ≤ j → j < last → entryNat s w j = entryNat s w (j + 1)) ∧
        (last = 255 ∨ entryNat s w last ≠ entryNat s w (last + 1)) ∧ v = (k + last) / 2 ∧ n = last + 1) ∧
      ∀ j, k ≤ j → j ≤ n → j < 256 → EntryHeld s w j := by
  simp only [plateauEnd_iff (Nat.add_sub_cancel' hk.le) held]
  constructor
  · rintro ⟨last, ⟨hlo, hhi, equal, stop, all⟩, rfl, hv⟩
    have hne : k ≠ last := by
      rintro rfl
      exact stop.elim (by omega) (· first)
    exact ⟨⟨last, by omega, hhi, equal, stop, hv, rfl⟩, all⟩
  · rintro ⟨⟨last, hlo, hhi, equal, stop, hv, rfl⟩, all⟩
    exact ⟨last, ⟨hlo.le, hhi, equal, stop, all⟩, rfl, hv⟩

/-- The cursor before pass `i` of R106, for the forward cursors `f` and the entries `e`. -/
def cursorAt (maxOut : Nat) (f e : Nat → Nat) : Nat → Cursor
  | 0 => ⟨f 0, none, 0⟩
  | i + 1 => ⟨f (i + 1), some (invTarget maxOut i), e i⟩

theorem cursorAt_zero (maxOut : Nat) (f e : Nat → Nat) : cursorAt maxOut f e 0 = ⟨f 0, none, 0⟩ := rfl

theorem cursorAt_succ (maxOut : Nat) (f e : Nat → Nat) (i : Nat) :
    cursorAt maxOut f e (i + 1) = ⟨f (i + 1), some (invTarget maxOut i), e i⟩ := rfl

theorem cursorAt_f (maxOut : Nat) (f e : Nat → Nat) (i : Nat) : (cursorAt maxOut f e i).f = f i := by
  cases i <;> rfl

theorem cursorAt_prev_iff (maxOut : Nat) (f e : Nat → Nat) (i : Nat) :
    (cursorAt maxOut f e i).prev = some (invTarget maxOut i) ↔ 0 < i ∧ invTarget maxOut i = invTarget maxOut (i - 1) := by
  cases i with
  | zero => exact iff_of_false nofun fun h => absurd h.1 (lt_irrefl 0)
  | succ i => rw [cursorAt_succ, Option.some.injEq, Nat.add_sub_cancel, and_iff_right i.succ_pos, eq_comm]

/-- A pass that leaves the cursor at `k` with the entry `v` is the one of `f` and `e`. -/
theorem cursorAt_succ_iff {maxOut k v i : Nat} {f e : Nat → Nat} :
    (.ok ⟨k, some (invTarget maxOut i), v⟩ : Except Fault Cursor) = .ok (cursorAt maxOut f e (i + 1)) ↔
      f (i + 1) = k ∧ e i = v := by
  rw [cursorAt_succ, Except.ok.injEq, Cursor.mk.injEq, and_iff_right rfl, eq_comm, eq_comm (a := v)]

/-- `InverseReads` speaks of the model's targets. -/
theorem inverseReads_iff (s : State) (w maxOut : Nat) (f : Nat → Nat) (i : Nat) : InverseReads s w maxOut f i ↔
    (0 < i ∧ invTarget maxOut i = invTarget maxOut (i - 1)) ∨ 255 ≤ f i ∨
      (EntryHeld s w (f i) ∧ EntryHeld s w (f i + 1) ∧
        if entryNat s w (f i) = entryNat s w (f i + 1) then ∀ j, f i ≤ j → j ≤ f (i + 1) → j < 256 → EntryHeld s w j
        else entryNat s w (f i) = invTarget maxOut i ∨ f i = 0 ∨ EntryHeld s w (f i - 1)) :=
  Iff.rfl

/-- A pass completes from one cursor to the next just if it is the pass of R106 and the entries it reads hold values. -/
theorem invStep_cursorAt_iff {w maxOut i : Nat} {f e : Nat → Nat} :
    invStep (s.entry w) maxOut i (cursorAt maxOut f e i) = .ok (cursorAt maxOut f e (i + 1)) ↔
      InverseEntry (entryNat s w) maxOut f e i ∧ InverseReads s w maxOut f i := by
  rw [inverseEntry_iff, inverseReads_iff]
  unfold invStep
  simp only [cursorAt_prev_iff, cursorAt_f]
  by_cases hcopy : 0 < i ∧ invTarget maxOut i = invTarget maxOut (i - 1)
  · rw [if_pos hcopy, if_pos hcopy, and_iff_left (.inl hcopy)]
    obtain ⟨hpos, htarget⟩ := hcopy
    obtain ⟨k, rfl⟩ := Nat.exists_eq_succ_of_ne_zero hpos.ne'
    rw [Nat.succ_eq_add_one, Nat.add_sub_cancel] at htarget
    rw [cursorAt_succ, ← htarget, cursorAt_succ_iff, and_comm]
    rfl
  · rw [if_neg hcopy, if_neg hcopy]
    by_cases hpast : 255 ≤ f i
    · rw [if_pos hpast, if_pos hpast, cursorAt_succ_iff, and_iff_left (Or.inr (Or.inl hpast)), and_comm]
    · rw [if_neg hpast, if_neg hpast, or_iff_right hcopy, or_iff_right hpast]
      simp only [State.entry_bind_ok, ofNat_entryNat_inj, toNat_ofNat_entryNat]
      refine Iff.trans (and_congr_right fun held => and_congr_right fun _ => ?_)
        (and_left_comm.trans (and_congr_right' and_left_comm)).symm
      by_cases first : entryNat s w (f i) = entryNat s w (f i + 1)
      · simp only [if_pos first, Except.bind_ok, cursorAt_succ_iff]
        exact plateau_iff (Nat.lt_of_not_le hpast) held first
      · rw [if_neg first, if_neg first, if_neg first]
        by_cases hexact : entryNat s w (f i) = invTarget maxOut i
        · rw [if_pos hexact, if_pos hexact, cursorAt_succ_iff, and_iff_left (Or.inl hexact), and_comm]
        · rw [if_neg hexact, if_neg hexact, or_iff_right hexact]
          by_cases hzero : f i = 0
          · rw [if_pos hzero, if_pos hzero, cursorAt_succ_iff, and_iff_left (Or.inl hzero)]
          · rw [if_neg hzero, if_neg hzero, or_iff_right hzero, State.entry_bind_ok, cursorAt_succ_iff, toNat_ofNat_entryNat,
              and_comm]
            simp only [← distance_cast, Nat.cast_le]

/-- Passes that complete one after the other make a loop that completes. -/
theorem invLoop_completes {table : Nat → Except Fault Byte} {maxOut : Nat} (cs : Nat → Cursor) : ∀ {n i : Nat},
    (∀ j, i ≤ j → j < i + n → invStep table maxOut j (cs j) = .ok (cs (j + 1))) →
      ∃ l, invLoop table maxOut n i (cs i) = .ok l
  | 0, _, _ => ⟨[], rfl⟩
  | n + 1, i, h => by
    obtain ⟨l, hl⟩ := invLoop_completes cs (n := n) (i := i + 1) fun j hlo hhi => h j (by omega) (by omega)
    exact ⟨_, Except.bind_ok.mpr ⟨_, h i le_rfl (by omega), Except.bind_ok.mpr ⟨l, hl, rfl⟩⟩⟩

/-- INVERT's algorithm completes just if there is a run of R106 whose passes read entries that hold values alone. -/
theorem invertTable_completes_iff {w maxOut : Nat} : (∃ l, invertTable (s.entry w) maxOut = .ok l) ↔
    ∃ f e : Nat → Nat, f 0 = 0 ∧ ∀ j, j < 256 →
      InverseEntry (entryNat s w) maxOut f e j ∧ InverseReads s w maxOut f j := by
  simp only [← invStep_cursorAt_iff]
  constructor
  · rintro ⟨l, hl⟩
    obtain ⟨cs, hstart, hpass⟩ := invLoop_ok hl
    simp only [Nat.zero_add] at hpass
    refine ⟨fun j => (cs j).f, fun j => (cs (j + 1)).entry, congrArg Cursor.f hstart, fun j hj => ?_⟩
    have cursor : ∀ k, k ≤ 256 → cursorAt maxOut (fun j => (cs j).f) (fun j => (cs (j + 1)).entry) k = cs k := by
      intro k hk
      cases k with
      | zero => rw [hstart, cursorAt_zero, hstart]
      | succ k => rw [cursorAt_succ, ← invStep_prev (hpass k hk).1]
    rw [cursor j hj.le, cursor (j + 1) hj]
    exact (hpass j hj).1
  · rintro ⟨f, e, hstart, hpass⟩
    have start : cursorAt maxOut f e 0 = ⟨0, none, 0⟩ := by rw [cursorAt_zero, hstart]
    rw [invertTable, ← start]
    exact invLoop_completes _ fun j _ hj => hpass j (by omega)

/-- A commit completes just if every entry and pixel the command reads holds a value. -/
theorem commit_completes_iff (i : Instr) (s : State) : (∃ t, commitOf i s = .ok t) ↔ OperandsHeld i s := by
  cases i with
  | build tid maxIn maxOut => exact iff_of_true ⟨_, rfl⟩ trivial
  | invert tid maxOut =>
    refine Iff.trans ?_ invertTable_completes_iff
    simp only [commitOf, Except.bind_ok]
    exact ⟨fun ⟨_, l, hl, _⟩ => ⟨l, hl⟩, fun ⟨l, hl⟩ => ⟨_, l, hl, rfl⟩⟩
  | applyf base count => exact State.mapPixels_completes_iff State.applyForward_completes
  | applyi base count => exact State.mapPixels_completes_iff State.applyInverse_completes
  | scale base count => exact State.mapPixels_completes_iff State.scalePixel_completes
  | scalef base count => exact State.mapPixels_completes_iff State.scaleGuardPixel_completes
  | floorg base count => exact State.mapPixels_completes_iff fun p => iff_of_true ⟨_, s.guardPixel_eq p⟩ trivial
  | blend dst a b amt =>
    simp only [commitOf_blend_iff, OperandsHeld, ← State.blendPixels_completes, State.pixel_ok]
    constructor
    · rintro ⟨_, pa, pb, q, ha, hb, hq, -⟩
      exact ⟨pa, pb, ha, hb, q, hq⟩
    · rintro ⟨pa, pb, ha, hb, q, hq⟩
      exact ⟨_, pa, pb, q, ha, hb, hq, rfl⟩

end

theorem exec_fault_iff (i : Instr) (s : State) : (∃ f, exec i s = .fault f) ↔ ¬ ∃ t, exec i s = .next t := by
  constructor
  · rintro ⟨f, hf⟩ ⟨t, ht⟩
    cases hf.symm.trans ht
  · exact (exec_next_or_fault i s).resolve_left

/-- Settles O11: a step stops only where its fault says; with its checks passed a command is its commit. -/
theorem onlyModelFaultStops : Obligations.OnlyModelFaultStops := by
  refine ⟨fun s => ⟨fun r h => ?_, fun w i => step_fault_lacks, fun k => step_fault_lacks⟩, fun i s hnone => ?_⟩
  · rcases step_next_or_lacks s with ⟨t, ht⟩ | ⟨f, hf, -⟩
    · cases h.symm.trans ht
    · cases h.symm.trans hf
  · have completes : (∃ t, exec i s = .next t) ↔ OperandsHeld i s :=
      (exists_congr fun _ => exec_passed (checks_pass_iff.mpr hnone)).trans (commit_completes_iff i s)
    exact ⟨completes, (exec_fault_iff i s).trans (not_congr completes)⟩

end Sys2Proof.Machine

/-! SUPPORT. Reset and runs (70_reset_and_hazards.md): the reset state and what the host reads from it, the reset event, and
what a run does to the host's list and to the responses. -/

namespace Sys2Proof.Machine

/-! ### Runs (R241) -/

/-- What a transaction does to the model's record: the events to come stay, and one response is added. -/
def State.Answers (s t : State) : Prop := t.host = s.host ∧ ∃ r, t.log = s.log ++ [r]

/-- A response after an update that leaves the record alone. -/
theorem State.answers_respond {s u : State} (h : u.host = s.host ∧ u.log = s.log) (r : Response) : s.Answers (u.respond r) :=
  ⟨h.1, r, congrArg (· ++ [r]) h.2⟩

theorem State.hostRead_answers (s : State) (size : Size) (addr : Addr) : s.Answers (s.hostRead size addr) := by
  obtain ⟨r, hr⟩ := s.hostRead_eq size addr
  rw [hr]
  exact ⟨rfl, r, rfl⟩

/-- A command word delivered, whatever comes of it, leaves the record to the write that delivered it. -/
theorem State.onCmdWrite_keeps_record {s t : State} {w : Word} (h : s.onCmdWrite w = .next t) :
    t.host = s.host ∧ t.log = s.log := by
  rcases State.onCmdWrite_next h with ⟨-, rfl⟩ | ⟨-, -, rfl⟩ | ⟨-, i, -, hexec⟩
  · exact ⟨rfl, rfl⟩
  · exact ⟨rfl, rfl⟩
  · rw [(commandsKeepRegisters i s t hexec).1]
    exact ⟨rfl, rfl⟩

theorem State.writeStatus_keeps_record (s : State) (v : Word) :
    (s.writeStatus v).host = s.host ∧ (s.writeStatus v).log = s.log := by
  unfold State.writeStatus
  split <;> exact ⟨rfl, rfl⟩

theorem State.hostWrite_answers {s t : State} {size : Size} {addr : Addr} {v : Word} (h : s.hostWrite size addr v = .next t) :
    s.Answers t := by
  rcases State.hostWrite_next h with ⟨-, u, hcmd, rfl⟩ | ⟨-, rfl⟩ | ⟨-, rfl⟩ | ⟨-, rfl⟩ | ⟨-, rfl⟩ | ⟨-, rfl⟩ | ⟨-, rfl⟩ |
    ⟨n, -, rfl⟩ | ⟨w, j, -, rfl⟩ | ⟨k, -, rfl⟩ | ⟨r, rfl⟩
  · exact State.answers_respond (State.onCmdWrite_keeps_record hcmd) _
  · exact State.answers_respond ⟨rfl, rfl⟩ _
  · exact State.answers_respond (s.writeStatus_keeps_record v) _
  all_goals exact State.answers_respond ⟨rfl, rfl⟩ _

/-- A step takes the first event off the list, and answers it unless it is a reset (R241, R230). -/
theorem step_record {s t : State} {e : HostEvent} {rest : List HostEvent} (hh : s.host = e :: rest) (h : step s = .next t) :
    t.host = rest ∧ t.log.length = s.log.length + ([e].filter (fun e => e != .rst)).length := by
  rw [step_event hh] at h
  have answered : ∀ {u : State}, ({ s with host := rest } : State).Answers u →
      u.host = rest ∧ u.log.length = s.log.length + 1 := by
    rintro u ⟨hhost, r, hlog⟩
    exact ⟨hhost, by rw [hlog, List.length_append, List.length_singleton]⟩
  cases e with
  | read size addr => cases h; exact answered (State.hostRead_answers _ size addr)
  | write size addr v => exact answered (State.hostWrite_answers h)
  | rst => cases h; exact ⟨rfl, rfl⟩

/-- A run of one step or more that ends in a next state is a step and the rest of the run. -/
theorem run_succ_next {M : Host.Core} {k : Nat} {s t : M.State} (h : M.run (k + 1) s = .next t) :
    ∃ u, M.step s = .next u ∧ M.run k u = .next t := by
  unfold Host.Core.run at h
  split at h
  · next u hu => exact ⟨u, hu, h⟩
  · cases h
  · cases h

/-- Settles O10, by induction on the host's list: each step takes one event, and `step_record` counts its response. -/
theorem runUsesEachTransactionOnce : Obligations.RunUsesEachTransactionOnce := by
  intro s t h
  generalize hh : s.host = events at h ⊢
  induction events generalizing s with
  | nil => cases h; exact ⟨hh, rfl⟩
  | cons e rest ih =>
    obtain ⟨u, hstep, hrun⟩ := run_succ_next h
    obtain ⟨hrest, hcount⟩ := step_record hh hstep
    obtain ⟨hempty, htotal⟩ := ih u hrest hrun
    refine ⟨hempty, ?_⟩
    rw [htotal, hcount, Nat.add_assoc, ← List.length_append, ← List.filter_append, List.singleton_append]

/-! ### The reset state (R230, R231) -/

/-- A host read right after reset of an address that decodes to something returns its value, the first response of all. -/
theorem State.resetWith_hostRead_log {n : Nat} {addr : Addr} {v : Word} (region : Region)
    (hr : (State.resetWith n).target .word addr = region) (hv : (State.resetWith n).readValue region = v)
    (hne : region ≠ .reserved) : ((State.resetWith n).hostRead .word addr).log = [.value v] := by
  rw [State.hostRead_value (hr ▸ hne), hr, hv]
  rfl

/-- The NPIX register holds every NPIX of the range of R7. -/
theorem npix_word {n : Nat} (h : n ≤ 4096) : (0#19 ++ BitVec.ofNat 13 n : Word) = BitVec.ofNat 32 n := by
  apply BitVec.eq_of_toNat_eq
  rw [toNat_zero_append, BitVec.toNat_ofNat, BitVec.toNat_ofNat]
  omega

/-- Settles O5: the elements have their values by definition, a register read evaluates the address map at its offset, and a
word of a window does not decode to nothing. -/
theorem resetState : Obligations.ResetState := by
  intro n s
  have reads {addr : Addr} {v : Word} := @State.resetWith_hostRead_log n addr v
  have status : (0#20 ++ Cause.none.code ++ 0#6 ++ BitVec.ofBool false ++ BitVec.ofBool false : Word) = 0#32 := rfl
  have tvalid : (0#24 ++ 0#8 : Word) = 0#32 := rfl
  have bright : (0#24 ++ 0xFF#8 : Word) = 0x000000FF#32 := rfl
  have cc : wordOfRgb ⟨0xFF#8, 0xFF#8, 0xFF#8⟩ = 0x00FFFFFF#32 := rfl
  have floor : wordOfRgb ⟨1#8, 1#8, 1#8⟩ = 0x00010101#32 := rfl
  refine ⟨?elements, ?zero, ?bright, ?cc, ?floor, ?npix, ?window⟩
  case elements => exact ⟨rfl, rfl, rfl, rfl, rfl, rfl, rfl, rfl, rfl, rfl, rfl, rfl, fun _ => rfl, rfl⟩
  case zero =>
    simp only [List.forall_mem_cons]
    exact ⟨reads .cmd rfl rfl nofun, reads .arg rfl rfl nofun, reads .status rfl status nofun,
      reads .errInfo rfl rfl nofun, reads .errArg rfl rfl nofun, reads .ctrl rfl (mode_word .lookupTable) nofun,
      reads .tvalid rfl tvalid nofun, reads (.gamma 0) rfl rfl nofun, reads (.gamma 1) rfl rfl nofun,
      reads (.gamma 2) rfl rfl nofun, reads (.gamma 3) rfl rfl nofun, nofun⟩
  case bright => exact reads .bright rfl bright nofun
  case cc => exact reads .cc rfl cc nofun
  case floor => exact reads .floor rfl floor nofun
  case npix => exact fun hn => reads .npix rfl (npix_word hn) nofun
  case window =>
    intro a halign hwindow
    refine ⟨_, reads _ rfl rfl fun hnone => ?_⟩
    rcases State.target_reserved_iff.mp hnone with hsize | hmis | hole
    · exact hsize rfl
    · exact hmis halign
    · have hnpix : (State.resetWith n).npix = n := rfl
      omega

/-- For every NPIX of R7 the reset state satisfies the invariant. -/
theorem State.inv_resetWith {n : Nat} (hn : 1 ≤ n ∧ n ≤ 4096) : (State.resetWith n).Inv :=
  ⟨List.Pairwise.nil, fun _ hc => absurd hc List.not_mem_nil, fun _ _ _ _ => rfl, hn, floorsOf_full.symm,
    fun _ => ⟨rfl, rfl⟩, Bool.noConfusion⟩

/-- Settles O6: the NPIX of the model is in the range of R7. -/
theorem resetKeepsInvariant : Obligations.ResetKeepsInvariant := State.inv_resetWith (by decide)

/-- Settles O9: the step meets the reset with the rest of the list, and a reset keeps the record and nothing else. -/
theorem resetEventRestoresResetState : Obligations.ResetEventRestoresResetState := by
  intro s rest hh
  exact step_event hh

end Sys2Proof.Machine
